-- ==== Sys2Proof/Word.lean ====
section
/-! DEFINITION. The word types of the block (00_scope.md R5, R7): a 32-bit register word, a 16-bit checksum, an 8-bit payload byte. Every value is unsigned (R7). -/

namespace Sys2Proof

/-- A payload byte, the key and the cursor's byte and mask are 8 bits wide (R5). -/
abbrev Byte := BitVec 8

/-- The checksum, its target and the seed pair are 16 bits wide (R5). -/
abbrev Half := BitVec 16

/-- Every register of REG is 32 bits wide (R5). -/
abbrev Word := BitVec 32

/-- A number as a 32-bit register value. -/
abbrev Word.ofNat (n : Nat) : Word := BitVec.ofNat 32 n

end Sys2Proof
end

