-- ==== Sys2Proof/Config.lean ====
section
/-! DEFINITION. The parameters of 00_scope.md R5, and the free values: what the spec leaves unspecified (93_implementation_defined.md I2, I3, I5). -/

namespace Sys2Proof

/-- R5, conflict C2: how the checksum target is built from the seed bytes b1 and b2. -/
inductive ChkOrder where
  /-- target = b1 + 256·b2 -/
  | seedLe
  /-- target = b2 + 256·b1 -/
  | seedSwapped
deriving DecidableEq, Repr

/-- The parameters of R5: configuration, "not state" (10_state.md R48). A state carries them unchanged (log 1), so that
every statement about all states is a statement about every choice of them. -/
structure Params where
  /-- size of BUF in bytes -/
  bufCap : Nat
  /-- size of IN in bytes -/
  inCap : Nat
  /-- capacity of the tree arena in nodes -/
  nodeCap : Nat
  /-- largest tree depth the deserializer accepts (the root is at depth 0) -/
  depthCap : Nat
  /-- additive key step of the rolling cipher, mod 256 -/
  keyStep : Byte
  chkOrder : ChkOrder
  /-- REG_BASE, IN_BASE and BUF_BASE: where a platform places the spaces in its own map. No rule depends on them (I9). -/
  regBase : Nat
  inBase : Nat
  bufBase : Nat
deriving DecidableEq, Repr

/-- R5's "this hardware" column. BUF_CAP, IN_CAP and the three bases are OPEN there: the suggested 65536, and 0.
DESIGN CHOICE (log 1). -/
def Params.thisHardware : Params where
  bufCap := 65536
  inCap := 65536
  nodeCap := 511
  depthCap := 255
  keyStep := 0x1F
  chkOrder := .seedLe
  regBase := 0
  inBase := 0
  bufBase := 0

/-- The `n`-th draw of an unspecified 32-bit value (93_implementation_defined.md I2: "a proof must hold for every value").
DESIGN CHOICE (log 4). -/
opaque Config.freeWord : Nat → Word

/-- The unspecified byte of IN at an address, "fixed once drawn" until the next reset (I3): the arguments are the number
of resets and the address. DESIGN CHOICE (log 5). -/
opaque Config.unwrittenIn : Nat → Nat → Byte

/-- The unspecified byte of BUF at an address, as `Config.unwrittenIn`. DESIGN CHOICE (log 5). -/
opaque Config.unwrittenBuf : Nat → Nat → Byte

end Sys2Proof
end

