-- ==== Sys2Proof/Syntax.lean ====
section
/-! DEFINITION. The command set WLDC v1 (30_encoding.md R92), the register names of 10_state.md R23, and what the host can do at its port (20_memory.md R60 to R64). -/

namespace Sys2Proof

/-- R92: the twelve commands. No command has an operand field (R90, R93): the operands are registers. -/
inductive Instr where
  | brInit
  | brReadBit
  | brReadByte
  | htLoad
  | htDecode
  | htDecodeN
  | htDiscard
  | htBlock
  | vxDecode
  | vxChunks
  | rxFixed
  | rxChecksum
deriving DecidableEq, Repr

/-- The defined word slots of REG (R23). -/
inductive Reg where
  | id | ctrl | status | cmd
  | inPos | inEnd | outBase | outSize | encLimit
  | vxBase | vxWidth | vxHeight | vxStride | vxLen
  | result | progress | cursor | key | checksum | chkTarget | seed | rxCount | treeNodes | faultInfo
  | bufCapR | inCapR | nodeCapR | depthCapR
deriving DecidableEq, Repr

/-- The two byte spaces of R60. (REG is reached through its own transactions.) -/
inductive Space where
  | inSpace
  | bufSpace
deriving DecidableEq, Repr

/-- The widths of a host access: 1, 2 or 4 bytes (R64; REG takes only 4, R61). -/
inductive Width where
  | byte
  | half
  | word
deriving DecidableEq, Repr

/-- What the host's side can do to the block: one bus transaction, or the reset input. A REG offset is 8 bits, because
REG has 256 bytes and "an access at an offset of 0x100 or above does not exist in REG" (R61, log 12). -/
inductive HostAct where
  | regRead (off : BitVec 8) (wid : Width)
  | regWrite (off : BitVec 8) (wid : Width) (v : Word)
  | memRead (sp : Space) (off : Nat) (wid : Width)
  | memWrite (sp : Space) (off : Nat) (wid : Width) (v : Word)
  /-- R96's `wait`: repeat a read of STATUS until bit 0 (BUSY) reads 0. -/
  | waitIdle
  /-- RST is asserted (R240). -/
  | rst
deriving DecidableEq, Repr

/-- R20: the two agents. -/
inductive Agent where
  | host
  | engine
deriving DecidableEq, Repr

end Sys2Proof
end

