-- ==== Sys2Proof/WellFormed.lean ====
section
/-! DEFINITION. What is well formed: a CMD word (30_encoding.md R91), a parameter choice (00_scope.md R5), and an instruction. -/

namespace Sys2Proof

/-- R92: the twelve opcodes. -/
def validOpcodes : List Byte :=
  [0x01, 0x02, 0x03, 0x10, 0x11, 0x12, 0x13, 0x14, 0x20, 0x21, 0x30, 0x31]

/-- R91: "a CMD word w is valid iff w[31:8] = 0 and w[7:0] is one of the twelve opcodes". -/
def cmdWordValid (w : Word) : Bool :=
  w.extractLsb' 8 24 == 0 && validOpcodes.contains (w.extractLsb' 0 8)

/-- R5's constraints on the parameters. (KEY_STEP and CHK_ORDER are bounded by their types.) -/
def Params.valid (p : Params) : Bool :=
  decide (1 ≤ p.bufCap) && decide (p.bufCap ≤ 2 ^ 31) &&
  decide (1 ≤ p.inCap) && decide (p.inCap ≤ 2 ^ 31) &&
  decide (1 ≤ p.nodeCap) && decide (p.nodeCap ≤ 2 ^ 16) &&
  decide (p.depthCap ≤ p.nodeCap)

/-- A command has no register number, immediate or mode field (R90), so every term of `Instr` is well formed. The match
names each constructor, so that a command with a field could not be added without its check. -/
def Instr.wf : Instr → Bool
  | .brInit | .brReadBit | .brReadByte
  | .htLoad | .htDecode | .htDecodeN | .htDiscard | .htBlock
  | .vxDecode | .vxChunks
  | .rxFixed | .rxChecksum => true

end Sys2Proof
end

