-- ==== Sys2Proof/Decode.lean ====
section
/-! DEFINITION. Decoding and encoding of CMD words (30_encoding.md R90 to R95) and of REG offsets (10_state.md R23). -/

namespace Sys2Proof

/-- A row of R92's opcode map: an instruction whose word w has w and mask = pattern. -/
structure OpcodeRow where
  mask : Word
  pattern : Word
  instr : Instr
deriving DecidableEq, Repr

/-- R92: "In every row, match = the full word and mask = 0xFFFFFFFF." -/
def opcodeTable : List OpcodeRow :=
  [⟨0xFFFFFFFF, 0x00000001, .brInit⟩,
   ⟨0xFFFFFFFF, 0x00000002, .brReadBit⟩,
   ⟨0xFFFFFFFF, 0x00000003, .brReadByte⟩,
   ⟨0xFFFFFFFF, 0x00000010, .htLoad⟩,
   ⟨0xFFFFFFFF, 0x00000011, .htDecode⟩,
   ⟨0xFFFFFFFF, 0x00000012, .htDecodeN⟩,
   ⟨0xFFFFFFFF, 0x00000013, .htDiscard⟩,
   ⟨0xFFFFFFFF, 0x00000014, .htBlock⟩,
   ⟨0xFFFFFFFF, 0x00000020, .vxDecode⟩,
   ⟨0xFFFFFFFF, 0x00000021, .vxChunks⟩,
   ⟨0xFFFFFFFF, 0x00000030, .rxFixed⟩,
   ⟨0xFFFFFFFF, 0x00000031, .rxChecksum⟩]

/-- Why a word, or a byte string, is no command (R94; BAD_CMD in each case when it is a whole word). -/
inductive DecodeError where
  /-- RSV ≠ 0 -/
  | reservedBits (w : Word)
  /-- RSV = 0 and OPC is none of the twelve -/
  | unknownOpcode (w : Word)
  /-- fewer than the four bytes of a command (R90) -/
  | truncated
deriving DecidableEq, Repr

/-- R91: decoding depends only on the word. -/
def decode (w : Word) : Except DecodeError Instr :=
  match opcodeTable.find? (fun r => (w &&& r.mask) == r.pattern) with
  | some r => .ok r.instr
  | none => if w.extractLsb' 8 24 ≠ 0 then .error (.reservedBits w) else .error (.unknownOpcode w)

/-- Four bytes, the lowest address first, as a little-endian word (20_memory.md R65). -/
def wordOfBytes (b0 b1 b2 b3 : Byte) : Word :=
  b0.zeroExtend 32 ||| (b1.zeroExtend 32 <<< 8) ||| (b2.zeroExtend 32 <<< 16) ||| (b3.zeroExtend 32 <<< 24)

/-- Byte i of a word: bits 8i+7 to 8i (R64). -/
def wordByte (w : Word) (i : Nat) : Byte := w.extractLsb' (8 * i) 8

/-- Decoding from bytes: one command is always four bytes (R90, R95), and the rest of the list is left over. -/
def decodeBytes : List Byte → Except DecodeError (Instr × List Byte)
  | b0 :: b1 :: b2 :: b3 :: rest =>
    match decode (wordOfBytes b0 b1 b2 b3) with
    | .ok i => .ok (i, rest)
    | .error e => .error e
  | _ => .error .truncated

/-- The instruction read from table bits `w` (bit 0 the least significant bit of the first word), laid out as
little-endian bytes (R65, log 13). A command has 32 bits, so a wider row is none of this hardware. -/
def decodeTableWord (nbits w : Nat) : Option Instr :=
  if nbits ≤ 32 then
    let v : Word := BitVec.ofNat 32 (w % 2 ^ nbits)
    match decodeBytes [wordByte v 0, wordByte v 1, wordByte v 2, wordByte v 3] with
    | .ok (i, _) => some i
    | .error _ => none
  else none

/-- R92's OPC column. -/
def Instr.opcode : Instr → Byte
  | .brInit => 0x01
  | .brReadBit => 0x02
  | .brReadByte => 0x03
  | .htLoad => 0x10
  | .htDecode => 0x11
  | .htDecodeN => 0x12
  | .htDiscard => 0x13
  | .htBlock => 0x14
  | .vxDecode => 0x20
  | .vxChunks => 0x21
  | .rxFixed => 0x30
  | .rxChecksum => 0x31

/-- R90: OPC in bits 7:0, RSV = 0 in bits 31:8. -/
def encode (i : Instr) : Word := i.opcode.zeroExtend 32

/-- A command as the four bytes of its word, lowest address first. -/
def encodeBytes (i : Instr) : List Byte :=
  [wordByte (encode i) 0, wordByte (encode i) 1, wordByte (encode i) 2, wordByte (encode i) 3]

/-- R23: the offset of each register. -/
def Reg.offset : Reg → BitVec 8
  | .id => 0x00 | .ctrl => 0x04 | .status => 0x08 | .cmd => 0x0C
  | .inPos => 0x10 | .inEnd => 0x14 | .outBase => 0x18 | .outSize => 0x1C | .encLimit => 0x20
  | .vxBase => 0x24 | .vxWidth => 0x28 | .vxHeight => 0x2C | .vxStride => 0x30 | .vxLen => 0x34
  | .result => 0x38 | .progress => 0x3C | .cursor => 0x40 | .key => 0x44 | .checksum => 0x48
  | .chkTarget => 0x4C | .seed => 0x50 | .rxCount => 0x54 | .treeNodes => 0x58 | .faultInfo => 0x5C
  | .bufCapR => 0x60 | .inCapR => 0x64 | .nodeCapR => 0x68 | .depthCapR => 0x6C

/-- R23: the defined slots in order of their offsets. -/
def regTable : List Reg :=
  [.id, .ctrl, .status, .cmd, .inPos, .inEnd, .outBase, .outSize, .encLimit, .vxBase, .vxWidth, .vxHeight, .vxStride,
   .vxLen, .result, .progress, .cursor, .key, .checksum, .chkTarget, .seed, .rxCount, .treeNodes, .faultInfo, .bufCapR,
   .inCapR, .nodeCapR, .depthCapR]

/-- The register at an offset; none for a reserved or misaligned one (R46, R61). -/
def Reg.ofOffset (off : BitVec 8) : Option Reg := regTable.find? (fun r => r.offset == off)

end Sys2Proof
end

