-- ==== Sys2Proof/Machine/State.lean ====
section
/-! DEFINITION. The state of the block (10_state.md R48), the reasons a step can stop, and the state after reset (70_reset_and_hazards.md R240, R241). -/

namespace Sys2Proof.Machine

/-- R203: the fault causes. The codes 0x08 to 0xFF are never produced, and have no constructor. -/
inductive Cause where
  | none
  | badCmd
  | eos
  | treeOverflow
  | depthOverflow
  | noTree
  | bufRange
  | badParam
deriving DecidableEq, Repr

/-- R25: CTRL, the interrupt enables. Its reserved bits hold nothing. -/
structure Ctrl where
  ieDone : Bool
  ieErr : Bool
  ieHaz : Bool
deriving DecidableEq, Repr

/-- R26: STATUS, field by field. Its reserved bits read 0 and hold nothing; the word the host reads is `Status.toWord`. -/
structure Status where
  busy : Bool
  done : Bool
  err : Bool
  haz : Bool
  treeValid : Bool
  rxStop : Bool
  cause : Cause
deriving DecidableEq, Repr

/-- R33: the bit cursor. `mask` selects the next bit to extract; 0 means exhausted. -/
structure Cursor where
  byte : Byte
  mask : Byte
deriving DecidableEq, Repr

/-- R34: an entry of the tree arena. -/
inductive Node where
  | leaf (v : Byte)
  | internal (l r : Nat)
  | pending
deriving DecidableEq, Repr

/-- A byte space: the bytes written since reset, as (address, byte) pairs with strictly rising addresses. An address that
is not listed holds no byte of the list: it reads as a free value (log 5). -/
abbrev Memory := List Host.Cell

/-- Why a step stops. -/
inductive Fault where
  /-- Raised by DecodeSym (41_huffman.md R132) when STATUS.TREE_VALID = 1 and yet the walk meets an entry that is Pending
  or absent, or does not end within TREE_NODES entries: the arena is then not the strict binary tree that R34 says it is,
  and the spec gives no effect. Safe: no run reaches such a state (log 7). -/
  | treeCorrupt
deriving DecidableEq, Repr

/-- Why an instruction has no meaning. -/
inductive Refusal where
  /-- Raised only by an arm of `exec` whose instruction is not modelled yet; no arm is. Safe. -/
  | notModelled (mnemonic : String)
deriving DecidableEq, Repr

/-- R48: the complete state of the block, then the model's own fields (the parameters, the host's waiting transactions,
the schedule, the host's read data, and the selectors of the free values). -/
@[ext]
structure State where
  /-- R5, R48: configuration, changed by no step (log 1) -/
  par : Params
  ctrl : Ctrl
  status : Status
  /-- R27: the command latch CL -/
  latch : Instr
  inPos : Word
  inEnd : Word
  outBase : Word
  outSize : Word
  encLimit : Word
  vxBase : Word
  vxWidth : Word
  vxHeight : Word
  vxStride : Word
  vxLen : Word
  result : Byte
  progress : Word
  cursor : Cursor
  key : Byte
  checksum : Half
  chkTarget : Half
  seed : Half
  rxCount : Word
  treeNodes : Word
  faultInfo : Word
  /-- R34: the entries of the tree arena below TREE_NODES; the others are unspecified and never read (log 6) -/
  arena : List Node
  inMem : Memory
  bufMem : Memory
  /-- the model's own: number of resets, the selector of the unspecified contents of IN and BUF (log 5) -/
  epoch : Nat
  /-- the model's own: number of free values drawn (log 4) -/
  draws : Nat
  /-- the model's own: the host's transactions not yet served, oldest first (log 3) -/
  hostQ : List HostAct
  /-- the model's own: which agent moves, for the steps at which both can (log 3) -/
  sched : List Agent
  /-- the model's own: what the last host read returned (log 3) -/
  rdata : Word
deriving DecidableEq, Repr

/-- R240, R241: the state after reset. CL is "irrelevant" (log 2), IN, BUF and the arena are unspecified (logs 5 and 6). -/
def State.reset : State where
  par := Params.thisHardware
  ctrl := ⟨false, false, false⟩
  status := ⟨false, false, false, false, false, false, .none⟩
  latch := .brInit
  inPos := 0
  inEnd := 0
  outBase := 0
  outSize := 0
  encLimit := 0
  vxBase := 0
  vxWidth := 0
  vxHeight := 0
  vxStride := 0
  vxLen := 0
  result := 0
  progress := 0
  cursor := ⟨0, 0⟩
  key := 0
  checksum := 0
  chkTarget := 0
  seed := 0
  rxCount := 0
  treeNodes := 0
  faultInfo := 0
  arena := []
  inMem := []
  bufMem := []
  epoch := 0
  draws := 0
  hostQ := []
  sched := []
  rdata := 0

end Sys2Proof.Machine
end

