-- ==== Sys2Proof/Machine/Ops.lean ====
section
/-! DEFINITION. The shared operations: bytes of IN and BUF, the named updates of the state, the result of an engine procedure, InByte, and the life of a command: acceptance, completion, fault entry and its return (20_memory.md, 40_bitreader.md R111, 60_exceptions.md). -/

namespace Sys2Proof.Machine

/-! ## Byte spaces -/

/-- The byte written at an address since reset, if any. -/
def Memory.read : Memory → Nat → Option Byte
  | [], _ => none
  | (k, b) :: m, a => if a = k then some b else Memory.read m a

/-- Write one byte, keeping addresses strictly rising. -/
def Memory.write : Memory → Nat → Byte → Memory
  | [], a, v => [(a, v)]
  | (k, b) :: m, a, v =>
    if a < k then (a, v) :: (k, b) :: m
    else if a = k then (a, v) :: m
    else (k, b) :: Memory.write m a v

/-- The canonical form: addresses strictly rising. (An unlisted address has no byte, so no entry can equal it.) -/
abbrev Memory.wf (m : Memory) : Prop := m.Pairwise (fun x y => x.1 < y.1)

/-- Every listed address lies below the size of the space. -/
abbrev Memory.below (m : Memory) (cap : Nat) : Prop := ∀ c ∈ m, c.1 < cap

/-- MemRead(IN, a, 1): a byte nothing has written since reset is a free value, fixed until the next reset (R80, I3). -/
def State.readIn (s : State) (a : Nat) : Byte := (Memory.read s.inMem a).getD (Config.unwrittenIn s.epoch a)

/-- MemRead(BUF, a, 1), as `State.readIn`. -/
def State.readBuf (s : State) (a : Nat) : Byte := (Memory.read s.bufMem a).getD (Config.unwrittenBuf s.epoch a)

/-- MemWrite(BUF, a, 1, v). -/
def State.storeBuf (s : State) (a : Nat) (v : Byte) : State := { s with bufMem := Memory.write s.bufMem a v }

/-- A host byte write of IN; the engine never writes IN (R79). -/
def State.storeIn (s : State) (a : Nat) (v : Byte) : State := { s with inMem := Memory.write s.inMem a v }

/-! ## Named updates of the registers -/

/-- R[CURSOR] <- c. -/
def State.setCursor (s : State) (c : Cursor) : State := { s with cursor := c }

/-- R[IN_POS] <- R[IN_POS] + 1, one byte fetched (R21, R111). -/
def State.advanceIn (s : State) : State := { s with inPos := s.inPos + 1 }

/-- R[RESULT] <- zext_32(v). -/
def State.setResult (s : State) (v : Byte) : State := { s with result := v }

/-- R[PROGRESS] <- n. -/
def State.setProgress (s : State) (n : Nat) : State := { s with progress := Word.ofNat n }

/-- TREE_VALID <- 0, TREE_NODES <- 0; the arena's entries become unspecified (R34, R144). -/
def State.dropTree (s : State) : State :=
  { s with status := { s.status with treeValid := false }, treeNodes := 0, arena := [] }

/-- TREE_VALID <- 1 (R141, R145). -/
def State.validateTree (s : State) : State := { s with status := { s.status with treeValid := true } }

/-- Allocate the next arena entry, Pending, and count it (R131). -/
def State.allocNode (s : State) : State := { s with treeNodes := s.treeNodes + 1, arena := s.arena ++ [.pending] }

/-- NODE[n] <- v (R131). -/
def State.setNode (s : State) (n : Nat) (v : Node) : State := { s with arena := s.arena.set n v }

/-- HAZ <- 1 (R71, R202). -/
def State.setHaz (s : State) : State := { s with status := { s.status with haz := true } }

/-- The host read's answer. -/
def State.answer (s : State) (v : Word) : State := { s with rdata := v }

/-- The host read's answer is the `n`-th free value mapped by `f`; the counter advances (I2, log 4). -/
def State.answerDraw (s : State) (f : Word → Word) : State :=
  { s with rdata := f (Config.freeWord s.draws), draws := s.draws + 1 }

/-! ## The life of a command -/

/-- R201: acceptance of a valid word. -/
def State.accept (s : State) (i : Instr) : State :=
  { s with latch := i, progress := 0, status := { s.status with done := false, busy := true } }

/-- R204: completion. -/
def State.complete (s : State) : State := { s with status := { s.status with busy := false, done := true } }

/-- R203: the code of a cause. -/
def Cause.code : Cause → Byte
  | .none => 0x00
  | .badCmd => 0x01
  | .eos => 0x02
  | .treeOverflow => 0x03
  | .depthOverflow => 0x04
  | .noTree => 0x05
  | .bufRange => 0x06
  | .badParam => 0x07

/-- R205: fault entry, the one way a command takes a fault. What the command wrote before stands, and DONE = 0, as
acceptance made it (log 15). -/
def State.takeFault (s : State) (c : Cause) (info : Word) : State :=
  { s with faultInfo := info, status := { s.status with busy := false, done := false, err := true, cause := c } }

/-- R209: the return from a fault, the effect of a write of 1 to STATUS bit 2. -/
def State.clearErr (s : State) : State :=
  { s with faultInfo := 0, status := { s.status with err := false, cause := .none } }

/-- R202: an invalid word is recorded, and nothing else changes. -/
def State.badCmd (s : State) (w : Word) : State :=
  { s with faultInfo := w, status := { s.status with err := true, cause := .badCmd, done := false } }

/-! ## Engine procedures -/

/-- The result of a procedure of the engine: a value and the state, or a raised fault with the state at the raise
(R8, R205), or a stop. -/
inductive Eng (α : Type) where
  | ok (a : α) (s : State)
  | raise (c : Cause) (info : Word) (s : State)
  | stuck (f : Fault)

/-- "No statement after the raise is executed" (R8). -/
def Eng.bind {α β : Type} (x : Eng α) (f : α → State → Eng β) : Eng β :=
  match x with
  | .ok a s => f a s
  | .raise c info s => .raise c info s
  | .stuck e => .stuck e

/-- The end of a command's rule: completion (R204) or fault entry (R205), each a next state. -/
def Eng.finish {α : Type} (x : Eng α) : Host.Outcome State Fault Refusal :=
  match x with
  | .ok _ s => .next s.complete
  | .raise c info s => .next (s.takeFault c info)
  | .stuck e => .fault e

/-- R29: EOS_LIMIT = min(R[IN_END], IN_CAP). -/
def State.eosLimit (s : State) : Nat := min s.inEnd.toNat s.par.inCap

/-- R111: fetch one byte of the input stream. -/
def inByte (s : State) : Eng Byte :=
  if s.eosLimit ≤ s.inPos.toNat then .raise .eos s.inPos s
  else .ok (s.readIn s.inPos.toNat) s.advanceIn

/-- R206: OUT_BASE + OUT_SIZE ≤ BUF_CAP, in unbounded integers (R7). -/
abbrev State.outFits (s : State) : Prop := s.outBase.toNat + s.outSize.toNat ≤ s.par.bufCap

/-- R206: CheckOut, before any other effect. -/
def checkOut (s : State) : Eng Unit := if s.outFits then .ok () s else .raise .bufRange 0 s

end Sys2Proof.Machine
end

