-- ==== Sys2Proof/Machine/Flags.lean ====
section
/-! DEFINITION. STATUS, CTRL and CURSOR as words, the W1C write of STATUS, and the interrupt line (10_state.md R25, R26, R33, R47; 60_exceptions.md R209, R212). -/

namespace Sys2Proof.Machine

/-- A flag at a bit position of a register word. -/
def flagAt (b : Bool) (pos : Nat) : Word := if b then 1#32 <<< pos else 0

/-- R26: the STATUS word. Bits 7:6 and 31:16 are reserved and read 0. -/
def Status.toWord (t : Status) : Word :=
  flagAt t.busy 0 ||| flagAt t.done 1 ||| flagAt t.err 2 ||| flagAt t.haz 3 ||| flagAt t.treeValid 4 |||
  flagAt t.rxStop 5 ||| (t.cause.code.zeroExtend 32 <<< 8)

/-- R25: the CTRL word. -/
def Ctrl.toWord (c : Ctrl) : Word := flagAt c.ieDone 0 ||| flagAt c.ieErr 1 ||| flagAt c.ieHaz 2

/-- R25: a write of CTRL keeps bits 2:0 and ignores the others. -/
def Ctrl.ofWord (w : Word) : Ctrl := ⟨w.getLsbD 0, w.getLsbD 1, w.getLsbD 2⟩

/-- R33: CUR_BYTE in bits 7:0 and CUR_MASK in bits 15:8. -/
def Cursor.toWord (c : Cursor) : Word := c.byte.zeroExtend 32 ||| (c.mask.zeroExtend 32 <<< 8)

/-- R26: a host write of STATUS while BUSY = 0 clears each W1C field whose written bit is 1 (bit 2 as R209 says) and
changes nothing else. -/
def State.writeStatus (s : State) (v : Word) : State :=
  let s := if v.getLsbD 2 then s.clearErr else s
  { s with status := { s.status with
      done := s.status.done && !v.getLsbD 1
      haz := s.status.haz && !v.getLsbD 3 } }

/-- R71: what a read of STATUS returns while BUSY = 1: BUSY = 1, DONE = ERR = CAUSE = 0, HAZ as it is; TREE_VALID and
RX_STOP are bits of a draw. -/
def Status.busyWord (t : Status) (free : Word) : Word :=
  flagAt true 0 ||| flagAt t.haz 3 ||| flagAt (free.getLsbD 4) 4 ||| flagAt (free.getLsbD 5) 5

/-- R47, R212: the interrupt line, a combinational function of STATUS and CTRL. -/
def State.irq (s : State) : Bool :=
  (s.status.done && s.ctrl.ieDone) || (s.status.err && s.ctrl.ieErr) || (s.status.haz && s.ctrl.ieHaz)

end Sys2Proof.Machine
end

