-- ==== Sys2Proof/Machine/Operands.lean ====
section
/-! DEFINITION. The registers as the host reads and writes them (10_state.md R23 to R46; 20_memory.md R71), and the assembled operands of the commands (30_encoding.md R93). -/

namespace Sys2Proof.Machine

/-- R24: the ID constant. -/
def idValue : Word := 0x574C0001

/-- The value of a register, zero-extended to 32 bits (R23: bits beyond the width used read 0). CMD reads 0 (R27). -/
def State.readReg (s : State) : Reg → Word
  | .id => idValue
  | .ctrl => s.ctrl.toWord
  | .status => s.status.toWord
  | .cmd => 0
  | .inPos => s.inPos
  | .inEnd => s.inEnd
  | .outBase => s.outBase
  | .outSize => s.outSize
  | .encLimit => s.encLimit
  | .vxBase => s.vxBase
  | .vxWidth => s.vxWidth
  | .vxHeight => s.vxHeight
  | .vxStride => s.vxStride
  | .vxLen => s.vxLen
  | .result => s.result.zeroExtend 32
  | .progress => s.progress
  | .cursor => s.cursor.toWord
  | .key => s.key.zeroExtend 32
  | .checksum => s.checksum.zeroExtend 32
  | .chkTarget => s.chkTarget.zeroExtend 32
  | .seed => s.seed.zeroExtend 32
  | .rxCount => s.rxCount
  | .treeNodes => s.treeNodes
  | .faultInfo => s.faultInfo
  | .bufCapR => Word.ofNat s.par.bufCap
  | .inCapR => Word.ofNat s.par.inCap
  | .nodeCapR => Word.ofNat s.par.nodeCap
  | .depthCapR => Word.ofNat s.par.depthCap

/-- R71: the registers whose read returns a draw while BUSY = 1: IN_POS and the engine-written RO registers. -/
def regDrawnWhileBusy : Reg → Bool
  | .inPos | .result | .progress | .cursor | .key | .checksum | .chkTarget | .seed | .rxCount | .treeNodes
  | .faultInfo => true
  | .id | .ctrl | .status | .cmd | .inEnd | .outBase | .outSize | .encLimit | .vxBase | .vxWidth | .vxHeight | .vxStride
  | .vxLen | .bufCapR | .inCapR | .nodeCapR | .depthCapR => false

/-- A store of the host to a register while BUSY = 0: RW registers take the value, CTRL its three bits, STATUS clears its
W1C fields, and RO registers ignore it (R23). CMD is `cmdWrite`, not here. -/
def State.writeReg (s : State) (r : Reg) (v : Word) : State :=
  match r with
  | .ctrl => { s with ctrl := Ctrl.ofWord v }
  | .status => s.writeStatus v
  | .inPos => { s with inPos := v }
  | .inEnd => { s with inEnd := v }
  | .outBase => { s with outBase := v }
  | .outSize => { s with outSize := v }
  | .encLimit => { s with encLimit := v }
  | .vxBase => { s with vxBase := v }
  | .vxWidth => { s with vxWidth := v }
  | .vxHeight => { s with vxHeight := v }
  | .vxStride => { s with vxStride := v }
  | .vxLen => { s with vxLen := v }
  | .id | .cmd | .result | .progress | .cursor | .key | .checksum | .chkTarget | .seed | .rxCount | .treeNodes
  | .faultInfo | .bufCapR | .inCapR | .nodeCapR | .depthCapR => s

/-- R180: lim = min(R[ENC_LIMIT], R[OUT_SIZE]), as unsigned numbers (R185). -/
def State.rxLimit (s : State) : Nat := min s.encLimit.toNat s.outSize.toNat

/-- {b2, b1}: b1 + 256·b2 (R7, R41). -/
def halfOfBytes (hi lo : Byte) : Half := hi ++ lo

/-- R41, R180: the checksum target under the parameter CHK_ORDER (conflict C2). -/
def chkTargetOf (o : ChkOrder) (b1 b2 : Byte) : Half :=
  match o with
  | .seedLe => halfOfBytes b2 b1
  | .seedSwapped => halfOfBytes b1 b2

/-- w·h of the vertical-XOR operands, in unbounded integers (R161, R7). -/
def State.gridSize (s : State) : Nat := s.vxWidth.toNat * s.vxHeight.toNat

/-- R161: the grid lies inside BUF. -/
abbrev State.gridFits (s : State) : Prop := s.vxBase.toNat + s.gridSize ≤ s.par.bufCap

/-- R162: the region of the chunks lies inside BUF. -/
abbrev State.regionFits (s : State) : Prop := s.vxBase.toNat + s.vxLen.toNat ≤ s.par.bufCap

/-- R162: the stride is neither 0 nor shorter than a chunk. -/
abbrev State.strideOk (s : State) : Prop := s.vxStride ≠ 0 ∧ s.gridSize ≤ s.vxStride.toNat

end Sys2Proof.Machine
end

