-- ==== Sys2Proof/Machine/BitReader.lean ====
section
/-! DEFINITION. The bit reader, BR family (40_bitreader.md). -/

namespace Sys2Proof.Machine

/-- R112: refill the cursor when its mask is exhausted. -/
def refill (s : State) : Eng Unit :=
  if s.cursor.mask = 0 then
    (inByte s).bind fun b s => .ok () (s.setCursor ⟨b, 0x80⟩)
  else .ok () s

/-- R112: ReadBit. -/
def readBit (s : State) : Eng Bool :=
  (refill s).bind fun _ s =>
    .ok ((s.cursor.byte &&& s.cursor.mask) != 0) (s.setCursor ⟨s.cursor.byte, s.cursor.mask >>> 1⟩)

/-- R113: v <- ((v << 1) or bit) mod 2^8. -/
def shiftIn (v : Byte) (b : Bool) : Byte := (v <<< 1) ||| (if b then 1 else 0)

/-- R113's loop: `n` more bits into `v`. -/
def readBits : Nat → Byte → State → Eng Byte
  | 0, v, s => .ok v s
  | n + 1, v, s => (readBit s).bind fun b s => readBits n (shiftIn v b) s

/-- R113: ReadByte. -/
def readByte (s : State) : Eng Byte := readBits 8 0 s

/-- R114: BR_INIT. -/
def execBrInit (s : State) : Host.Outcome State Fault Refusal :=
  Eng.finish (.ok () (s.setCursor ⟨0, 0⟩))

/-- R115: BR_READ_BIT. -/
def execBrReadBit (s : State) : Host.Outcome State Fault Refusal :=
  Eng.finish ((readBit s).bind fun b s => .ok () (s.setResult (if b then 1 else 0)))

/-- R116: BR_READ_BYTE. -/
def execBrReadByte (s : State) : Host.Outcome State Fault Refusal :=
  Eng.finish ((readByte s).bind fun v s => .ok () (s.setResult v))

end Sys2Proof.Machine
end

