-- ==== Sys2Proof/Machine/Huffman.lean ====
section
/-! DEFINITION. The Huffman tree deserializer and decoder, HT family (41_huffman.md). -/

namespace Sys2Proof.Machine

/-- R131: Deser(d). The first argument is how many levels of nodes may still be read, DEPTH_CAP + 1 - d: it is 0 exactly
when d > DEPTH_CAP, where the rule raises DEPTH_OVERFLOW before any bit of the node (log 14). -/
def deser : Nat → Nat → State → Eng Nat
  | 0, d, s => .raise .depthOverflow (Word.ofNat d) s
  | levels + 1, d, s =>
    (readBit s).bind fun t s =>
      if s.treeNodes.toNat = s.par.nodeCap then .raise .treeOverflow (Word.ofNat s.par.nodeCap) s
      else
        let n := s.treeNodes.toNat
        if t then
          (readByte s.allocNode).bind fun v s => .ok n (s.setNode n (.leaf v))
        else
          (deser levels (d + 1) s.allocNode).bind fun l s =>
            (readBit s).bind fun _ s =>
              (deser levels (d + 1) s).bind fun r s => .ok n (s.setNode n (.internal l r))

/-- Deser(0): the root is NODE[0]. -/
def deserRoot (s : State) : Eng Nat := deser (s.par.depthCap + 1) 0 s

/-- R132's loop from entry `n`. The first argument bounds the entries visited: "the walk visits at most TREE_NODES
nodes" (log 14). -/
def walkTree : Nat → Nat → State → Eng Byte
  | 0, _, _ => .stuck .treeCorrupt
  | fuel + 1, n, s =>
    match s.arena[n]? with
    | some (.leaf v) => .ok v s
    | some (.internal l r) => (readBit s).bind fun b s => walkTree fuel (if b then r else l) s
    | some .pending => .stuck .treeCorrupt
    | none => .stuck .treeCorrupt

/-- R132: DecodeSym, from the root. -/
def decodeSym (s : State) : Eng Byte := walkTree s.treeNodes.toNat 0 s

/-- R143, R145: the loop of the data phase, `n` symbols from position `i`. -/
def decodeLoop : Nat → Nat → State → Eng Unit
  | 0, _, s => .ok () s
  | n + 1, i, s =>
    (decodeSym s).bind fun v s =>
      decodeLoop n (i + 1) ((s.storeBuf (s.outBase.toNat + i) v).setProgress (i + 1))

/-- R142, R143: NO_TREE, before any bit is read. -/
def checkTree (s : State) : Eng Unit :=
  if s.status.treeValid then .ok () s else .raise .noTree 0 s

/-- R141, R145: the load phase. -/
def loadTree (s : State) : Eng Unit :=
  (deserRoot s.dropTree).bind fun _ s => .ok () s.validateTree

/-- R141: HT_LOAD. -/
def execHtLoad (s : State) : Host.Outcome State Fault Refusal :=
  Eng.finish (loadTree s)

/-- R142: HT_DECODE. -/
def execHtDecode (s : State) : Host.Outcome State Fault Refusal :=
  Eng.finish <| (checkTree s).bind fun _ s =>
    (decodeSym s).bind fun v s => .ok () (s.setResult v)

/-- R143: HT_DECODE_N. -/
def execHtDecodeN (s : State) : Host.Outcome State Fault Refusal :=
  Eng.finish <| (checkTree s).bind fun _ s =>
    (checkOut s).bind fun _ s => decodeLoop s.outSize.toNat 0 s

/-- R144: HT_DISCARD. -/
def execHtDiscard (s : State) : Host.Outcome State Fault Refusal :=
  Eng.finish (.ok () s.dropTree)

/-- R145: HT_BLOCK. -/
def execHtBlock (s : State) : Host.Outcome State Fault Refusal :=
  Eng.finish <| (checkOut s).bind fun _ s =>
    (loadTree (s.setCursor ⟨0, 0⟩)).bind fun _ s =>
      (decodeLoop s.outSize.toNat 0 s).bind fun _ s => .ok () s.dropTree

end Sys2Proof.Machine
end

