-- ==== Sys2Proof/Machine/RollingXor.lean ====
section
/-! DEFINITION. The rolling-XOR stream cipher, RX family (43_rolling_xor.md). -/

namespace Sys2Proof.Machine

/-- R180: the two termination modes. -/
inductive RxMode where
  | fixed
  | checksum
deriving DecidableEq, Repr

/-- R180: RX_STOP <- 0, RX_COUNT <- 0. -/
def State.rxStart (s : State) : State :=
  { s with rxCount := 0, status := { s.status with rxStop := false } }

/-- R180: SEED, KEY, CHECKSUM and CHK_TARGET from the seed bytes, once both are read. -/
def State.rxSeeds (s : State) (b1 b2 : Byte) : State :=
  { s with seed := halfOfBytes b2 b1, key := b1 ^^^ b2, checksum := 0, chkTarget := chkTargetOf s.par.chkOrder b1 b2 }

/-- R180: the plaintext p of a ciphertext byte is stored at output position i and subtracted from CHECKSUM. -/
def State.rxPlain (s : State) (i : Nat) (p : Byte) : State :=
  { s.storeBuf (s.outBase.toNat + i) p with checksum := s.checksum - p.zeroExtend 16 }

/-- R180: the key advances after every decoded byte, stop or not; RX_COUNT and PROGRESS count it. -/
def State.rxAdvance (s : State) (n : Nat) : State :=
  { s with key := s.key + s.par.keyStep, rxCount := Word.ofNat n, progress := Word.ofNat n }

/-- R180: RX_STOP <- 1. -/
def State.setRxStop (s : State) : State := { s with status := { s.status with rxStop := true } }

/-- R180: one byte of the cipher phase at position i. -/
def State.rxDecode (s : State) (i : Nat) (c : Byte) : State := (s.rxPlain i (c ^^^ s.key)).rxAdvance (i + 1)

/-- R180: the stop is tested after a byte, in checksum mode only (D14). -/
def rxStops (mode : RxMode) (s : State) : Bool := mode == .checksum && s.checksum == s.chkTarget

/-- R180's cipher phase: at most `n` more bytes from position `i`; the value is the position after the last. -/
def cipherLoop (mode : RxMode) : Nat → Nat → State → Eng Nat
  | 0, i, s => .ok i s
  | n + 1, i, s =>
    (inByte s).bind fun c s =>
      let s := s.rxDecode i c
      if rxStops mode s then .ok (i + 1) s.setRxStop else cipherLoop mode n (i + 1) s

/-- R180's pass-through phase: `n` more bytes from position `i`. -/
def passLoop : Nat → Nat → State → Eng Unit
  | 0, _, s => .ok () s
  | n + 1, i, s =>
    (inByte s).bind fun b s => passLoop n (i + 1) ((s.storeBuf (s.outBase.toNat + i) b).setProgress (i + 1))

/-- R180: RxCore(mode). -/
def rxCore (mode : RxMode) (s : State) : Eng Unit :=
  (inByte s.rxStart).bind fun b1 s =>
    (inByte s).bind fun b2 s =>
      let s := s.rxSeeds b1 b2
      (cipherLoop mode s.rxLimit 0 s).bind fun i s => passLoop (s.outSize.toNat - i) i s

/-- R181: RX_FIXED. -/
def execRxFixed (s : State) : Host.Outcome State Fault Refusal :=
  Eng.finish ((checkOut s).bind fun _ s => rxCore .fixed s)

/-- R182: RX_CHECKSUM. -/
def execRxChecksum (s : State) : Host.Outcome State Fault Refusal :=
  Eng.finish ((checkOut s).bind fun _ s => rxCore .checksum s)

end Sys2Proof.Machine
end

