-- ==== Sys2Proof/Machine/VerticalXor.lean ====
section
/-! DEFINITION. The vertical-XOR delta decoder, VX family (42_vertical_xor.md). -/

namespace Sys2Proof.Machine

/-- R160's inner loop: `n` columns of row `y` from column `x`; row y-1 is already decoded. -/
def vxCells (base w y : Nat) : Nat → Nat → State → State
  | 0, _, s => s
  | n + 1, x, s =>
    vxCells base w y n (x + 1)
      (s.storeBuf (base + y * w + x) (s.readBuf (base + y * w + x) ^^^ s.readBuf (base + (y - 1) * w + x)))

/-- R160's outer loop: `n` rows from row `y`, strictly increasing. -/
def vxRows (base w : Nat) : Nat → Nat → State → State
  | 0, _, s => s
  | n + 1, y, s => vxRows base w n (y + 1) (vxCells base w y w 0 s)

/-- R160: VxorGrid(base, w, h). A grid without columns has no byte to change, whatever its height (R161). -/
def vxorGrid (base w h : Nat) (s : State) : State := if w = 0 then s else vxRows base w (h - 1) 1 s

/-- R161: VX_DECODE. -/
def execVxDecode (s : State) : Host.Outcome State Fault Refusal :=
  Eng.finish <|
    if s.gridFits then .ok () ((vxorGrid s.vxBase.toNat s.vxWidth.toNat s.vxHeight.toNat s).setProgress s.gridSize)
    else .raise .bufRange 0 s

/-- R162's loop from chunk `k`: chunk k is decoded while it lies wholly inside the region. The first argument bounds the
rounds; ⌊L/S⌋ + 1 of them always suffice (R255, log 14). -/
def chunkLoop (base len w h stride : Nat) : Nat → Nat → State → State
  | 0, _, s => s
  | fuel + 1, k, s =>
    if k * stride + w * h ≤ len then
      chunkLoop base len w h stride fuel (k + 1) ((vxorGrid (base + k * stride) w h s).setProgress (k + 1))
    else s

/-- R162: VX_CHUNKS. BUF_RANGE is checked before BAD_PARAM (R207). -/
def execVxChunks (s : State) : Host.Outcome State Fault Refusal :=
  Eng.finish <|
    if s.regionFits then
      if s.strideOk then
        .ok () (chunkLoop s.vxBase.toNat s.vxLen.toNat s.vxWidth.toNat s.vxHeight.toNat s.vxStride.toNat
          (s.vxLen.toNat / s.vxStride.toNat + 1) 0 s)
      else .raise .badParam s.vxStride s
    else .raise .bufRange 0 s

end Sys2Proof.Machine
end

