-- ==== Sys2Proof/Machine/Dispatch.lean ====
section
/-! DEFINITION. The engine's dispatch: one arm per command of 30_encoding.md R92. -/

namespace Sys2Proof.Machine

def exec (i : Instr) (s : State) : Host.Outcome State Fault Refusal :=
  match i with
  | .brInit => Sys2Proof.Machine.execBrInit s
  | .brReadBit => Sys2Proof.Machine.execBrReadBit s
  | .brReadByte => Sys2Proof.Machine.execBrReadByte s
  | .htLoad => Sys2Proof.Machine.execHtLoad s
  | .htDecode => Sys2Proof.Machine.execHtDecode s
  | .htDecodeN => Sys2Proof.Machine.execHtDecodeN s
  | .htDiscard => Sys2Proof.Machine.execHtDiscard s
  | .htBlock => Sys2Proof.Machine.execHtBlock s
  | .vxDecode => Sys2Proof.Machine.execVxDecode s
  | .vxChunks => Sys2Proof.Machine.execVxChunks s
  | .rxFixed => Sys2Proof.Machine.execRxFixed s
  | .rxChecksum => Sys2Proof.Machine.execRxChecksum s

end Sys2Proof.Machine
end

