-- ==== Sys2Proof/Machine/HostPort.lean ====
section
/-! DEFINITION. The host's side: REG, IN and BUF transactions, CMD writes and RST (20_memory.md R61, R64, R71; 60_exceptions.md R200 to R202; 70_reset_and_hazards.md R240 to R242). -/

namespace Sys2Proof.Machine

/-- R64: the bytes of a width. -/
def widthBytes : Width → Nat
  | .byte => 1
  | .half => 2
  | .word => 4

/-- R200: a CMD write of word w. -/
def State.cmdWrite (s : State) (w : Word) : State :=
  if s.status.busy then s.setHaz
  else if s.status.err then s.setHaz
  else match decode w with
    | .ok i => s.accept i
    | .error _ => s.badCmd w

/-- R61: REG is reached only with 32-bit accesses at multiples of 4; a reserved slot holds no register (R46). -/
def selectReg (off : BitVec 8) (wid : Width) : Option Reg :=
  match wid with
  | .word => Reg.ofOffset off
  | .byte | .half => none

/-- A host write to REG. While BUSY = 1 every one is dropped and sets HAZ (R71, logs 8 and 9). -/
def State.hostRegWrite (s : State) (off : BitVec 8) (wid : Width) (v : Word) : State :=
  if s.status.busy then s.setHaz
  else match selectReg off wid with
    | none => s
    | some .cmd => s.cmdWrite v
    | some r => s.writeReg r v

/-- A host read of one register (R71 while BUSY = 1; a read of a register never sets HAZ). -/
def State.hostReadOf (s : State) (r : Reg) : State :=
  if s.status.busy then
    match r with
    | .status => s.answerDraw s.status.busyWord
    | r => if regDrawnWhileBusy r then s.answerDraw id else s.answer (s.readReg r)
  else s.answer (s.readReg r)

/-- A host read of REG; an ignored one returns 0 (R46, R61). -/
def State.hostRegRead (s : State) (off : BitVec 8) (wid : Width) : State :=
  match selectReg off wid with
  | none => s.answer 0
  | some r => s.hostReadOf r

/-- R60: the size of a byte space. -/
def State.spaceCap (s : State) : Space → Nat
  | .inSpace => s.par.inCap
  | .bufSpace => s.par.bufCap

/-- R64: an access is performed only if it is naturally aligned and lies inside the space. -/
def State.accessFits (s : State) (sp : Space) (off : Nat) (wid : Width) : Bool :=
  off % widthBytes wid == 0 && decide (off + widthBytes wid ≤ s.spaceCap sp)

/-- A byte of a space as the host sees it. -/
def State.readSpace (s : State) : Space → Nat → Byte
  | .inSpace, a => s.readIn a
  | .bufSpace, a => s.readBuf a

/-- A host byte write. -/
def State.storeSpace (s : State) (sp : Space) (a : Nat) (v : Byte) : State :=
  match sp with
  | .inSpace => s.storeIn a v
  | .bufSpace => s.storeBuf a v

/-- R64: bytes a to a+n-1, little-endian. -/
def State.readBytes (s : State) (sp : Space) (a : Nat) : Nat → Word
  | 0 => 0
  | n + 1 => (s.readBytes sp (a + 1) n <<< 8) ||| (s.readSpace sp a).zeroExtend 32

/-- R64: byte a+i is bits 8i+7:8i of the value. -/
def State.storeBytes (s : State) (sp : Space) (a : Nat) (v : Word) : Nat → State
  | 0 => s
  | n + 1 => (s.storeSpace sp a (v.extractLsb' 0 8)).storeBytes sp (a + 1) (v >>> 8) n

/-- I2: a draw of the access width. -/
def widthMask : Width → Word
  | .byte => 0xFF
  | .half => 0xFFFF
  | .word => 0xFFFFFFFF

/-- A host read of IN or BUF (R64; R71 while BUSY = 1, log 8). -/
def State.hostMemRead (s : State) (sp : Space) (off : Nat) (wid : Width) : State :=
  if s.status.busy then s.setHaz.answerDraw (fun v => v &&& widthMask wid)
  else if s.accessFits sp off wid then s.answer (s.readBytes sp off (widthBytes wid))
  else s.answer 0

/-- A host write of IN or BUF (R64; R71 while BUSY = 1, log 8). -/
def State.hostMemWrite (s : State) (sp : Space) (off : Nat) (wid : Width) (v : Word) : State :=
  if s.status.busy then s.setHaz
  else if s.accessFits sp off wid then s.storeBytes sp off v (widthBytes wid)
  else s

/-- R240 to R242: RST. The parameters stay; every IN and BUF byte and the arena become unspecified; a running command is
abandoned. What is the host's own (its waiting transactions, its read data) and the schedule stay (log 10). -/
def State.assertReset (s : State) : State :=
  { State.reset with
    par := s.par
    epoch := s.epoch + 1
    draws := s.draws
    hostQ := s.hostQ
    sched := s.sched
    rdata := s.rdata }

/-- R96's `wait`: one read of STATUS; while it gives BUSY = 1 the host keeps waiting. -/
def State.hostWait (s : State) : State :=
  if s.status.busy then { s.hostReadOf .status with hostQ := .waitIdle :: s.hostQ } else s.hostReadOf .status

/-- One act of the host's side. -/
def State.hostAct (s : State) : HostAct → State
  | .regRead off wid => s.hostRegRead off wid
  | .regWrite off wid v => s.hostRegWrite off wid v
  | .memRead sp off wid => s.hostMemRead sp off wid
  | .memWrite sp off wid v => s.hostMemWrite sp off wid v
  | .waitIdle => s.hostWait
  | .rst => s.assertReset

end Sys2Proof.Machine
end

