-- ==== Sys2Proof/Machine/Schedule.lean ====
section
/-! DEFINITION. Which agent moves (20_memory.md R72, R73; 60_exceptions.md R201, R217), and how a command is placed for the next step. -/

namespace Sys2Proof.Machine

/-- What the next step is. -/
inductive Move where
  /-- BUSY = 0 and the host does nothing: the block is idle (R217) -/
  | idle
  /-- the engine executes the latched command, from this state -/
  | engine (s : State)
  /-- the host's side acts, from this state -/
  | host (a : HostAct) (s : State)

/-- While BUSY = 1 the engine's step is always enabled (R201) and a waiting host transaction may come before it (R73): the
schedule says which, and an empty schedule lets the engine go (log 3). While BUSY = 0 only the host can move. -/
def State.nextMove (s : State) : Move :=
  match s.hostQ with
  | [] => if s.status.busy then .engine s else .idle
  | a :: rest =>
    if s.status.busy then
      match s.sched with
      | [] => .engine s
      | .engine :: later => .engine { s with sched := later }
      | .host :: later => .host a { s with sched := later, hostQ := rest }
    else .host a { s with hostQ := rest }

/-- The engine is the next to move: the schedule is consulted only if a host transaction waits. -/
def State.engineFirst (s : State) : State :=
  match s.hostQ with
  | [] => s
  | _ :: _ => { s with sched := .engine :: s.sched }

/-- A command as accepted (R201) from a state in which a CMD write of it is accepted (R200): no fault is pending. -/
def State.latchCommand (s : State) (i : Instr) : State := (s.clearErr.accept i).engineFirst

/-- A CMD write waiting at the host port of an idle block with no fault pending: the next step handles it (R200). -/
def State.offerWord (s : State) (w : Word) : State :=
  { s.clearErr with
    status := { s.clearErr.status with busy := false }
    hostQ := .regWrite (Reg.offset .cmd) .word w :: s.hostQ }

/-- The table word `w` of `nbits` bits where the next step finds it: a valid word as an accepted command, an invalid one
as the CMD write whose rejection the next step is (log 11). -/
def State.placeWord (s : State) (nbits w : Nat) : State :=
  match decodeTableWord nbits w with
  | some i => s.latchCommand i
  | none => s.offerWord (Word.ofNat w)

end Sys2Proof.Machine
end

