-- ==== Sys2Proof/Machine/Step.lean ====
section
/-! DEFINITION. One step of the machine: the engine runs the latched command whole (20_memory.md R73), or the host's side acts once, or the idle block stays as it is (60_exceptions.md R217). -/

namespace Sys2Proof.Machine

def step (s : State) : Host.Outcome State Fault Refusal :=
  match s.nextMove with
  | .idle => .next s
  | .engine s' => exec s'.latch s'
  | .host a s' => .next (s'.hostAct a)

/-- The state with an instruction placed so that the next step runs it (log 11). -/
def State.withFetchWord (s : State) (nbits w : Nat) : State := s.placeWord nbits w

end Sys2Proof.Machine
end

