-- ==== Sys2Proof/Machine/HostProgram.lean ====
section
/-! DEFINITION. The host-program notation and its pseudo-operations, as lists of host acts (30_encoding.md R96, R97). Notation only: the machine calls none of it. -/

namespace Sys2Proof.Machine

/-- `wr NAME, v` -/
def wr (r : Reg) (v : Word) : HostAct := .regWrite r.offset .word v

/-- `rd NAME` -/
def rd (r : Reg) : HostAct := .regRead r.offset .word

/-- `wrb IN[a], v` and `wrb BUF[a], v` -/
def wrb (sp : Space) (a : Nat) (v : Byte) : HostAct := .memWrite sp a .byte (v.zeroExtend 32)

/-- `rdb BUF[a]` (and the same of IN) -/
def rdb (sp : Space) (a : Nat) : HostAct := .memRead sp a .byte

/-- `cmd MNEMONIC` = `wr CMD, zext_32(OPC)` -/
def cmd (i : Instr) : HostAct := wr .cmd (encode i)

/-- `loadin a, [b0, b1, ...]` -/
def loadin : Nat → List Byte → List HostAct
  | _, [] => []
  | a, b :: bs => wrb .inSpace a b :: loadin (a + 1) bs

/-- `huff_block pos, end, base, size` -/
def huffBlock (pos fin base size : Word) : List HostAct :=
  [wr .inPos pos, wr .inEnd fin, wr .outBase base, wr .outSize size, cmd .htBlock, .waitIdle]

/-- `rx pos, end, base, size, enc`; `none` is the source's sentinel −1. -/
def rx (pos fin base size : Word) (enc : Option Word) : List HostAct :=
  [wr .inPos pos, wr .inEnd fin, wr .outBase base, wr .outSize size] ++
  match enc with
  | none => [wr .encLimit 0xFFFFFFFF, cmd .rxChecksum, .waitIdle]
  | some e => [wr .encLimit e, cmd .rxFixed, .waitIdle]

/-- `vx_chunks base, len, w, h, stride` -/
def vxChunksProg (base len w h stride : Word) : List HostAct :=
  [wr .vxBase base, wr .vxLen len, wr .vxWidth w, wr .vxHeight h, wr .vxStride stride, cmd .vxChunks, .waitIdle]

/-- `clear`: DONE, ERR and HAZ. -/
def clear : HostAct := wr .status 0x0000000E

end Sys2Proof.Machine
end

