-- ==== Sys2Proof/Machine/Reference.lean ====
section
/-! DEFINITION. The spec's closed forms and reference objects, in whose terms claims are stated; the machine calls none of them: the bits the reader will deliver (40_bitreader.md R117), trees with their serialized form, codes and arena layout (41_huffman.md R130 to R134, R147), the running XOR and its encoder (42_vertical_xor.md R160, R163), and the cipher's closed form (43_rolling_xor.md R184). -/

namespace Sys2Proof.Machine

/-! ## Bits -/

/-- R66: a byte's bits in the order the reader takes them, bit 7 first. -/
def byteBits (b : Byte) : List Bool :=
  [b.getLsbD 7, b.getLsbD 6, b.getLsbD 5, b.getLsbD 4, b.getLsbD 3, b.getLsbD 2, b.getLsbD 1, b.getLsbD 0]

/-- R33: the number of unconsumed bits, "the bit position of CUR_MASK plus 1, or 0 when CUR_MASK = 0". -/
def maskLeft (m : Byte) : Nat :=
  if m.getLsbD 7 then 8 else if m.getLsbD 6 then 7 else if m.getLsbD 5 then 6 else if m.getLsbD 4 then 5
  else if m.getLsbD 3 then 4 else if m.getLsbD 2 then 3 else if m.getLsbD 1 then 2 else if m.getLsbD 0 then 1 else 0

/-- R33: the legal values of CUR_MASK. -/
def legalMasks : List Byte := [0x00, 0x01, 0x02, 0x04, 0x08, 0x10, 0x20, 0x40, 0x80]

/-- The bits the cursor still holds. -/
def cursorBits (c : Cursor) : List Bool := (byteBits c.byte).drop (8 - maskLeft c.mask)

/-- The bytes of IN from an offset up to EOS_LIMIT. -/
def State.streamBytes (s : State) (p : Nat) : List Byte := (List.range' p (s.eosLimit - p)).map s.readIn

/-- Every bit the reader can still deliver: the cursor's, then those of the bytes up to the effective end. -/
def State.pendingBits (s : State) : List Bool :=
  cursorBits s.cursor ++ (s.streamBytes s.inPos.toNat).flatMap byteBits

/-- R147's pack_msb_first: the bits stand in IN from offset `p`, bit j in bit 7 − (j mod 8) of byte p + ⌊j/8⌋, all below
the effective end. The padding of the last byte may be anything (R117). -/
def State.streamHolds (s : State) (p : Nat) (bs : List Bool) : Prop :=
  p + (bs.length + 7) / 8 ≤ s.eosLimit ∧
  ∀ j b, bs[j]? = some b → (s.readIn (p + j / 8)).getLsbD (7 - j % 8) = b

/-- R117: the state after `n` successful ReadBits. While the cursor holds `n` bits it only moves; else the rest needs
⌈m/8⌉ fetched bytes, m the number of bits beyond the cursor's, and the mask stands after m mod 8 bits of the last. -/
def State.afterBits (s : State) (n : Nat) : State :=
  let m := n - maskLeft s.cursor.mask
  if n ≤ maskLeft s.cursor.mask then s.setCursor ⟨s.cursor.byte, s.cursor.mask >>> n⟩
  else
    { s with
      inPos := s.inPos + Word.ofNat ((m + 7) / 8)
      cursor := ⟨s.readIn (s.inPos.toNat + (m + 7) / 8 - 1), if m % 8 = 0 then 0 else (0x80 : Byte) >>> (m % 8)⟩ }

/-- `n` ReadBit calls one after another, and the bits they return. -/
def readBitSeq : Nat → State → Eng (List Bool)
  | 0, s => .ok [] s
  | n + 1, s => (readBit s).bind fun b s => (readBitSeq n s).bind fun bs s => .ok (b :: bs) s

/-- Eight bits, the first as bit 7 (R113). -/
def byteOfBits (bs : List Bool) : Byte := bs.foldl shiftIn 0

/-! ## Trees -/

/-- A strict binary tree with a payload byte at each leaf (R34). -/
inductive CodeTree where
  | leaf (v : Byte)
  | node (l r : CodeTree)
deriving DecidableEq, Repr

/-- The number of leaves, L in R134. -/
def CodeTree.leaves : CodeTree → Nat
  | .leaf _ => 1
  | .node l r => l.leaves + r.leaves

/-- The number of nodes. -/
def CodeTree.size : CodeTree → Nat
  | .leaf _ => 1
  | .node l r => l.size + r.size + 1

/-- The largest depth of a node, the root at depth 0 (R131). -/
def CodeTree.depth : CodeTree → Nat
  | .leaf _ => 0
  | .node l r => max l.depth r.depth + 1

/-- R130: the grammar of the serialized form; the separator bit may be 0 or 1. -/
inductive CodeTree.Serial : CodeTree → List Bool → Prop where
  | leaf (v : Byte) : CodeTree.Serial (.leaf v) (true :: byteBits v)
  | node {l r : CodeTree} {bl br : List Bool} (sep : Bool) :
      CodeTree.Serial l bl → CodeTree.Serial r br → CodeTree.Serial (.node l r) (false :: (bl ++ sep :: br))

/-- R147: Ser, the serialized form with every separator 0. -/
def CodeTree.ser : CodeTree → List Bool
  | .leaf v => true :: byteBits v
  | .node l r => false :: (l.ser ++ false :: r.ser)

/-- R133: the codes of a tree: 0 for a left edge and 1 for a right edge, down to a leaf. -/
inductive CodeTree.Code : CodeTree → List Bool → Byte → Prop where
  | leaf (v : Byte) : CodeTree.Code (.leaf v) [] v
  | left {l r : CodeTree} {c : List Bool} {v : Byte} : CodeTree.Code l c v → CodeTree.Code (.node l r) (false :: c) v
  | right {l r : CodeTree} {c : List Bool} {v : Byte} : CodeTree.Code r c v → CodeTree.Code (.node l r) (true :: c) v

/-- The codes of a list of symbols, one after another (R147: `code(syms[0]) ++ … ++ code(syms[N-1])`). -/
inductive CodeTree.Codes (t : CodeTree) : List Bool → List Byte → Prop where
  | nil : CodeTree.Codes t [] []
  | cons {c bs : List Bool} {v : Byte} {vs : List Byte} :
      CodeTree.Code t c v → CodeTree.Codes t bs vs → CodeTree.Codes t (c ++ bs) (v :: vs)

/-- R131: the arena of a tree whose root is entry `n`, allocated in pre-order. -/
def CodeTree.layout : CodeTree → Nat → List Node
  | .leaf v, _ => [.leaf v]
  | .node l r, n => .internal (n + 1) (n + 1 + l.size) :: (l.layout (n + 1) ++ r.layout (n + 1 + l.size))

/-- The children of an arena entry. -/
def Node.children : Node → List Nat
  | .internal l r => [l, r]
  | .leaf _ | .pending => []

/-! ## BUF ranges -/

/-- BUF with a list of bytes stored at consecutive offsets. -/
def Memory.writeAll : Memory → Nat → List Byte → Memory
  | m, _, [] => m
  | m, a, v :: vs => Memory.writeAll (Memory.write m a v) (a + 1) vs

/-- Output bytes stored from output position `i`, with PROGRESS counting them (R38, R143, R180). -/
def State.stored (s : State) (i : Nat) (vs : List Byte) : State :=
  { s with
    bufMem := Memory.writeAll s.bufMem (s.outBase.toNat + i) vs
    progress := if vs = [] then s.progress else Word.ofNat (i + vs.length) }

/-! ## Vertical XOR -/

/-- R160: in[0][x] xor … xor in[y][x], the running XOR down a column. -/
def columnXor (g : Nat → Nat → Byte) (x : Nat) : Nat → Byte
  | 0 => g 0 x
  | y + 1 => columnXor g x y ^^^ g (y + 1) x

/-- R163: Enc, the forward difference of a grid. -/
def gridEnc (g : Nat → Nat → Byte) (y x : Nat) : Byte := if y = 0 then g 0 x else g y x ^^^ g (y - 1) x

/-- A grid of BUF, row-major from an offset (R36). -/
def State.gridAt (s : State) (base w y x : Nat) : Byte := s.readBuf (base + y * w + x)

/-- The offsets of a grid. -/
abbrev inGrid (base w h a : Nat) : Prop := base ≤ a ∧ a < base + w * h

/-- R162: the number of chunks that lie wholly inside a region of `len` bytes. -/
def chunkCount (len size stride : Nat) : Nat := if size ≤ len then (len - size) / stride + 1 else 0

/-! ## Rolling XOR -/

/-- R184: key_i = (k0 + i·KEY_STEP) mod 256. -/
def rxKey (k0 step : Byte) (i : Nat) : Byte := k0 + BitVec.ofNat 8 i * step

/-- R184: p_i = c_i xor key_i, for the ciphertext bytes from IN offset `p`. -/
def State.rxPlainAt (s : State) (k0 : Byte) (p i : Nat) : Byte := s.readIn (p + i) ^^^ rxKey k0 s.par.keyStep i

/-- The plaintext bytes of cipher positions 0 to n-1. -/
def State.rxPlains (s : State) (k0 : Byte) (p n : Nat) : List Byte := (List.range n).map (s.rxPlainAt k0 p)

/-- R184: the checksum after a list of plaintext bytes, (−(p_0 + … )) mod 2^16. -/
def checksumOf (ps : List Byte) : Half := -(ps.map (fun p => p.zeroExtend 16)).sum

/-- The bytes of IN from offset `p`, `n` of them. -/
def State.rawBytes (s : State) (p n : Nat) : List Byte := (List.range' p n).map s.readIn

/-- R180: the output of an RX command whose cipher phase decodes `k` of `n` bytes: plaintext, then raw bytes. The seeds
are at IN_POS and IN_POS + 1. -/
def State.rxOutput (s : State) (k n : Nat) : List Byte :=
  let p := s.inPos.toNat
  let k0 := s.readIn p ^^^ s.readIn (p + 1)
  s.rxPlains k0 (p + 2) k ++ s.rawBytes (p + 2 + k) (n - k)

/-- R180, R184: the state once an RX command has output `n` bytes, of which the cipher phase decoded the first `k`; STATUS
is as before. (With no byte output none is counted, and PROGRESS keeps the 0 of acceptance.) -/
def State.rxResult (s : State) (k n : Nat) : State :=
  let p := s.inPos.toNat
  let b1 := s.readIn p
  let b2 := s.readIn (p + 1)
  let k0 := b1 ^^^ b2
  { s with
    inPos := s.inPos + 2 + Word.ofNat n
    seed := b2 ++ b1
    key := rxKey k0 s.par.keyStep k
    checksum := checksumOf (s.rxPlains k0 (p + 2) k)
    chkTarget := match s.par.chkOrder with
      | .seedLe => b2 ++ b1
      | .seedSwapped => b1 ++ b2
    rxCount := Word.ofNat k
    progress := if n = 0 then s.progress else Word.ofNat n
    bufMem := Memory.writeAll s.bufMem s.outBase.toNat (s.rxOutput k n) }

/-- R184: the checksum matches the target after `k` bytes. -/
def State.rxMatches (s : State) (k : Nat) : Prop :=
  let p := s.inPos.toNat
  let b1 := s.readIn p
  let b2 := s.readIn (p + 1)
  checksumOf (s.rxPlains (b1 ^^^ b2) (p + 2) k) =
    match s.par.chkOrder with
    | .seedLe => b2 ++ b1
    | .seedSwapped => b1 ++ b2

end Sys2Proof.Machine
end

