-- ==== Sys2Proof/Safety.lean ====
section
/-! DEFINITION. What counts as a safe state and a safe run, in the terms claims use. -/

namespace Sys2Proof.Machine

/-- The legal combinations of STATUS and FAULT_INFO (10_state.md R26, R45; 60_exceptions.md R203). -/
structure StatusLegal (s : State) : Prop where
  /-- R26: "BUSY = 1 implies DONE = 0 and ERR = 0" -/
  busy : s.status.busy = true → s.status.done = false ∧ s.status.err = false
  /-- R26: "DONE = 1 and ERR = 1 never hold together" -/
  doneErr : ¬(s.status.done = true ∧ s.status.err = true)
  /-- R26, R203: with ERR = 0 there is no cause and no information -/
  noFault : s.status.err = false → s.status.cause = .none ∧ s.faultInfo = 0
  /-- R203: with ERR = 1 a cause is recorded -/
  fault : s.status.err = true → s.status.cause ≠ .none

/-- What the tree registers promise (R34, R35). -/
structure TreeLegal (s : State) : Prop where
  counted : s.arena.length = s.treeNodes.toNat
  bounded : s.treeNodes.toNat ≤ s.par.nodeCap
  valid : s.status.treeValid = true → ∃ t : CodeTree, s.arena = t.layout 0 ∧ t.depth ≤ s.par.depthCap

/-- The byte spaces are in canonical form and inside their sizes (20_memory.md R62, R63). -/
structure MemoryLegal (s : State) : Prop where
  inWf : Memory.wf s.inMem
  inBelow : Memory.below s.inMem s.par.inCap
  bufWf : Memory.wf s.bufMem
  bufBelow : Memory.below s.bufMem s.par.bufCap

/-- The invariant every step keeps. -/
structure Inv (s : State) : Prop where
  params : s.par.valid = true
  status : StatusLegal s
  /-- R33: "No rule can produce any other value" of CUR_MASK -/
  mask : s.cursor.mask ∈ legalMasks
  tree : TreeLegal s
  memory : MemoryLegal s

/-- R204: STATUS after completion. -/
def Status.completed (t : Status) : Status := { t with busy := false, done := true }

/-- R205: STATUS after fault entry. -/
def Status.faulted (t : Status) (c : Cause) : Status :=
  { t with busy := false, done := false, err := true, cause := c }

end Sys2Proof.Machine
end

