-- ==== Sys2Proof/Certificates/Slice0/Obligations.lean ====
section
/-! DEFINITION. The statements for the provers: what the rules of spec/ say the block does, one Prop each. -/

open Sys2Proof Sys2Proof.Machine

/-! ## Encoding -/

/-- R90, R95: a command is four bytes, and its bytes decode to it and leave the rest of the list. -/
def Obligations.EncodedBytesDecodeBack : Prop :=
  ∀ (i : Instr) (rest : List Byte), (encodeBytes i).length = 4 ∧ decodeBytes (encodeBytes i ++ rest) = .ok (i, rest)

/-- R91: a word is valid iff its reserved bits are 0 and its opcode is one of the twelve; a valid word decodes to its
command, from whatever state (no state is read); a CMD write of any other word, with BUSY = 0 and ERR = 0, raises BAD_CMD
with FAULT_INFO = w. -/
def Obligations.WordsDecodeIffValid : Prop :=
  (∀ w : Word, (∃ i, decode w = .ok i) ↔
    w.extractLsb' 8 24 = 0 ∧
      w.extractLsb' 0 8 ∈ [0x01, 0x02, 0x03, 0x10, 0x11, 0x12, 0x13, 0x14, 0x20, 0x21, 0x30, (0x31 : Byte)]) ∧
  (∀ (w : Word) (i : Instr), decode w = .ok i ↔ w = i.opcode.zeroExtend 32) ∧
  (∀ (s : State) (w : Word), s.status.busy = false → s.status.err = false → (∀ i, decode w ≠ .ok i) →
    (s.hostAct (wr .cmd w)).status.err = true ∧ (s.hostAct (wr .cmd w)).status.cause = .badCmd ∧
    (s.hostAct (wr .cmd w)).faultInfo = w)

/-- R92: one word of every family, and the words beside the opcode map. -/
def Obligations.OpcodeWordsAsTabled : Prop :=
  decode 0x00000001 = .ok .brInit ∧ decode 0x00000003 = .ok .brReadByte ∧
  decode 0x00000010 = .ok .htLoad ∧ decode 0x00000014 = .ok .htBlock ∧
  decode 0x00000020 = .ok .vxDecode ∧ decode 0x00000021 = .ok .vxChunks ∧
  decode 0x00000030 = .ok .rxFixed ∧ decode 0x00000031 = .ok .rxChecksum ∧
  decode 0x00000000 = .error (.unknownOpcode 0x00000000) ∧ decode 0x00000004 = .error (.unknownOpcode 0x00000004) ∧
  decode 0x00000101 = .error (.reservedBits 0x00000101)

/-! ## The life of a command -/

/-- R72, R73, R201, R217: which agent moves. An idle block stays as it is; while BUSY = 0 a waiting host act is served;
while BUSY = 1 the engine's step is enabled and runs the latched command, and a waiting host act may come before it. The
schedule and its queue are the model's own (log 3). -/
def Obligations.StepRunsLatchedCommandOrHostAct : Prop :=
  ∀ s : State,
    (s.status.busy = false → s.hostQ = [] → step s = .next s) ∧
    (∀ a rest, s.status.busy = false → s.hostQ = a :: rest → step s = .next ({ s with hostQ := rest }.hostAct a)) ∧
    (s.status.busy = true → s.hostQ = [] ∨ s.sched = [] → step s = exec s.latch s) ∧
    (∀ a rest later, s.status.busy = true → s.hostQ = a :: rest → s.sched = .engine :: later →
      step s = exec s.latch { s with sched := later }) ∧
    (∀ a rest later, s.status.busy = true → s.hostQ = a :: rest → s.sched = .host :: later →
      step s = .next ({ s with hostQ := rest, sched := later }.hostAct a))

/-- R76, R201: a CMD write of a word that decodes to `i`, to a ready block, is followed by the engine's step, which is
`exec i`. -/
def Obligations.CmdWriteThenStepExecutesIt : Prop :=
  ∀ (s : State) (w : Word) (i : Instr), s.status.busy = false → s.status.err = false → s.hostQ = [wr .cmd w] →
    decode w = .ok i →
    ∃ t, step s = .next t ∧
      t = { s with
        hostQ := [], latch := i, progress := 0, status := { s.status with done := false, busy := true } } ∧
      step t = exec i t

/-- The model's own (log 11): an instruction placed by `withFetchWord` is the next thing the step runs, as a command
accepted with no fault pending. -/
def Obligations.PlacedWordRunsNext : Prop :=
  ∀ (s : State) (nbits w : Nat) (i : Instr), decodeTableWord nbits w = some i →
    step (s.withFetchWord nbits w) = exec i { s with
      latch := i, progress := 0, faultInfo := 0,
      status := { s.status with busy := true, done := false, err := false, cause := .none } }

/-- R200, R202: the four ways a CMD write is handled, tested in this order, and all that each changes. -/
def Obligations.CmdWriteHandledOneOfFourWays : Prop :=
  ∀ (s : State) (w : Word),
    (s.status.busy = true → s.hostAct (wr .cmd w) = { s with status := { s.status with haz := true } }) ∧
    (s.status.busy = false → s.status.err = true →
      s.hostAct (wr .cmd w) = { s with status := { s.status with haz := true } }) ∧
    (s.status.busy = false → s.status.err = false → (∀ i, decode w ≠ .ok i) →
      s.hostAct (wr .cmd w) =
        { s with faultInfo := w, status := { s.status with err := true, cause := .badCmd, done := false } }) ∧
    (∀ i, s.status.busy = false → s.status.err = false → decode w = .ok i →
      s.hostAct (wr .cmd w) =
        { s with latch := i, progress := 0, status := { s.status with done := false, busy := true } })

/-- R201, R204, R205: from every legal state the engine's step ends the command, in completion or in fault entry, and
BUSY falls with exactly one of DONE and ERR set. -/
def Obligations.AcceptedCommandEndsInDoneOrErr : Prop :=
  ∀ (s : State) (i : Instr), Inv s → s.status.busy = true →
    ∃ t, exec i s = .next t ∧ t.status.busy = false ∧
      ((t.status.done = true ∧ t.status.err = false ∧ t.status.cause = .none ∧ t.faultInfo = 0) ∨
       (t.status.done = false ∧ t.status.err = true ∧ t.status.cause ≠ .none))

/-- R203's table: the faults each command can raise, the condition under which each is raised as the state after it shows
it, and what FAULT_INFO holds; BAD_CMD comes from a CMD write alone. -/
def Obligations.FaultCausesAsTabled : Prop :=
  let eos (t : State) : Prop := t.status.cause = .eos ∧ t.faultInfo = t.inPos ∧ t.eosLimit ≤ t.inPos.toNat
  let tree (t : State) : Prop :=
    (t.status.cause = .treeOverflow ∧ t.treeNodes.toNat = t.par.nodeCap ∧ t.faultInfo = Word.ofNat t.par.nodeCap) ∨
    (t.status.cause = .depthOverflow ∧ t.faultInfo = Word.ofNat (t.par.depthCap + 1))
  let range (s t : State) : Prop :=
    t.status.cause = .bufRange ∧ s.par.bufCap < s.outBase.toNat + s.outSize.toNat ∧ t.faultInfo = 0
  let noTree (s t : State) : Prop := t.status.cause = .noTree ∧ s.status.treeValid = false ∧ t.faultInfo = 0
  (∀ (s t : State) (i : Instr), s.status.err = false → exec i s = .next t → t.status.err = true →
    match i with
    | .brInit | .htDiscard => False
    | .brReadBit | .brReadByte => eos t
    | .htLoad => eos t ∨ tree t
    | .htDecode => noTree s t ∨ eos t
    | .htDecodeN => noTree s t ∨ range s t ∨ eos t
    | .htBlock => range s t ∨ eos t ∨ tree t
    | .vxDecode =>
      t.status.cause = .bufRange ∧ s.par.bufCap < s.vxBase.toNat + s.vxWidth.toNat * s.vxHeight.toNat ∧ t.faultInfo = 0
    | .vxChunks =>
      (t.status.cause = .bufRange ∧ s.par.bufCap < s.vxBase.toNat + s.vxLen.toNat ∧ t.faultInfo = 0) ∨
      (t.status.cause = .badParam ∧ (s.vxStride = 0 ∨ s.vxStride.toNat < s.vxWidth.toNat * s.vxHeight.toNat) ∧
        t.faultInfo = s.vxStride)
    | .rxFixed | .rxChecksum => range s t ∨ eos t) ∧
  (∀ (s : State) (a : HostAct), s.status.err = false → (s.hostAct a).status.err = true →
    ∃ w, a = wr .cmd w ∧ (∀ i, decode w ≠ .ok i) ∧ (s.hostAct a).status.cause = .badCmd ∧ (s.hostAct a).faultInfo = w) ∧
  (Cause.code .none = 0x00 ∧ Cause.code .badCmd = 0x01 ∧ Cause.code .eos = 0x02 ∧ Cause.code .treeOverflow = 0x03 ∧
    Cause.code .depthOverflow = 0x04 ∧ Cause.code .noTree = 0x05 ∧ Cause.code .bufRange = 0x06 ∧
    Cause.code .badParam = 0x07)

/-- R206, R207: the static checks come first and in order, NO_TREE, BUF_RANGE, BAD_PARAM, and a command that fails one
has no other effect. -/
def Obligations.StaticChecksPrecedeEveryEffect : Prop :=
  ∀ s : State,
    (∀ i ∈ [Instr.htDecode, Instr.htDecodeN], s.status.treeValid = false →
      exec i s = .next { s with faultInfo := 0, status := s.status.faulted .noTree }) ∧
    (s.status.treeValid = true → s.par.bufCap < s.outBase.toNat + s.outSize.toNat →
      exec .htDecodeN s = .next { s with faultInfo := 0, status := s.status.faulted .bufRange }) ∧
    (∀ i ∈ [Instr.htBlock, Instr.rxFixed, Instr.rxChecksum], s.par.bufCap < s.outBase.toNat + s.outSize.toNat →
      exec i s = .next { s with faultInfo := 0, status := s.status.faulted .bufRange }) ∧
    (s.par.bufCap < s.vxBase.toNat + s.vxWidth.toNat * s.vxHeight.toNat →
      exec .vxDecode s = .next { s with faultInfo := 0, status := s.status.faulted .bufRange }) ∧
    (s.par.bufCap < s.vxBase.toNat + s.vxLen.toNat →
      exec .vxChunks s = .next { s with faultInfo := 0, status := s.status.faulted .bufRange }) ∧
    (s.vxBase.toNat + s.vxLen.toNat ≤ s.par.bufCap →
      s.vxStride = 0 ∨ s.vxStride.toNat < s.vxWidth.toNat * s.vxHeight.toNat →
      exec .vxChunks s = .next { s with faultInfo := s.vxStride, status := s.status.faulted .badParam })

/-- R209: the return from a fault, and the W1C of DONE and HAZ: all that a STATUS write does while BUSY = 0. -/
def Obligations.StatusWriteClearsFault : Prop :=
  ∀ (s : State) (v : Word), s.status.busy = false →
    s.hostAct (wr .status v) = { s with
      faultInfo := if v.getLsbD 2 then 0 else s.faultInfo
      status := { s.status with
        err := s.status.err && !v.getLsbD 2
        cause := if v.getLsbD 2 then .none else s.status.cause
        done := s.status.done && !v.getLsbD 1
        haz := s.status.haz && !v.getLsbD 3 } }

/-- R26's "set by" and "cleared by" columns for BUSY, ERR and HAZ, over every step. BUSY rises by acceptance
(R201) and falls by completion or fault (R204, R205); ERR rises by the engine's step of the latched command (R205) or,
with BUSY = 0 and ERR = 0, by a CMD write of a word that decodes to no command (R202); ERR and HAZ fall by their
write-one-to-clear (R209); HAZ rises by an access while BUSY = 1 (R71) or a CMD write while ERR = 1 (R202). -/
def Obligations.StatusFieldsChangeOnlyAsListed : Prop :=
  ∀ s t : State, step s = .next t →
    (s.status.busy = false → t.status.busy = true →
      ∃ w rest, s.hostQ = wr .cmd w :: rest ∧ s.status.err = false ∧ decode w = .ok t.latch) ∧
    (s.status.busy = true → t.status.busy = false →
      (∃ later, exec s.latch { s with sched := later } = .next t ∧ (t.status.done = true ∨ t.status.err = true)) ∨
      (∃ rest, s.hostQ = .rst :: rest)) ∧
    (s.status.err = false → t.status.err = true →
      (s.status.busy = true ∧ ∃ later, exec s.latch { s with sched := later } = .next t) ∨
      (∃ w rest, s.hostQ = wr .cmd w :: rest ∧ s.status.busy = false ∧ ∀ i, decode w ≠ .ok i)) ∧
    (s.status.err = true → t.status.err = false →
      (∃ v rest, s.hostQ = wr .status v :: rest ∧ s.status.busy = false ∧ v.getLsbD 2 = true) ∨
      (∃ rest, s.hostQ = .rst :: rest)) ∧
    (s.status.haz = true → t.status.haz = false →
      (∃ v rest, s.hostQ = wr .status v :: rest ∧ s.status.busy = false ∧ v.getLsbD 3 = true) ∨
      (∃ rest, s.hostQ = .rst :: rest)) ∧
    (s.status.haz = false → t.status.haz = true →
      ∃ a rest, s.hostQ = a :: rest ∧
        (s.status.busy = true ∨ s.status.err = true ∧ ∃ w, a = wr .cmd w))

/-- R212: the interrupt line, in terms of the STATUS and CTRL words the host reads; it is 0 after reset. -/
def Obligations.InterruptLineFollowsStatusAndCtrl : Prop :=
  (∀ s : State, s.irq =
    ((s.readReg .status).getLsbD 1 && (s.readReg .ctrl).getLsbD 0 ||
     (s.readReg .status).getLsbD 2 && (s.readReg .ctrl).getLsbD 1 ||
     (s.readReg .status).getLsbD 3 && (s.readReg .ctrl).getLsbD 2)) ∧
  State.reset.irq = false

/-! ## The host port -/

/-- R23, R25: while BUSY = 0 a host write of an RW register is read back (of CTRL, its three bits), every other register
keeps its value, and no other state changes. -/
def Obligations.RwRegisterReadsLastWrite : Prop :=
  ∀ (s : State) (v : Word), s.status.busy = false →
    (∀ r ∈ [Reg.inPos, .inEnd, .outBase, .outSize, .encLimit, .vxBase, .vxWidth, .vxHeight, .vxStride, .vxLen],
      (s.hostAct (wr r v)).readReg r = v ∧ (∀ r', r' ≠ r → (s.hostAct (wr r v)).readReg r' = s.readReg r')) ∧
    (s.hostAct (wr .ctrl v)).readReg .ctrl = v &&& 7 ∧
    (∀ r', r' ≠ .ctrl → (s.hostAct (wr .ctrl v)).readReg r' = s.readReg r') ∧
    (∀ r, s.hostAct (rd r) = { s with rdata := s.readReg r }) ∧
    (∀ r ∈ [Reg.ctrl, .inPos, .inEnd, .outBase, .outSize, .encLimit, .vxBase, .vxWidth, .vxHeight, .vxStride, .vxLen],
      let t := s.hostAct (wr r v)
      t = { s with
        ctrl := t.ctrl, inPos := t.inPos, inEnd := t.inEnd, outBase := t.outBase, outSize := t.outSize
        encLimit := t.encLimit, vxBase := t.vxBase, vxWidth := t.vxWidth, vxHeight := t.vxHeight
        vxStride := t.vxStride, vxLen := t.vxLen })

/-- R23, R27, R37 to R45: a host write of an RO register has no effect, and CMD reads 0. -/
def Obligations.RoRegistersIgnoreWrites : Prop :=
  ∀ (s : State) (v : Word), s.status.busy = false →
    (∀ r ∈ [Reg.id, .result, .progress, .cursor, .key, .checksum, .chkTarget, .seed, .rxCount, .treeNodes, .faultInfo,
        .bufCapR, .inCapR, .nodeCapR, .depthCapR], s.hostAct (wr r v) = s) ∧
    s.readReg .cmd = 0

/-- R46: reserved offsets and reserved bits read 0 and ignore writes; a write to a reserved offset while BUSY = 1 sets
HAZ. -/
def Obligations.ReservedSlotsAndBitsReadZero : Prop :=
  ∀ (s : State) (v : Word),
    (∀ off : BitVec 8, 0x70 ≤ off.toNat → off.toNat % 4 = 0 →
      s.hostAct (.regRead off .word) = { s with rdata := 0 } ∧
      s.hostAct (.regWrite off .word v) =
        if s.status.busy then { s with status := { s.status with haz := true } } else s) ∧
    (s.readReg .ctrl &&& 0xFFFFFFF8 = 0 ∧ s.readReg .status &&& 0xFFFF00C0 = 0 ∧ s.readReg .result &&& 0xFFFFFF00 = 0 ∧
      s.readReg .cursor &&& 0xFFFF0000 = 0 ∧ s.readReg .key &&& 0xFFFFFF00 = 0 ∧
      s.readReg .checksum &&& 0xFFFF0000 = 0 ∧ s.readReg .chkTarget &&& 0xFFFF0000 = 0 ∧
      s.readReg .seed &&& 0xFFFF0000 = 0) ∧
    (s.hostAct (wr .ctrl v) = s.hostAct (wr .ctrl (v &&& 7)) ∧
      s.hostAct (wr .status v) = s.hostAct (wr .status (v &&& 0xE)) ∧
      (s.status.busy = false → ∀ r ∈ [Reg.result, .cursor, .key, .checksum, .chkTarget, .seed], s.hostAct (wr r v) = s))

/-- R24, R44: ID and the capability registers are constants: the same before and after every step, whatever BUSY is, and
equal to the parameters. -/
def Obligations.IdAndCapabilitiesAreConstant : Prop :=
  (∀ s : State, s.readReg .id = 0x574C0001 ∧
    ∀ r ∈ [Reg.id, .bufCapR, .inCapR, .nodeCapR, .depthCapR], s.hostAct (rd r) = { s with rdata := s.readReg r }) ∧
  (∀ s : State, s.par.valid = true →
    (s.readReg .bufCapR).toNat = s.par.bufCap ∧ (s.readReg .inCapR).toNat = s.par.inCap ∧
    (s.readReg .nodeCapR).toNat = s.par.nodeCap ∧ (s.readReg .depthCapR).toNat = s.par.depthCap) ∧
  (∀ s t : State, step s = .next t →
    t.par = s.par ∧ ∀ r ∈ [Reg.id, .bufCapR, .inCapR, .nodeCapR, .depthCapR], t.readReg r = s.readReg r)

/-- R61, R68: while BUSY = 0 a REG access that is not 32 bits wide, or not at a multiple of 4, is ignored: a write has no
effect and a read returns 0. A performed read changes nothing but the host's read data. -/
def Obligations.IllFormedRegAccessIsIgnored : Prop :=
  ∀ (s : State) (off : BitVec 8) (wid : Width) (v : Word), s.status.busy = false → wid ≠ .word ∨ off.toNat % 4 ≠ 0 →
    s.hostAct (.regWrite off wid v) = s ∧ s.hostAct (.regRead off wid) = { s with rdata := 0 }

/-- R64: a host write of IN or BUF while BUSY = 0: performed iff aligned and inside the space; then byte a+i becomes bits
8i+7:8i of the value and nothing else changes; else it has no effect. -/
def Obligations.HostMemoryWriteIsLittleEndian : Prop :=
  ∀ (s : State) (sp : Space) (a : Nat) (wid : Width) (v : Word), s.status.busy = false →
    let n := widthBytes wid
    let cap := match sp with | .inSpace => s.par.inCap | .bufSpace => s.par.bufCap
    let t := s.hostAct (.memWrite sp a wid v)
    (a % n = 0 → a + n ≤ cap →
      t = { s with inMem := t.inMem, bufMem := t.bufMem } ∧
      ∀ sp' x, t.readSpace sp' x = if sp' = sp ∧ a ≤ x ∧ x < a + n then wordByte v (x - a) else s.readSpace sp' x) ∧
    (a % n ≠ 0 ∨ cap < a + n → t = s)

/-- R64, R67: a host read of IN or BUF while BUSY = 0: performed iff aligned and inside the space; the value is the bytes
of the corresponding byte reads, little-endian, and no state changes but the host's read data; else it returns 0. -/
def Obligations.HostMemoryReadIsLittleEndian : Prop :=
  ∀ (s : State) (sp : Space) (a : Nat) (wid : Width), s.status.busy = false →
    let n := widthBytes wid
    let cap := match sp with | .inSpace => s.par.inCap | .bufSpace => s.par.bufCap
    let t := s.hostAct (.memRead sp a wid)
    t = { s with rdata := t.rdata } ∧
    (a % n = 0 → a + n ≤ cap →
      (∀ i, i < n → wordByte t.rdata i = s.readSpace sp (a + i) ∧
        (s.hostAct (rdb sp (a + i))).rdata = (s.readSpace sp (a + i)).zeroExtend 32) ∧
      t.rdata.toNat < 256 ^ n) ∧
    (a % n ≠ 0 ∨ cap < a + n → t.rdata = 0)

/-- R71: the lock-out while BUSY = 1, access by access. A read whose value is unspecified gets the next free value, so
that nothing is known of it (log 4). -/
def Obligations.BusyLocksOutHostAccesses : Prop :=
  ∀ s : State, s.status.busy = true →
    let hazard : State := { s with status := { s.status with haz := true } }
    (∀ off wid v, s.hostAct (.regWrite off wid v) = hazard) ∧
    (∀ sp a wid v, s.hostAct (.memWrite sp a wid v) = hazard) ∧
    (∀ sp a wid, s.hostAct (.memRead sp a wid) =
      { hazard with rdata := Config.freeWord s.draws &&& widthMask wid, draws := s.draws + 1 }) ∧
    (∃ v, s.hostAct (rd .status) = { s with rdata := v, draws := s.draws + 1 } ∧
      v.getLsbD 0 = true ∧ v.getLsbD 1 = false ∧ v.getLsbD 2 = false ∧ v.getLsbD 3 = s.status.haz ∧
      v.getLsbD 4 = (Config.freeWord s.draws).getLsbD 4 ∧ v.getLsbD 5 = (Config.freeWord s.draws).getLsbD 5 ∧
      v.extractLsb' 6 26 = 0) ∧
    (∀ r ∈ [Reg.id, .ctrl, .bufCapR, .inCapR, .nodeCapR, .depthCapR, .inEnd, .outBase, .outSize, .encLimit, .vxBase,
        .vxWidth, .vxHeight, .vxStride, .vxLen], s.hostAct (rd r) = { s with rdata := s.readReg r }) ∧
    (∀ r ∈ [Reg.inPos, .result, .progress, .cursor, .key, .checksum, .chkTarget, .seed, .rxCount, .treeNodes, .faultInfo],
      s.hostAct (rd r) = { s with rdata := Config.freeWord s.draws, draws := s.draws + 1 })

/-- R96: `wait` reads STATUS, and is served again while that read gives BUSY = 1 (log 3). -/
def Obligations.WaitEndsOnlyWhenIdle : Prop :=
  ∀ s : State,
    (s.status.busy = true →
      s.hostAct .waitIdle = { s.hostAct (rd .status) with hostQ := .waitIdle :: s.hostQ } ∧
      (s.hostAct .waitIdle).rdata.getLsbD 0 = true) ∧
    (s.status.busy = false →
      s.hostAct .waitIdle = s.hostAct (rd .status) ∧ (s.hostAct .waitIdle).rdata.getLsbD 0 = false)

/-! ## Reset -/

/-- R240: RST, asserted in any state and also while BUSY = 1 (R242), leaves every register at its reset value and the
interrupt line low. -/
def Obligations.ResetLeavesTabledValues : Prop :=
  (∀ s : State, let t := s.hostAct .rst
    t.readReg .id = 0x574C0001 ∧
    (∀ r ∈ [Reg.bufCapR, .inCapR, .nodeCapR, .depthCapR], t.readReg r = s.readReg r) ∧
    (∀ r ∈ [Reg.ctrl, .status, .inPos, .inEnd, .outBase, .outSize, .encLimit, .vxBase, .vxWidth, .vxHeight, .vxStride,
      .vxLen, .result, .progress, .rxCount, .treeNodes, .faultInfo, .cursor, .key, .checksum, .chkTarget, .seed],
      t.readReg r = 0) ∧
    t.irq = false ∧ t.status.busy = false) ∧
  (∀ r ∈ [Reg.ctrl, .status, .inPos, .inEnd, .outBase, .outSize, .encLimit, .vxBase, .vxWidth, .vxHeight, .vxStride,
    .vxLen, .result, .progress, .rxCount, .treeNodes, .faultInfo, .cursor, .key, .checksum, .chkTarget, .seed],
    State.reset.readReg r = 0)

/-- The model's form of R241's and R242's "unspecified" (logs 5 and 10): after RST, asserted in any state, every byte of IN
and BUF is a free value of a new epoch, whatever it was before; and a host write of BUF makes its byte a known one again. -/
def Obligations.ResetForgetsStorage : Prop :=
  ∀ (s : State) (a : Nat) (v : Byte), let t := s.hostAct .rst
    (t.readIn a = Config.unwrittenIn (s.epoch + 1) a ∧ t.readBuf a = Config.unwrittenBuf (s.epoch + 1) a) ∧
    (a < s.par.bufCap → (t.hostAct (wrb .bufSpace a v)).readBuf a = v ∧
      ∀ a', a' ≠ a → (t.hostAct (wrb .bufSpace a v)).readBuf a' = Config.unwrittenBuf (s.epoch + 1) a')

/-! ## Invariants and frames of the whole machine -/

/-- The state after reset is legal. -/
def Obligations.ResetStateIsLegal : Prop := Inv State.reset

/-- R26, R33, R34, R35, R62, R63: every step from a legal state leads to a legal state. -/
def Obligations.EveryStepKeepsLegality : Prop :=
  ∀ s t : State, Inv s → step s = .next t → Inv t

/-- R203: no step of a legal state stops: each fault the block has is a next state. -/
def Obligations.NoLegalStateStops : Prop :=
  ∀ s : State, Inv s → ∃ t, step s = .next t ∧ Inv t

/-- R34: in a legal state with TREE_VALID = 1 the arena is a strict binary tree rooted at entry 0: every entry is Leaf or
Internal, children stand at greater indices inside the arena, and every index other than 0 is a child exactly once. -/
def Obligations.ValidTreeIsStrictlyBinary : Prop :=
  ∀ s : State, Inv s → s.status.treeValid = true →
    s.arena.length = s.treeNodes.toNat ∧ 0 < s.arena.length ∧ s.arena.length ≤ s.par.nodeCap ∧
    (∀ n : Nat, s.arena[n]? ≠ some Node.pending) ∧
    (∀ n l r : Nat, s.arena[n]? = some (Node.internal l r) → n < l ∧ n < r ∧ l < s.arena.length ∧ r < s.arena.length) ∧
    (∀ k, 0 < k → k < s.arena.length → (s.arena.flatMap Node.children).count k = 1)

/-- R93's written column: for every command and whether it completes or faults, the registers and spaces it may write;
everything else is as before. STATUS fields and FAULT_INFO are those of R204 and R205. -/
def Obligations.CommandsWriteOnlyTheirOwnState : Prop :=
  ∀ (s t : State) (i : Instr), exec i s = .next t →
    let ended : Status :=
      { t.status with haz := s.status.haz, treeValid := s.status.treeValid, rxStop := s.status.rxStop }
    match i with
    | .brInit => t = { s with status := ended, cursor := t.cursor }
    | .brReadBit | .brReadByte | .htDecode =>
      t = { s with
        status := ended, faultInfo := t.faultInfo, cursor := t.cursor, inPos := t.inPos, result := t.result }
    | .htLoad =>
      t = { s with
        status := { ended with treeValid := t.status.treeValid }, faultInfo := t.faultInfo, cursor := t.cursor
        inPos := t.inPos, arena := t.arena, treeNodes := t.treeNodes }
    | .htDecodeN =>
      t = { s with
        status := ended, faultInfo := t.faultInfo, cursor := t.cursor, inPos := t.inPos, bufMem := t.bufMem
        progress := t.progress }
    | .htDiscard =>
      t = { s with
        status := { ended with treeValid := t.status.treeValid }, arena := t.arena, treeNodes := t.treeNodes }
    | .htBlock =>
      t = { s with
        status := { ended with treeValid := t.status.treeValid }, faultInfo := t.faultInfo, cursor := t.cursor
        inPos := t.inPos, arena := t.arena, treeNodes := t.treeNodes, bufMem := t.bufMem, progress := t.progress }
    | .vxDecode | .vxChunks =>
      t = { s with status := ended, faultInfo := t.faultInfo, bufMem := t.bufMem, progress := t.progress }
    | .rxFixed | .rxChecksum =>
      t = { s with
        status := { ended with rxStop := t.status.rxStop }, faultInfo := t.faultInfo, inPos := t.inPos, seed := t.seed
        key := t.key, checksum := t.checksum, chkTarget := t.chkTarget, rxCount := t.rxCount, bufMem := t.bufMem
        progress := t.progress }

/-- R38, R63, R79: a command that stores to BUF changes no byte outside its range, also when it faults; the four output
commands change none at or above OUT_BASE + PROGRESS (PROGRESS being 0 from acceptance). -/
def Obligations.CommandsStoreOnlyInTheirRange : Prop :=
  ∀ s t : State,
    (∀ i ∈ [Instr.htDecodeN, .htBlock, .rxFixed, .rxChecksum], exec i s = .next t →
      (∀ a, a < s.outBase.toNat ∨ s.outBase.toNat + s.outSize.toNat ≤ a → t.readBuf a = s.readBuf a) ∧
      (s.progress = 0 → t.progress.toNat ≤ s.outSize.toNat ∧
        ∀ a, s.outBase.toNat + t.progress.toNat ≤ a → t.readBuf a = s.readBuf a)) ∧
    (exec .vxDecode s = .next t →
      ∀ a, ¬inGrid s.vxBase.toNat s.vxWidth.toNat s.vxHeight.toNat a → t.readBuf a = s.readBuf a) ∧
    (exec .vxChunks s = .next t →
      ∀ a, a < s.vxBase.toNat ∨ s.vxBase.toNat + s.vxLen.toNat ≤ a → t.readBuf a = s.readBuf a)

/-- R21, R28, R111: IN_POS only rises during a command, and never beyond the effective end of the input. -/
def Obligations.InputPositionRisesToTheEnd : Prop :=
  ∀ (s t : State) (i : Instr), exec i s = .next t →
    s.inPos.toNat ≤ t.inPos.toNat ∧ (t.inPos = s.inPos ∨ t.inPos.toNat ≤ min s.inEnd.toNat s.par.inCap)

/-! ## The bit reader -/

/-- R114: BR_INIT clears the cursor and changes nothing else but STATUS. -/
def Obligations.BrInitClearsCursor : Prop :=
  decode 0x00000001 = .ok .brInit ∧
  ∀ s : State, exec .brInit s = .next { s with cursor := ⟨0x00, 0x00⟩, status := s.status.completed }

/-- R112, R115: BR_READ_BIT takes the bit at the mask, or, with the mask exhausted, bit 7 of the byte at IN_POS; it raises
EOS, with CURSOR, IN_POS and RESULT unchanged, iff the mask is exhausted and the input is. -/
def Obligations.BrReadBitTakesNextBit : Prop :=
  decode 0x00000002 = .ok .brReadBit ∧
  ∀ s : State,
    (s.cursor.mask ≠ 0 → exec .brReadBit s = .next { s with
      result := if s.cursor.byte &&& s.cursor.mask = 0 then 0 else 1
      cursor := ⟨s.cursor.byte, s.cursor.mask >>> 1⟩
      status := s.status.completed }) ∧
    (s.cursor.mask = 0 → s.inPos.toNat < s.eosLimit → exec .brReadBit s = .next { s with
      result := if (s.readIn s.inPos.toNat).getLsbD 7 then 1 else 0
      cursor := ⟨s.readIn s.inPos.toNat, 0x40⟩
      inPos := s.inPos + 1
      status := s.status.completed }) ∧
    (s.cursor.mask = 0 → s.eosLimit ≤ s.inPos.toNat → exec .brReadBit s = .next { s with
      faultInfo := s.inPos
      status := s.status.faulted .eos })

/-- R113, R116: BR_READ_BYTE returns the next eight bits, the first most significant, wherever the cursor stands: the
cursor's byte if it is whole, the byte at IN_POS if it is exhausted, else the last k bits of the cursor's byte followed by
the first 8 − k bits of the byte at IN_POS. -/
def Obligations.BrReadByteAssemblesEightBits : Prop :=
  decode 0x00000003 = .ok .brReadByte ∧
  ∀ s : State,
    (s.cursor.mask = 0x80 → exec .brReadByte s = .next { s with
      result := s.cursor.byte, cursor := ⟨s.cursor.byte, 0x00⟩, status := s.status.completed }) ∧
    (s.cursor.mask = 0 → s.inPos.toNat < s.eosLimit → exec .brReadByte s = .next { s with
      result := s.readIn s.inPos.toNat
      cursor := ⟨s.readIn s.inPos.toNat, 0x00⟩
      inPos := s.inPos + 1
      status := s.status.completed }) ∧
    (∀ k, 1 ≤ k → k ≤ 7 → s.cursor.mask = (0x80 : Byte) >>> (8 - k) → s.inPos.toNat < s.eosLimit →
      exec .brReadByte s = .next { s with
        result := (s.cursor.byte <<< (8 - k)) ||| (s.readIn s.inPos.toNat >>> k)
        cursor := ⟨s.readIn s.inPos.toNat, (0x80 : Byte) >>> (8 - k)⟩
        inPos := s.inPos + 1
        status := s.status.completed }) ∧
    (s.cursor.mask ∈ legalMasks → s.cursor.mask ≠ 0x80 → s.eosLimit ≤ s.inPos.toNat →
      exec .brReadByte s = .next { s with
        cursor := ⟨s.cursor.byte, 0x00⟩
        faultInfo := s.inPos
        status := s.status.faulted .eos })

/-- R117: n BR_READ_BITs from an exhausted cursor, with their bytes before the effective end, return bits 7 to 0 of IN[p],
then of IN[p+1], and so on, and leave IN_POS and CUR_MASK as stated. `σ k` is the state after k of them. -/
def Obligations.BitReadsConsumeBytesMsbFirst : Prop :=
  ∀ (n : Nat) (σ : Nat → State),
    (∀ k, k < n → exec .brReadBit (σ k) = .next (σ (k + 1))) →
    (σ 0).cursor.mask = 0 → (σ 0).inPos.toNat + (n + 7) / 8 ≤ (σ 0).eosLimit →
    let p := (σ 0).inPos.toNat
    (∀ k, k < n → (σ (k + 1)).result = if ((σ 0).readIn (p + k / 8)).getLsbD (7 - k % 8) then 1 else 0) ∧
    (σ n).inPos.toNat = p + (n + 7) / 8 ∧
    (σ n).cursor.mask = if n % 8 = 0 then 0x00 else (0x80 : Byte) >>> (n % 8)

/-! ## Huffman -/

/-- R130, R131, R134, R141: HT_LOAD on a stream that starts with the serialized form of a tree, of any separator bits:
the arena holds the tree in pre-order, TREE_NODES counts its 2L − 1 nodes, and exactly 11L − 2 bits are consumed. -/
def Obligations.HtLoadBuildsSerializedTree : Prop :=
  ∀ (s : State) (T : CodeTree) (bs rest : List Bool), s.par.valid = true → s.cursor.mask ∈ legalMasks →
    CodeTree.Serial T bs → s.pendingBits = bs ++ rest → T.depth ≤ s.par.depthCap → T.size ≤ s.par.nodeCap →
    bs.length = 11 * T.leaves - 2 ∧ T.size = 2 * T.leaves - 1 ∧ T.size - T.leaves = T.leaves - 1 ∧
    exec .htLoad s = .next { s.afterBits bs.length with
      arena := T.layout 0
      treeNodes := Word.ofNat T.size
      status := { s.status.completed with treeValid := true } } ∧
    (s.afterBits bs.length).pendingBits = rest

/-- R141: HT_LOAD either loads the tree whose serialized form starts the pending bits, or faults with TREE_VALID = 0,
TREE_NODES counting the nodes allocated, and the cursor and IN_POS at the bits consumed. -/
def Obligations.HtLoadLoadsOrFaults : Prop :=
  ∀ s : State, Inv s → ∃ t, exec .htLoad s = .next t ∧
    ((t.status.err = s.status.err ∧ t.status.done = true ∧ t.status.treeValid = true ∧
      ∃ (T : CodeTree) (bs : List Bool), CodeTree.Serial T bs ∧ s.pendingBits = bs ++ t.pendingBits ∧ t.arena = T.layout 0 ∧
        T.depth ≤ s.par.depthCap ∧ T.size ≤ s.par.nodeCap) ∨
     (t.status.err = true ∧ t.status.done = false ∧ t.status.treeValid = false ∧ t.arena.length = t.treeNodes.toNat ∧
      ∃ m, m ≤ s.pendingBits.length ∧ t.inPos = (s.afterBits m).inPos ∧ t.cursor = (s.afterBits m).cursor ∧
        ((t.status.cause = .eos ∧ m = s.pendingBits.length ∧ t.faultInfo = t.inPos) ∨
         (t.status.cause = .treeOverflow ∧ t.treeNodes.toNat = s.par.nodeCap ∧
          t.faultInfo = Word.ofNat s.par.nodeCap) ∨
         (t.status.cause = .depthOverflow ∧ t.faultInfo = Word.ofNat (s.par.depthCap + 1)))))

/-- R131, R207: a run of zero bits, each an Internal node one level deeper, ends in DEPTH_OVERFLOW before the bit of the
node that is too deep, or, with NODE_CAP = DEPTH_CAP, in TREE_OVERFLOW after the bit of the node that has no entry. -/
def Obligations.ZeroRunOverflowsAtTheGuards : Prop :=
  ∀ (s : State) (rest : List Bool), s.par.valid = true → s.cursor.mask ∈ legalMasks →
    s.pendingBits = List.replicate (s.par.depthCap + 1) false ++ rest →
    ∃ t, exec .htLoad s = .next t ∧ t.status.err = true ∧ t.status.treeValid = false ∧ t.pendingBits = rest ∧
      (s.par.depthCap < s.par.nodeCap → t.status.cause = .depthOverflow ∧ t.faultInfo = Word.ofNat (s.par.depthCap + 1) ∧
        t.treeNodes = Word.ofNat (s.par.depthCap + 1)) ∧
      (s.par.depthCap = s.par.nodeCap → t.status.cause = .treeOverflow ∧ t.faultInfo = Word.ofNat s.par.nodeCap ∧
        t.treeNodes = Word.ofNat s.par.nodeCap)

/-- R133: the codes of a tree form a complete prefix code: every infinite bit string starts with exactly one code. -/
def Obligations.CodesFormCompletePrefixCode : Prop :=
  ∀ (T : CodeTree) (f : Nat → Bool),
    ∃ c v, CodeTree.Code T c v ∧ c = (List.range c.length).map f ∧ c.length ≤ T.depth ∧
      ∀ c' v', CodeTree.Code T c' v' → c' = (List.range c'.length).map f → c' = c ∧ v' = v

/-- R132, R142: HT_DECODE with a tree loaded and the pending bits starting with a code returns the code's leaf and
consumes exactly the code; if the input ends inside every code it raises EOS with the bits consumed and RESULT unchanged;
with no tree it raises NO_TREE before any bit. -/
def Obligations.HtDecodeReturnsTheCodesLeaf : Prop :=
  decode 0x00000011 = .ok .htDecode ∧
  ∀ s : State,
    (s.status.treeValid = false →
      exec .htDecode s = .next { s with faultInfo := 0, status := s.status.faulted .noTree }) ∧
    (∀ T : CodeTree, s.status.treeValid = true → s.arena = T.layout 0 → s.treeNodes.toNat = T.size →
      s.cursor.mask ∈ legalMasks →
      (∀ c v rest, CodeTree.Code T c v → s.pendingBits = c ++ rest →
        exec .htDecode s = .next { s.afterBits c.length with result := v, status := s.status.completed } ∧
        (s.afterBits c.length).pendingBits = rest) ∧
      (∀ c v b ext, CodeTree.Code T c v → c = s.pendingBits ++ b :: ext →
        ∃ t, exec .htDecode s = .next t ∧ t = { s.afterBits s.pendingBits.length with
          faultInfo := t.inPos, status := s.status.faulted .eos } ∧ t.eosLimit ≤ t.inPos.toNat))

/-- R132, R133: HT_DECODE completes in every legal state that holds a tree and has as many bits pending as the tree is
deep. -/
def Obligations.HtDecodeCompletesOnEnoughBits : Prop :=
  ∀ s : State, Inv s → s.status.treeValid = true → s.treeNodes.toNat ≤ s.pendingBits.length + 1 →
    ∃ t, exec .htDecode s = .next t ∧ t.status = s.status.completed

/-- R143: HT_DECODE_N with a tree loaded, its output range in BUF, and the pending bits starting with the codes of
OUT_SIZE symbols stores exactly the symbols, consumes exactly the codes, and keeps the tree. -/
def Obligations.HtDecodeNStoresTheSymbols : Prop :=
  ∀ (s : State) (T : CodeTree) (bs rest : List Bool) (vs : List Byte), s.status.treeValid = true → s.arena = T.layout 0 →
    s.treeNodes.toNat = T.size → s.cursor.mask ∈ legalMasks → s.outBase.toNat + s.outSize.toNat ≤ s.par.bufCap →
    CodeTree.Codes T bs vs → vs.length = s.outSize.toNat → s.pendingBits = bs ++ rest →
    ∃ t, exec .htDecodeN s = .next t ∧
      t = { s.afterBits bs.length with
        progress := if s.outSize = 0 then s.progress else s.outSize
        bufMem := t.bufMem
        status := s.status.completed } ∧
      (∀ a, t.readBuf a = if s.outBase.toNat ≤ a then vs.getD (a - s.outBase.toNat) (s.readBuf a) else s.readBuf a) ∧
      t.pendingBits = rest

/-- R143, R145: EOS inside a symbol. The symbols decoded so far are stored and counted, the one being decoded is not, and
every bit is consumed. -/
def Obligations.HtDecodeNStoresSymbolsBeforeEos : Prop :=
  ∀ (s : State) (T : CodeTree) (bs tail : List Bool) (vs : List Byte), s.status.treeValid = true → s.arena = T.layout 0 →
    s.treeNodes.toNat = T.size → s.cursor.mask ∈ legalMasks → s.outBase.toNat + s.outSize.toNat ≤ s.par.bufCap →
    CodeTree.Codes T bs vs → vs.length < s.outSize.toNat → s.pendingBits = bs ++ tail →
    (∃ c v b ext, CodeTree.Code T c v ∧ c = tail ++ b :: ext) →
    ∃ t, exec .htDecodeN s = .next t ∧
      t = { s.afterBits s.pendingBits.length with
        progress := if vs = [] then s.progress else Word.ofNat vs.length
        bufMem := t.bufMem
        faultInfo := t.inPos
        status := s.status.faulted .eos } ∧
      (∀ a, t.readBuf a = if s.outBase.toNat ≤ a then vs.getD (a - s.outBase.toNat) (s.readBuf a) else s.readBuf a)

/-- R144: HT_DISCARD. The arena's entries become unspecified. -/
def Obligations.HtDiscardDropsTheTree : Prop :=
  decode 0x00000013 = .ok .htDiscard ∧
  ∀ s : State, ∃ t, exec .htDiscard s = .next t ∧ t = { s with
    arena := t.arena, treeNodes := 0, status := { s.status.completed with treeValid := false } }

/-- R146, R147: the round trip. Whatever tree and symbols: HT_BLOCK on the packed bits of the serialized tree (any
separator bits) followed by the symbols' codes yields exactly the symbols; it consumes T = (11L − 2) + Σ c_i bits and
leaves IN_POS at p + ⌈T/8⌉; the tree is discarded. The cursor on entry does not matter. -/
def Obligations.HtBlockDecodesThePackedStream : Prop :=
  ∀ (s : State) (T : CodeTree) (ts cs : List Bool) (vs : List Byte), s.par.valid = true →
    s.outBase.toNat + s.outSize.toNat ≤ s.par.bufCap → T.depth ≤ s.par.depthCap → T.size ≤ s.par.nodeCap →
    CodeTree.Serial T ts → CodeTree.Codes T cs vs → vs.length = s.outSize.toNat → s.streamHolds s.inPos.toNat (ts ++ cs) →
    let bits := 11 * T.leaves - 2 + cs.length
    ∃ t, exec .htBlock s = .next t ∧
      t = { s with
        inPos := s.inPos + Word.ofNat ((bits + 7) / 8)
        cursor := ⟨s.readIn (s.inPos.toNat + (bits + 7) / 8 - 1), if bits % 8 = 0 then 0x00 else (0x80 : Byte) >>> (bits % 8)⟩
        arena := t.arena
        treeNodes := 0
        progress := if s.outSize = 0 then s.progress else s.outSize
        bufMem := t.bufMem
        status := { s.status.completed with treeValid := false } } ∧
      t.inPos.toNat = s.inPos.toNat + (bits + 7) / 8 ∧
      (∀ a, t.readBuf a = if s.outBase.toNat ≤ a then vs.getD (a - s.outBase.toNat) (s.readBuf a) else s.readBuf a)

/-- R49, R145: HT_BLOCK is BR_INIT, HT_LOAD, HT_DECODE_N and HT_DISCARD, one after another, up to the first fault, once
its output range is in BUF. -/
def Obligations.HtBlockIsThePrimitiveSequence : Prop :=
  ∀ s s1 s2 : State, s.status.err = false → s.outBase.toNat + s.outSize.toNat ≤ s.par.bufCap →
    exec .brInit s = .next s1 → exec .htLoad s1 = .next s2 →
    (s2.status.err = true → exec .htBlock s = .next s2) ∧
    (∀ s3, s2.status.err = false → exec .htDecodeN s2 = .next s3 →
      (s3.status.err = true → s3.status.treeValid = true ∧ exec .htBlock s = .next s3) ∧
      (∀ s4, s3.status.err = false → exec .htDiscard s3 = .next s4 → exec .htBlock s = .next s4))

/-! ## Vertical XOR -/

/-- R160, R161: VX_DECODE replaces every byte of the grid by the running XOR down its column, leaves every other byte, and
counts w·h bytes; if the grid ends beyond BUF_CAP it raises BUF_RANGE and changes no byte. -/
def Obligations.VxDecodeIsRunningXor : Prop :=
  decode 0x00000020 = .ok .vxDecode ∧
  ∀ s : State,
    let b := s.vxBase.toNat
    let w := s.vxWidth.toNat
    let h := s.vxHeight.toNat
    (s.par.bufCap < b + w * h →
      exec .vxDecode s = .next { s with faultInfo := 0, status := s.status.faulted .bufRange }) ∧
    (b + w * h ≤ s.par.bufCap →
      ∃ t, exec .vxDecode s = .next t ∧
        t = { s with bufMem := t.bufMem, progress := Word.ofNat (w * h), status := s.status.completed } ∧
        (∀ y x, y < h → x < w →
          t.readBuf (b + y * w + x) = ((List.range (y + 1)).map fun j => s.readBuf (b + j * w + x)).foldl (· ^^^ ·) 0) ∧
        (∀ a, ¬inGrid b w h a → t.readBuf a = s.readBuf a))

/-- R163: VX_DECODE inverts the encoder in both orders; and it is not its own inverse: 01 00 00 decodes to 01 01 01, and
that to 01 00 01. -/
def Obligations.VxDecodeInvertsTheEncoder : Prop :=
  (∀ (s t : State) (g : Nat → Nat → Byte),
    let b := s.vxBase.toNat
    let w := s.vxWidth.toNat
    let h := s.vxHeight.toNat
    b + w * h ≤ s.par.bufCap → exec .vxDecode s = .next t →
    ((∀ y x, y < h → x < w → s.gridAt b w y x = gridEnc g y x) → ∀ y x, y < h → x < w → t.gridAt b w y x = g y x) ∧
    (∀ y x, y < h → x < w → gridEnc (t.gridAt b w) y x = s.gridAt b w y x)) ∧
  (∀ s t u : State, s.vxWidth = 1 → s.vxHeight = 3 → s.vxBase.toNat + 3 ≤ s.par.bufCap →
    s.readBuf s.vxBase.toNat = 0x01 → s.readBuf (s.vxBase.toNat + 1) = 0x00 → s.readBuf (s.vxBase.toNat + 2) = 0x00 →
    exec .vxDecode s = .next t → exec .vxDecode t = .next u →
    (t.readBuf s.vxBase.toNat = 0x01 ∧ t.readBuf (s.vxBase.toNat + 1) = 0x01 ∧ t.readBuf (s.vxBase.toNat + 2) = 0x01) ∧
    (u.readBuf s.vxBase.toNat = 0x01 ∧ u.readBuf (s.vxBase.toNat + 1) = 0x00 ∧ u.readBuf (s.vxBase.toNat + 2) = 0x01))

/-- R162: VX_CHUNKS decodes the grid of every chunk that lies wholly inside the region, counts the chunks, and leaves
every other byte: the gaps, the tail and everything outside the region. A region that ends beyond BUF_CAP raises
BUF_RANGE, and then a stride of 0 or smaller than a chunk BAD_PARAM, with no byte changed. -/
def Obligations.VxChunksDecodesEveryWholeChunk : Prop :=
  decode 0x00000021 = .ok .vxChunks ∧
  ∀ s : State,
    let b := s.vxBase.toNat
    let w := s.vxWidth.toNat
    let h := s.vxHeight.toNat
    let S := s.vxStride.toNat
    let n := chunkCount s.vxLen.toNat (w * h) S
    (s.par.bufCap < b + s.vxLen.toNat →
      exec .vxChunks s = .next { s with faultInfo := 0, status := s.status.faulted .bufRange }) ∧
    (b + s.vxLen.toNat ≤ s.par.bufCap → s.vxStride = 0 ∨ S < w * h →
      exec .vxChunks s = .next { s with faultInfo := s.vxStride, status := s.status.faulted .badParam }) ∧
    (b + s.vxLen.toNat ≤ s.par.bufCap → s.vxStride ≠ 0 → w * h ≤ S →
      ∃ t, exec .vxChunks s = .next t ∧
        t = { s with
          bufMem := t.bufMem
          progress := if n = 0 then s.progress else Word.ofNat n
          status := s.status.completed } ∧
        (∀ k y x, k < n → y < h → x < w →
          t.gridAt (b + k * S) w y x =
            ((List.range (y + 1)).map fun j => s.gridAt (b + k * S) w j x).foldl (· ^^^ ·) 0) ∧
        (∀ a, (∀ k, k < n → ¬inGrid (b + k * S) w h a) → t.readBuf a = s.readBuf a))

/-- R164: VX_CHUNKS gives the same BUF as VX_DECODE run on each chunk b + k·S in increasing k (`σ k` is the state after k
of them), and the result of each chunk depends only on that chunk's bytes. -/
def Obligations.VxChunksIsVxDecodePerChunk : Prop :=
  ∀ s t : State,
    let b := s.vxBase.toNat
    let w := s.vxWidth.toNat
    let h := s.vxHeight.toNat
    let S := s.vxStride.toNat
    let n := chunkCount s.vxLen.toNat (w * h) S
    s.par.valid = true → b + s.vxLen.toNat ≤ s.par.bufCap → s.vxStride ≠ 0 → w * h ≤ S → exec .vxChunks s = .next t →
    (∀ σ : Nat → State, σ 0 = s →
      (∀ k, k < n → exec .vxDecode { σ k with vxBase := s.vxBase + Word.ofNat (k * S) } = .next (σ (k + 1))) →
      t.bufMem = (σ n).bufMem) ∧
    (∀ (s' t' : State) (k : Nat), s'.par = s.par → s'.vxBase = s.vxBase → s'.vxLen = s.vxLen → s'.vxWidth = s.vxWidth →
      s'.vxHeight = s.vxHeight → s'.vxStride = s.vxStride → exec .vxChunks s' = .next t' → k < n →
      (∀ a, inGrid (b + k * S) w h a → s'.readBuf a = s.readBuf a) →
      ∀ a, inGrid (b + k * S) w h a → t'.readBuf a = t.readBuf a)

/-! ## Rolling XOR -/

/-- R180, R181, R184: RX_FIXED with its output range in BUF and 2 + OUT_SIZE bytes before the effective end: the registers
of the closed form with the decode limit k = min(ENC_LIMIT, OUT_SIZE), and BUF byte by byte. -/
def Obligations.RxFixedDecodesTheLimit : Prop :=
  ∀ s : State, s.outBase.toNat + s.outSize.toNat ≤ s.par.bufCap → s.inPos.toNat + 2 + s.outSize.toNat ≤ s.eosLimit →
    let p := s.inPos.toNat
    let k := min s.encLimit.toNat s.outSize.toNat
    let k0 := s.readIn p ^^^ s.readIn (p + 1)
    ∃ t, exec .rxFixed s = .next t ∧
      t = { s.rxResult k s.outSize.toNat with status := { s.status.completed with rxStop := false } } ∧
      (∀ i, i < k → t.readBuf (s.outBase.toNat + i) = s.readIn (p + 2 + i) ^^^ (k0 + BitVec.ofNat 8 i * s.par.keyStep)) ∧
      (∀ i, k ≤ i → i < s.outSize.toNat → t.readBuf (s.outBase.toNat + i) = s.readIn (p + 2 + i)) ∧
      (∀ a, a < s.outBase.toNat ∨ s.outBase.toNat + s.outSize.toNat ≤ a → t.readBuf a = s.readBuf a)

/-- R180, R182, R184: RX_CHECKSUM under the same conditions: it decodes K bytes, K the least number from 1 to the limit at
which the checksum equals the target, with RX_STOP = 1; or, if there is none, as many as RX_FIXED with RX_STOP = 0. The
rest is passed through, and IN_POS has moved by 2 + OUT_SIZE either way. -/
def Obligations.RxChecksumStopsAtFirstMatch : Prop :=
  ∀ s : State, s.outBase.toNat + s.outSize.toNat ≤ s.par.bufCap → s.inPos.toNat + 2 + s.outSize.toNat ≤ s.eosLimit →
    let p := s.inPos.toNat
    let lim := min s.encLimit.toNat s.outSize.toNat
    let k0 := s.readIn p ^^^ s.readIn (p + 1)
    let result (k : Nat) (stop : Bool) : Prop :=
      ∃ t, exec .rxChecksum s = .next t ∧
        t = { s.rxResult k s.outSize.toNat with status := { s.status.completed with rxStop := stop } } ∧
        (∀ i, i < k → t.readBuf (s.outBase.toNat + i) = s.readIn (p + 2 + i) ^^^ (k0 + BitVec.ofNat 8 i * s.par.keyStep)) ∧
        (∀ i, k ≤ i → i < s.outSize.toNat → t.readBuf (s.outBase.toNat + i) = s.readIn (p + 2 + i)) ∧
        (∀ a, a < s.outBase.toNat ∨ s.outBase.toNat + s.outSize.toNat ≤ a → t.readBuf a = s.readBuf a)
    (∀ K, 1 ≤ K → K ≤ lim → s.rxMatches K → (∀ j, 1 ≤ j → j < K → ¬s.rxMatches j) → result K true) ∧
    ((∀ j, 1 ≤ j → j ≤ lim → ¬s.rxMatches j) → result lim false)

/-- R180, R181, R182: an RX command that runs out of input raises EOS at the effective end (or where IN_POS stood beyond
it). With fewer than two bytes the seed registers keep their values and no byte is stored; otherwise the m bytes after the
seeds are stored and counted, the first k of them deciphered: k is as many as the limit and the input allow, or, for
RX_CHECKSUM, the least number at which the checksum equals the target, with RX_STOP = 1. -/
def Obligations.RxRaisesEosAtTheEnd : Prop :=
  ∀ (s : State) (i : Instr) (k : Nat) (stop : Bool), s.outBase.toNat + s.outSize.toNat ≤ s.par.bufCap →
    s.eosLimit < s.inPos.toNat + 2 + s.outSize.toNat →
    let p := s.inPos.toNat
    let k0 := s.readIn p ^^^ s.readIn (p + 1)
    let m := s.eosLimit - (p + 2)
    let most := min (min s.encLimit.toNat s.outSize.toNat) m
    (i = .rxFixed ∧ k = most ∧ stop = false) ∨
      (i = .rxChecksum ∧ k = most ∧ stop = false ∧ ∀ j, 1 ≤ j → j ≤ k → ¬s.rxMatches j) ∨
      (i = .rxChecksum ∧ 1 ≤ k ∧ k ≤ most ∧ stop = true ∧ s.rxMatches k ∧ ∀ j, 1 ≤ j → j < k → ¬s.rxMatches j) →
    ∃ t, exec i s = .next t ∧ t.inPos.toNat = max p s.eosLimit ∧ t.faultInfo = t.inPos ∧
      t.status = { s.status.faulted .eos with rxStop := stop } ∧
      (s.eosLimit < p + 2 →
        t = { s with inPos := t.inPos, rxCount := 0, status := t.status, faultInfo := t.faultInfo }) ∧
      (p + 2 ≤ s.eosLimit → t = { s.rxResult k m with status := t.status, faultInfo := t.faultInfo } ∧
        (∀ j, j < k → t.readBuf (s.outBase.toNat + j) = s.readIn (p + 2 + j) ^^^ (k0 + BitVec.ofNat 8 j * s.par.keyStep)) ∧
        (∀ j, k ≤ j → j < m → t.readBuf (s.outBase.toNat + j) = s.readIn (p + 2 + j)) ∧
        (∀ a, a < s.outBase.toNat ∨ s.outBase.toNat + m ≤ a → t.readBuf a = s.readBuf a))

/-- R184: the cipher is deterministic and depends only on the seed and ciphertext bytes: two states with the same
operands and the same 2 + OUT_SIZE bytes of IN end with the same output, registers and outcome, whatever else they hold
(R253: the cursor among it). -/
def Obligations.RxDependsOnlyOnItsBytes : Prop :=
  ∀ (i : Instr) (s s' t t' : State), i = .rxFixed ∨ i = .rxChecksum → s'.par = s.par → s'.inPos = s.inPos →
    s'.inEnd = s.inEnd → s'.outBase = s.outBase → s'.outSize = s.outSize → s'.encLimit = s.encLimit →
    s.outBase.toNat + s.outSize.toNat ≤ s.par.bufCap → s.inPos.toNat + 2 + s.outSize.toNat ≤ s.eosLimit →
    (∀ a, s.inPos.toNat ≤ a → a < s.inPos.toNat + 2 + s.outSize.toNat → s'.readIn a = s.readIn a) →
    exec i s = .next t → exec i s' = .next t' →
    t'.inPos = t.inPos ∧ t'.seed = t.seed ∧ t'.key = t.key ∧ t'.checksum = t.checksum ∧ t'.chkTarget = t.chkTarget ∧
    t'.rxCount = t.rxCount ∧ t'.status.rxStop = t.status.rxStop ∧
    (∀ j, j < s.outSize.toNat → t'.readBuf (s.outBase.toNat + j) = t.readBuf (s.outBase.toNat + j))
end

