-- ==== Sys2Proof/Laws/State.lean ====
section
/-! SUPPORT. What each named update leaves in each field of the state: one lemma per field per update, all by rfl. -/

namespace Sys2Proof.Machine

variable (s : State)

/-! ### storeBuf -/

@[simp] theorem storeBuf_par (a : Nat) (v : Byte) : (s.storeBuf a v).par = s.par := rfl
@[simp] theorem storeBuf_ctrl (a : Nat) (v : Byte) : (s.storeBuf a v).ctrl = s.ctrl := rfl
@[simp] theorem storeBuf_status (a : Nat) (v : Byte) : (s.storeBuf a v).status = s.status := rfl
@[simp] theorem storeBuf_latch (a : Nat) (v : Byte) : (s.storeBuf a v).latch = s.latch := rfl
@[simp] theorem storeBuf_inPos (a : Nat) (v : Byte) : (s.storeBuf a v).inPos = s.inPos := rfl
@[simp] theorem storeBuf_inEnd (a : Nat) (v : Byte) : (s.storeBuf a v).inEnd = s.inEnd := rfl
@[simp] theorem storeBuf_outBase (a : Nat) (v : Byte) : (s.storeBuf a v).outBase = s.outBase := rfl
@[simp] theorem storeBuf_outSize (a : Nat) (v : Byte) : (s.storeBuf a v).outSize = s.outSize := rfl
@[simp] theorem storeBuf_encLimit (a : Nat) (v : Byte) : (s.storeBuf a v).encLimit = s.encLimit := rfl
@[simp] theorem storeBuf_vxBase (a : Nat) (v : Byte) : (s.storeBuf a v).vxBase = s.vxBase := rfl
@[simp] theorem storeBuf_vxWidth (a : Nat) (v : Byte) : (s.storeBuf a v).vxWidth = s.vxWidth := rfl
@[simp] theorem storeBuf_vxHeight (a : Nat) (v : Byte) : (s.storeBuf a v).vxHeight = s.vxHeight := rfl
@[simp] theorem storeBuf_vxStride (a : Nat) (v : Byte) : (s.storeBuf a v).vxStride = s.vxStride := rfl
@[simp] theorem storeBuf_vxLen (a : Nat) (v : Byte) : (s.storeBuf a v).vxLen = s.vxLen := rfl
@[simp] theorem storeBuf_result (a : Nat) (v : Byte) : (s.storeBuf a v).result = s.result := rfl
@[simp] theorem storeBuf_progress (a : Nat) (v : Byte) : (s.storeBuf a v).progress = s.progress := rfl
@[simp] theorem storeBuf_cursor (a : Nat) (v : Byte) : (s.storeBuf a v).cursor = s.cursor := rfl
@[simp] theorem storeBuf_key (a : Nat) (v : Byte) : (s.storeBuf a v).key = s.key := rfl
@[simp] theorem storeBuf_checksum (a : Nat) (v : Byte) : (s.storeBuf a v).checksum = s.checksum := rfl
@[simp] theorem storeBuf_chkTarget (a : Nat) (v : Byte) : (s.storeBuf a v).chkTarget = s.chkTarget := rfl
@[simp] theorem storeBuf_seed (a : Nat) (v : Byte) : (s.storeBuf a v).seed = s.seed := rfl
@[simp] theorem storeBuf_rxCount (a : Nat) (v : Byte) : (s.storeBuf a v).rxCount = s.rxCount := rfl
@[simp] theorem storeBuf_treeNodes (a : Nat) (v : Byte) : (s.storeBuf a v).treeNodes = s.treeNodes := rfl
@[simp] theorem storeBuf_faultInfo (a : Nat) (v : Byte) : (s.storeBuf a v).faultInfo = s.faultInfo := rfl
@[simp] theorem storeBuf_arena (a : Nat) (v : Byte) : (s.storeBuf a v).arena = s.arena := rfl
@[simp] theorem storeBuf_inMem (a : Nat) (v : Byte) : (s.storeBuf a v).inMem = s.inMem := rfl
@[simp] theorem storeBuf_bufMem (a : Nat) (v : Byte) : (s.storeBuf a v).bufMem = Memory.write s.bufMem a v := rfl
@[simp] theorem storeBuf_epoch (a : Nat) (v : Byte) : (s.storeBuf a v).epoch = s.epoch := rfl
@[simp] theorem storeBuf_draws (a : Nat) (v : Byte) : (s.storeBuf a v).draws = s.draws := rfl
@[simp] theorem storeBuf_hostQ (a : Nat) (v : Byte) : (s.storeBuf a v).hostQ = s.hostQ := rfl
@[simp] theorem storeBuf_sched (a : Nat) (v : Byte) : (s.storeBuf a v).sched = s.sched := rfl
@[simp] theorem storeBuf_rdata (a : Nat) (v : Byte) : (s.storeBuf a v).rdata = s.rdata := rfl

/-! ### storeIn -/

@[simp] theorem storeIn_par (a : Nat) (v : Byte) : (s.storeIn a v).par = s.par := rfl
@[simp] theorem storeIn_ctrl (a : Nat) (v : Byte) : (s.storeIn a v).ctrl = s.ctrl := rfl
@[simp] theorem storeIn_status (a : Nat) (v : Byte) : (s.storeIn a v).status = s.status := rfl
@[simp] theorem storeIn_latch (a : Nat) (v : Byte) : (s.storeIn a v).latch = s.latch := rfl
@[simp] theorem storeIn_inPos (a : Nat) (v : Byte) : (s.storeIn a v).inPos = s.inPos := rfl
@[simp] theorem storeIn_inEnd (a : Nat) (v : Byte) : (s.storeIn a v).inEnd = s.inEnd := rfl
@[simp] theorem storeIn_outBase (a : Nat) (v : Byte) : (s.storeIn a v).outBase = s.outBase := rfl
@[simp] theorem storeIn_outSize (a : Nat) (v : Byte) : (s.storeIn a v).outSize = s.outSize := rfl
@[simp] theorem storeIn_encLimit (a : Nat) (v : Byte) : (s.storeIn a v).encLimit = s.encLimit := rfl
@[simp] theorem storeIn_vxBase (a : Nat) (v : Byte) : (s.storeIn a v).vxBase = s.vxBase := rfl
@[simp] theorem storeIn_vxWidth (a : Nat) (v : Byte) : (s.storeIn a v).vxWidth = s.vxWidth := rfl
@[simp] theorem storeIn_vxHeight (a : Nat) (v : Byte) : (s.storeIn a v).vxHeight = s.vxHeight := rfl
@[simp] theorem storeIn_vxStride (a : Nat) (v : Byte) : (s.storeIn a v).vxStride = s.vxStride := rfl
@[simp] theorem storeIn_vxLen (a : Nat) (v : Byte) : (s.storeIn a v).vxLen = s.vxLen := rfl
@[simp] theorem storeIn_result (a : Nat) (v : Byte) : (s.storeIn a v).result = s.result := rfl
@[simp] theorem storeIn_progress (a : Nat) (v : Byte) : (s.storeIn a v).progress = s.progress := rfl
@[simp] theorem storeIn_cursor (a : Nat) (v : Byte) : (s.storeIn a v).cursor = s.cursor := rfl
@[simp] theorem storeIn_key (a : Nat) (v : Byte) : (s.storeIn a v).key = s.key := rfl
@[simp] theorem storeIn_checksum (a : Nat) (v : Byte) : (s.storeIn a v).checksum = s.checksum := rfl
@[simp] theorem storeIn_chkTarget (a : Nat) (v : Byte) : (s.storeIn a v).chkTarget = s.chkTarget := rfl
@[simp] theorem storeIn_seed (a : Nat) (v : Byte) : (s.storeIn a v).seed = s.seed := rfl
@[simp] theorem storeIn_rxCount (a : Nat) (v : Byte) : (s.storeIn a v).rxCount = s.rxCount := rfl
@[simp] theorem storeIn_treeNodes (a : Nat) (v : Byte) : (s.storeIn a v).treeNodes = s.treeNodes := rfl
@[simp] theorem storeIn_faultInfo (a : Nat) (v : Byte) : (s.storeIn a v).faultInfo = s.faultInfo := rfl
@[simp] theorem storeIn_arena (a : Nat) (v : Byte) : (s.storeIn a v).arena = s.arena := rfl
@[simp] theorem storeIn_inMem (a : Nat) (v : Byte) : (s.storeIn a v).inMem = Memory.write s.inMem a v := rfl
@[simp] theorem storeIn_bufMem (a : Nat) (v : Byte) : (s.storeIn a v).bufMem = s.bufMem := rfl
@[simp] theorem storeIn_epoch (a : Nat) (v : Byte) : (s.storeIn a v).epoch = s.epoch := rfl
@[simp] theorem storeIn_draws (a : Nat) (v : Byte) : (s.storeIn a v).draws = s.draws := rfl
@[simp] theorem storeIn_hostQ (a : Nat) (v : Byte) : (s.storeIn a v).hostQ = s.hostQ := rfl
@[simp] theorem storeIn_sched (a : Nat) (v : Byte) : (s.storeIn a v).sched = s.sched := rfl
@[simp] theorem storeIn_rdata (a : Nat) (v : Byte) : (s.storeIn a v).rdata = s.rdata := rfl

/-! ### setCursor -/

@[simp] theorem setCursor_par (c : Cursor) : (s.setCursor c).par = s.par := rfl
@[simp] theorem setCursor_ctrl (c : Cursor) : (s.setCursor c).ctrl = s.ctrl := rfl
@[simp] theorem setCursor_status (c : Cursor) : (s.setCursor c).status = s.status := rfl
@[simp] theorem setCursor_latch (c : Cursor) : (s.setCursor c).latch = s.latch := rfl
@[simp] theorem setCursor_inPos (c : Cursor) : (s.setCursor c).inPos = s.inPos := rfl
@[simp] theorem setCursor_inEnd (c : Cursor) : (s.setCursor c).inEnd = s.inEnd := rfl
@[simp] theorem setCursor_outBase (c : Cursor) : (s.setCursor c).outBase = s.outBase := rfl
@[simp] theorem setCursor_outSize (c : Cursor) : (s.setCursor c).outSize = s.outSize := rfl
@[simp] theorem setCursor_encLimit (c : Cursor) : (s.setCursor c).encLimit = s.encLimit := rfl
@[simp] theorem setCursor_vxBase (c : Cursor) : (s.setCursor c).vxBase = s.vxBase := rfl
@[simp] theorem setCursor_vxWidth (c : Cursor) : (s.setCursor c).vxWidth = s.vxWidth := rfl
@[simp] theorem setCursor_vxHeight (c : Cursor) : (s.setCursor c).vxHeight = s.vxHeight := rfl
@[simp] theorem setCursor_vxStride (c : Cursor) : (s.setCursor c).vxStride = s.vxStride := rfl
@[simp] theorem setCursor_vxLen (c : Cursor) : (s.setCursor c).vxLen = s.vxLen := rfl
@[simp] theorem setCursor_result (c : Cursor) : (s.setCursor c).result = s.result := rfl
@[simp] theorem setCursor_progress (c : Cursor) : (s.setCursor c).progress = s.progress := rfl
@[simp] theorem setCursor_cursor (c : Cursor) : (s.setCursor c).cursor = c := rfl
@[simp] theorem setCursor_key (c : Cursor) : (s.setCursor c).key = s.key := rfl
@[simp] theorem setCursor_checksum (c : Cursor) : (s.setCursor c).checksum = s.checksum := rfl
@[simp] theorem setCursor_chkTarget (c : Cursor) : (s.setCursor c).chkTarget = s.chkTarget := rfl
@[simp] theorem setCursor_seed (c : Cursor) : (s.setCursor c).seed = s.seed := rfl
@[simp] theorem setCursor_rxCount (c : Cursor) : (s.setCursor c).rxCount = s.rxCount := rfl
@[simp] theorem setCursor_treeNodes (c : Cursor) : (s.setCursor c).treeNodes = s.treeNodes := rfl
@[simp] theorem setCursor_faultInfo (c : Cursor) : (s.setCursor c).faultInfo = s.faultInfo := rfl
@[simp] theorem setCursor_arena (c : Cursor) : (s.setCursor c).arena = s.arena := rfl
@[simp] theorem setCursor_inMem (c : Cursor) : (s.setCursor c).inMem = s.inMem := rfl
@[simp] theorem setCursor_bufMem (c : Cursor) : (s.setCursor c).bufMem = s.bufMem := rfl
@[simp] theorem setCursor_epoch (c : Cursor) : (s.setCursor c).epoch = s.epoch := rfl
@[simp] theorem setCursor_draws (c : Cursor) : (s.setCursor c).draws = s.draws := rfl
@[simp] theorem setCursor_hostQ (c : Cursor) : (s.setCursor c).hostQ = s.hostQ := rfl
@[simp] theorem setCursor_sched (c : Cursor) : (s.setCursor c).sched = s.sched := rfl
@[simp] theorem setCursor_rdata (c : Cursor) : (s.setCursor c).rdata = s.rdata := rfl

/-! ### advanceIn -/

@[simp] theorem advanceIn_par : s.advanceIn.par = s.par := rfl
@[simp] theorem advanceIn_ctrl : s.advanceIn.ctrl = s.ctrl := rfl
@[simp] theorem advanceIn_status : s.advanceIn.status = s.status := rfl
@[simp] theorem advanceIn_latch : s.advanceIn.latch = s.latch := rfl
@[simp] theorem advanceIn_inPos : s.advanceIn.inPos = s.inPos + 1 := rfl
@[simp] theorem advanceIn_inEnd : s.advanceIn.inEnd = s.inEnd := rfl
@[simp] theorem advanceIn_outBase : s.advanceIn.outBase = s.outBase := rfl
@[simp] theorem advanceIn_outSize : s.advanceIn.outSize = s.outSize := rfl
@[simp] theorem advanceIn_encLimit : s.advanceIn.encLimit = s.encLimit := rfl
@[simp] theorem advanceIn_vxBase : s.advanceIn.vxBase = s.vxBase := rfl
@[simp] theorem advanceIn_vxWidth : s.advanceIn.vxWidth = s.vxWidth := rfl
@[simp] theorem advanceIn_vxHeight : s.advanceIn.vxHeight = s.vxHeight := rfl
@[simp] theorem advanceIn_vxStride : s.advanceIn.vxStride = s.vxStride := rfl
@[simp] theorem advanceIn_vxLen : s.advanceIn.vxLen = s.vxLen := rfl
@[simp] theorem advanceIn_result : s.advanceIn.result = s.result := rfl
@[simp] theorem advanceIn_progress : s.advanceIn.progress = s.progress := rfl
@[simp] theorem advanceIn_cursor : s.advanceIn.cursor = s.cursor := rfl
@[simp] theorem advanceIn_key : s.advanceIn.key = s.key := rfl
@[simp] theorem advanceIn_checksum : s.advanceIn.checksum = s.checksum := rfl
@[simp] theorem advanceIn_chkTarget : s.advanceIn.chkTarget = s.chkTarget := rfl
@[simp] theorem advanceIn_seed : s.advanceIn.seed = s.seed := rfl
@[simp] theorem advanceIn_rxCount : s.advanceIn.rxCount = s.rxCount := rfl
@[simp] theorem advanceIn_treeNodes : s.advanceIn.treeNodes = s.treeNodes := rfl
@[simp] theorem advanceIn_faultInfo : s.advanceIn.faultInfo = s.faultInfo := rfl
@[simp] theorem advanceIn_arena : s.advanceIn.arena = s.arena := rfl
@[simp] theorem advanceIn_inMem : s.advanceIn.inMem = s.inMem := rfl
@[simp] theorem advanceIn_bufMem : s.advanceIn.bufMem = s.bufMem := rfl
@[simp] theorem advanceIn_epoch : s.advanceIn.epoch = s.epoch := rfl
@[simp] theorem advanceIn_draws : s.advanceIn.draws = s.draws := rfl
@[simp] theorem advanceIn_hostQ : s.advanceIn.hostQ = s.hostQ := rfl
@[simp] theorem advanceIn_sched : s.advanceIn.sched = s.sched := rfl
@[simp] theorem advanceIn_rdata : s.advanceIn.rdata = s.rdata := rfl

/-! ### setResult -/

@[simp] theorem setResult_par (v : Byte) : (s.setResult v).par = s.par := rfl
@[simp] theorem setResult_ctrl (v : Byte) : (s.setResult v).ctrl = s.ctrl := rfl
@[simp] theorem setResult_status (v : Byte) : (s.setResult v).status = s.status := rfl
@[simp] theorem setResult_latch (v : Byte) : (s.setResult v).latch = s.latch := rfl
@[simp] theorem setResult_inPos (v : Byte) : (s.setResult v).inPos = s.inPos := rfl
@[simp] theorem setResult_inEnd (v : Byte) : (s.setResult v).inEnd = s.inEnd := rfl
@[simp] theorem setResult_outBase (v : Byte) : (s.setResult v).outBase = s.outBase := rfl
@[simp] theorem setResult_outSize (v : Byte) : (s.setResult v).outSize = s.outSize := rfl
@[simp] theorem setResult_encLimit (v : Byte) : (s.setResult v).encLimit = s.encLimit := rfl
@[simp] theorem setResult_vxBase (v : Byte) : (s.setResult v).vxBase = s.vxBase := rfl
@[simp] theorem setResult_vxWidth (v : Byte) : (s.setResult v).vxWidth = s.vxWidth := rfl
@[simp] theorem setResult_vxHeight (v : Byte) : (s.setResult v).vxHeight = s.vxHeight := rfl
@[simp] theorem setResult_vxStride (v : Byte) : (s.setResult v).vxStride = s.vxStride := rfl
@[simp] theorem setResult_vxLen (v : Byte) : (s.setResult v).vxLen = s.vxLen := rfl
@[simp] theorem setResult_result (v : Byte) : (s.setResult v).result = v := rfl
@[simp] theorem setResult_progress (v : Byte) : (s.setResult v).progress = s.progress := rfl
@[simp] theorem setResult_cursor (v : Byte) : (s.setResult v).cursor = s.cursor := rfl
@[simp] theorem setResult_key (v : Byte) : (s.setResult v).key = s.key := rfl
@[simp] theorem setResult_checksum (v : Byte) : (s.setResult v).checksum = s.checksum := rfl
@[simp] theorem setResult_chkTarget (v : Byte) : (s.setResult v).chkTarget = s.chkTarget := rfl
@[simp] theorem setResult_seed (v : Byte) : (s.setResult v).seed = s.seed := rfl
@[simp] theorem setResult_rxCount (v : Byte) : (s.setResult v).rxCount = s.rxCount := rfl
@[simp] theorem setResult_treeNodes (v : Byte) : (s.setResult v).treeNodes = s.treeNodes := rfl
@[simp] theorem setResult_faultInfo (v : Byte) : (s.setResult v).faultInfo = s.faultInfo := rfl
@[simp] theorem setResult_arena (v : Byte) : (s.setResult v).arena = s.arena := rfl
@[simp] theorem setResult_inMem (v : Byte) : (s.setResult v).inMem = s.inMem := rfl
@[simp] theorem setResult_bufMem (v : Byte) : (s.setResult v).bufMem = s.bufMem := rfl
@[simp] theorem setResult_epoch (v : Byte) : (s.setResult v).epoch = s.epoch := rfl
@[simp] theorem setResult_draws (v : Byte) : (s.setResult v).draws = s.draws := rfl
@[simp] theorem setResult_hostQ (v : Byte) : (s.setResult v).hostQ = s.hostQ := rfl
@[simp] theorem setResult_sched (v : Byte) : (s.setResult v).sched = s.sched := rfl
@[simp] theorem setResult_rdata (v : Byte) : (s.setResult v).rdata = s.rdata := rfl

/-! ### setProgress -/

@[simp] theorem setProgress_par (n : Nat) : (s.setProgress n).par = s.par := rfl
@[simp] theorem setProgress_ctrl (n : Nat) : (s.setProgress n).ctrl = s.ctrl := rfl
@[simp] theorem setProgress_status (n : Nat) : (s.setProgress n).status = s.status := rfl
@[simp] theorem setProgress_latch (n : Nat) : (s.setProgress n).latch = s.latch := rfl
@[simp] theorem setProgress_inPos (n : Nat) : (s.setProgress n).inPos = s.inPos := rfl
@[simp] theorem setProgress_inEnd (n : Nat) : (s.setProgress n).inEnd = s.inEnd := rfl
@[simp] theorem setProgress_outBase (n : Nat) : (s.setProgress n).outBase = s.outBase := rfl
@[simp] theorem setProgress_outSize (n : Nat) : (s.setProgress n).outSize = s.outSize := rfl
@[simp] theorem setProgress_encLimit (n : Nat) : (s.setProgress n).encLimit = s.encLimit := rfl
@[simp] theorem setProgress_vxBase (n : Nat) : (s.setProgress n).vxBase = s.vxBase := rfl
@[simp] theorem setProgress_vxWidth (n : Nat) : (s.setProgress n).vxWidth = s.vxWidth := rfl
@[simp] theorem setProgress_vxHeight (n : Nat) : (s.setProgress n).vxHeight = s.vxHeight := rfl
@[simp] theorem setProgress_vxStride (n : Nat) : (s.setProgress n).vxStride = s.vxStride := rfl
@[simp] theorem setProgress_vxLen (n : Nat) : (s.setProgress n).vxLen = s.vxLen := rfl
@[simp] theorem setProgress_result (n : Nat) : (s.setProgress n).result = s.result := rfl
@[simp] theorem setProgress_progress (n : Nat) : (s.setProgress n).progress = Word.ofNat n := rfl
@[simp] theorem setProgress_cursor (n : Nat) : (s.setProgress n).cursor = s.cursor := rfl
@[simp] theorem setProgress_key (n : Nat) : (s.setProgress n).key = s.key := rfl
@[simp] theorem setProgress_checksum (n : Nat) : (s.setProgress n).checksum = s.checksum := rfl
@[simp] theorem setProgress_chkTarget (n : Nat) : (s.setProgress n).chkTarget = s.chkTarget := rfl
@[simp] theorem setProgress_seed (n : Nat) : (s.setProgress n).seed = s.seed := rfl
@[simp] theorem setProgress_rxCount (n : Nat) : (s.setProgress n).rxCount = s.rxCount := rfl
@[simp] theorem setProgress_treeNodes (n : Nat) : (s.setProgress n).treeNodes = s.treeNodes := rfl
@[simp] theorem setProgress_faultInfo (n : Nat) : (s.setProgress n).faultInfo = s.faultInfo := rfl
@[simp] theorem setProgress_arena (n : Nat) : (s.setProgress n).arena = s.arena := rfl
@[simp] theorem setProgress_inMem (n : Nat) : (s.setProgress n).inMem = s.inMem := rfl
@[simp] theorem setProgress_bufMem (n : Nat) : (s.setProgress n).bufMem = s.bufMem := rfl
@[simp] theorem setProgress_epoch (n : Nat) : (s.setProgress n).epoch = s.epoch := rfl
@[simp] theorem setProgress_draws (n : Nat) : (s.setProgress n).draws = s.draws := rfl
@[simp] theorem setProgress_hostQ (n : Nat) : (s.setProgress n).hostQ = s.hostQ := rfl
@[simp] theorem setProgress_sched (n : Nat) : (s.setProgress n).sched = s.sched := rfl
@[simp] theorem setProgress_rdata (n : Nat) : (s.setProgress n).rdata = s.rdata := rfl

/-! ### dropTree -/

@[simp] theorem dropTree_par : s.dropTree.par = s.par := rfl
@[simp] theorem dropTree_ctrl : s.dropTree.ctrl = s.ctrl := rfl
@[simp] theorem dropTree_status : s.dropTree.status = { s.status with treeValid := false } := rfl
@[simp] theorem dropTree_latch : s.dropTree.latch = s.latch := rfl
@[simp] theorem dropTree_inPos : s.dropTree.inPos = s.inPos := rfl
@[simp] theorem dropTree_inEnd : s.dropTree.inEnd = s.inEnd := rfl
@[simp] theorem dropTree_outBase : s.dropTree.outBase = s.outBase := rfl
@[simp] theorem dropTree_outSize : s.dropTree.outSize = s.outSize := rfl
@[simp] theorem dropTree_encLimit : s.dropTree.encLimit = s.encLimit := rfl
@[simp] theorem dropTree_vxBase : s.dropTree.vxBase = s.vxBase := rfl
@[simp] theorem dropTree_vxWidth : s.dropTree.vxWidth = s.vxWidth := rfl
@[simp] theorem dropTree_vxHeight : s.dropTree.vxHeight = s.vxHeight := rfl
@[simp] theorem dropTree_vxStride : s.dropTree.vxStride = s.vxStride := rfl
@[simp] theorem dropTree_vxLen : s.dropTree.vxLen = s.vxLen := rfl
@[simp] theorem dropTree_result : s.dropTree.result = s.result := rfl
@[simp] theorem dropTree_progress : s.dropTree.progress = s.progress := rfl
@[simp] theorem dropTree_cursor : s.dropTree.cursor = s.cursor := rfl
@[simp] theorem dropTree_key : s.dropTree.key = s.key := rfl
@[simp] theorem dropTree_checksum : s.dropTree.checksum = s.checksum := rfl
@[simp] theorem dropTree_chkTarget : s.dropTree.chkTarget = s.chkTarget := rfl
@[simp] theorem dropTree_seed : s.dropTree.seed = s.seed := rfl
@[simp] theorem dropTree_rxCount : s.dropTree.rxCount = s.rxCount := rfl
@[simp] theorem dropTree_treeNodes : s.dropTree.treeNodes = 0 := rfl
@[simp] theorem dropTree_faultInfo : s.dropTree.faultInfo = s.faultInfo := rfl
@[simp] theorem dropTree_arena : s.dropTree.arena = [] := rfl
@[simp] theorem dropTree_inMem : s.dropTree.inMem = s.inMem := rfl
@[simp] theorem dropTree_bufMem : s.dropTree.bufMem = s.bufMem := rfl
@[simp] theorem dropTree_epoch : s.dropTree.epoch = s.epoch := rfl
@[simp] theorem dropTree_draws : s.dropTree.draws = s.draws := rfl
@[simp] theorem dropTree_hostQ : s.dropTree.hostQ = s.hostQ := rfl
@[simp] theorem dropTree_sched : s.dropTree.sched = s.sched := rfl
@[simp] theorem dropTree_rdata : s.dropTree.rdata = s.rdata := rfl

/-! ### validateTree -/

@[simp] theorem validateTree_par : s.validateTree.par = s.par := rfl
@[simp] theorem validateTree_ctrl : s.validateTree.ctrl = s.ctrl := rfl
@[simp] theorem validateTree_status : s.validateTree.status = { s.status with treeValid := true } := rfl
@[simp] theorem validateTree_latch : s.validateTree.latch = s.latch := rfl
@[simp] theorem validateTree_inPos : s.validateTree.inPos = s.inPos := rfl
@[simp] theorem validateTree_inEnd : s.validateTree.inEnd = s.inEnd := rfl
@[simp] theorem validateTree_outBase : s.validateTree.outBase = s.outBase := rfl
@[simp] theorem validateTree_outSize : s.validateTree.outSize = s.outSize := rfl
@[simp] theorem validateTree_encLimit : s.validateTree.encLimit = s.encLimit := rfl
@[simp] theorem validateTree_vxBase : s.validateTree.vxBase = s.vxBase := rfl
@[simp] theorem validateTree_vxWidth : s.validateTree.vxWidth = s.vxWidth := rfl
@[simp] theorem validateTree_vxHeight : s.validateTree.vxHeight = s.vxHeight := rfl
@[simp] theorem validateTree_vxStride : s.validateTree.vxStride = s.vxStride := rfl
@[simp] theorem validateTree_vxLen : s.validateTree.vxLen = s.vxLen := rfl
@[simp] theorem validateTree_result : s.validateTree.result = s.result := rfl
@[simp] theorem validateTree_progress : s.validateTree.progress = s.progress := rfl
@[simp] theorem validateTree_cursor : s.validateTree.cursor = s.cursor := rfl
@[simp] theorem validateTree_key : s.validateTree.key = s.key := rfl
@[simp] theorem validateTree_checksum : s.validateTree.checksum = s.checksum := rfl
@[simp] theorem validateTree_chkTarget : s.validateTree.chkTarget = s.chkTarget := rfl
@[simp] theorem validateTree_seed : s.validateTree.seed = s.seed := rfl
@[simp] theorem validateTree_rxCount : s.validateTree.rxCount = s.rxCount := rfl
@[simp] theorem validateTree_treeNodes : s.validateTree.treeNodes = s.treeNodes := rfl
@[simp] theorem validateTree_faultInfo : s.validateTree.faultInfo = s.faultInfo := rfl
@[simp] theorem validateTree_arena : s.validateTree.arena = s.arena := rfl
@[simp] theorem validateTree_inMem : s.validateTree.inMem = s.inMem := rfl
@[simp] theorem validateTree_bufMem : s.validateTree.bufMem = s.bufMem := rfl
@[simp] theorem validateTree_epoch : s.validateTree.epoch = s.epoch := rfl
@[simp] theorem validateTree_draws : s.validateTree.draws = s.draws := rfl
@[simp] theorem validateTree_hostQ : s.validateTree.hostQ = s.hostQ := rfl
@[simp] theorem validateTree_sched : s.validateTree.sched = s.sched := rfl
@[simp] theorem validateTree_rdata : s.validateTree.rdata = s.rdata := rfl

/-! ### allocNode -/

@[simp] theorem allocNode_par : s.allocNode.par = s.par := rfl
@[simp] theorem allocNode_ctrl : s.allocNode.ctrl = s.ctrl := rfl
@[simp] theorem allocNode_status : s.allocNode.status = s.status := rfl
@[simp] theorem allocNode_latch : s.allocNode.latch = s.latch := rfl
@[simp] theorem allocNode_inPos : s.allocNode.inPos = s.inPos := rfl
@[simp] theorem allocNode_inEnd : s.allocNode.inEnd = s.inEnd := rfl
@[simp] theorem allocNode_outBase : s.allocNode.outBase = s.outBase := rfl
@[simp] theorem allocNode_outSize : s.allocNode.outSize = s.outSize := rfl
@[simp] theorem allocNode_encLimit : s.allocNode.encLimit = s.encLimit := rfl
@[simp] theorem allocNode_vxBase : s.allocNode.vxBase = s.vxBase := rfl
@[simp] theorem allocNode_vxWidth : s.allocNode.vxWidth = s.vxWidth := rfl
@[simp] theorem allocNode_vxHeight : s.allocNode.vxHeight = s.vxHeight := rfl
@[simp] theorem allocNode_vxStride : s.allocNode.vxStride = s.vxStride := rfl
@[simp] theorem allocNode_vxLen : s.allocNode.vxLen = s.vxLen := rfl
@[simp] theorem allocNode_result : s.allocNode.result = s.result := rfl
@[simp] theorem allocNode_progress : s.allocNode.progress = s.progress := rfl
@[simp] theorem allocNode_cursor : s.allocNode.cursor = s.cursor := rfl
@[simp] theorem allocNode_key : s.allocNode.key = s.key := rfl
@[simp] theorem allocNode_checksum : s.allocNode.checksum = s.checksum := rfl
@[simp] theorem allocNode_chkTarget : s.allocNode.chkTarget = s.chkTarget := rfl
@[simp] theorem allocNode_seed : s.allocNode.seed = s.seed := rfl
@[simp] theorem allocNode_rxCount : s.allocNode.rxCount = s.rxCount := rfl
@[simp] theorem allocNode_treeNodes : s.allocNode.treeNodes = s.treeNodes + 1 := rfl
@[simp] theorem allocNode_faultInfo : s.allocNode.faultInfo = s.faultInfo := rfl
@[simp] theorem allocNode_arena : s.allocNode.arena = s.arena ++ [.pending] := rfl
@[simp] theorem allocNode_inMem : s.allocNode.inMem = s.inMem := rfl
@[simp] theorem allocNode_bufMem : s.allocNode.bufMem = s.bufMem := rfl
@[simp] theorem allocNode_epoch : s.allocNode.epoch = s.epoch := rfl
@[simp] theorem allocNode_draws : s.allocNode.draws = s.draws := rfl
@[simp] theorem allocNode_hostQ : s.allocNode.hostQ = s.hostQ := rfl
@[simp] theorem allocNode_sched : s.allocNode.sched = s.sched := rfl
@[simp] theorem allocNode_rdata : s.allocNode.rdata = s.rdata := rfl

/-! ### setNode -/

@[simp] theorem setNode_par (n : Nat) (v : Node) : (s.setNode n v).par = s.par := rfl
@[simp] theorem setNode_ctrl (n : Nat) (v : Node) : (s.setNode n v).ctrl = s.ctrl := rfl
@[simp] theorem setNode_status (n : Nat) (v : Node) : (s.setNode n v).status = s.status := rfl
@[simp] theorem setNode_latch (n : Nat) (v : Node) : (s.setNode n v).latch = s.latch := rfl
@[simp] theorem setNode_inPos (n : Nat) (v : Node) : (s.setNode n v).inPos = s.inPos := rfl
@[simp] theorem setNode_inEnd (n : Nat) (v : Node) : (s.setNode n v).inEnd = s.inEnd := rfl
@[simp] theorem setNode_outBase (n : Nat) (v : Node) : (s.setNode n v).outBase = s.outBase := rfl
@[simp] theorem setNode_outSize (n : Nat) (v : Node) : (s.setNode n v).outSize = s.outSize := rfl
@[simp] theorem setNode_encLimit (n : Nat) (v : Node) : (s.setNode n v).encLimit = s.encLimit := rfl
@[simp] theorem setNode_vxBase (n : Nat) (v : Node) : (s.setNode n v).vxBase = s.vxBase := rfl
@[simp] theorem setNode_vxWidth (n : Nat) (v : Node) : (s.setNode n v).vxWidth = s.vxWidth := rfl
@[simp] theorem setNode_vxHeight (n : Nat) (v : Node) : (s.setNode n v).vxHeight = s.vxHeight := rfl
@[simp] theorem setNode_vxStride (n : Nat) (v : Node) : (s.setNode n v).vxStride = s.vxStride := rfl
@[simp] theorem setNode_vxLen (n : Nat) (v : Node) : (s.setNode n v).vxLen = s.vxLen := rfl
@[simp] theorem setNode_result (n : Nat) (v : Node) : (s.setNode n v).result = s.result := rfl
@[simp] theorem setNode_progress (n : Nat) (v : Node) : (s.setNode n v).progress = s.progress := rfl
@[simp] theorem setNode_cursor (n : Nat) (v : Node) : (s.setNode n v).cursor = s.cursor := rfl
@[simp] theorem setNode_key (n : Nat) (v : Node) : (s.setNode n v).key = s.key := rfl
@[simp] theorem setNode_checksum (n : Nat) (v : Node) : (s.setNode n v).checksum = s.checksum := rfl
@[simp] theorem setNode_chkTarget (n : Nat) (v : Node) : (s.setNode n v).chkTarget = s.chkTarget := rfl
@[simp] theorem setNode_seed (n : Nat) (v : Node) : (s.setNode n v).seed = s.seed := rfl
@[simp] theorem setNode_rxCount (n : Nat) (v : Node) : (s.setNode n v).rxCount = s.rxCount := rfl
@[simp] theorem setNode_treeNodes (n : Nat) (v : Node) : (s.setNode n v).treeNodes = s.treeNodes := rfl
@[simp] theorem setNode_faultInfo (n : Nat) (v : Node) : (s.setNode n v).faultInfo = s.faultInfo := rfl
@[simp] theorem setNode_arena (n : Nat) (v : Node) : (s.setNode n v).arena = s.arena.set n v := rfl
@[simp] theorem setNode_inMem (n : Nat) (v : Node) : (s.setNode n v).inMem = s.inMem := rfl
@[simp] theorem setNode_bufMem (n : Nat) (v : Node) : (s.setNode n v).bufMem = s.bufMem := rfl
@[simp] theorem setNode_epoch (n : Nat) (v : Node) : (s.setNode n v).epoch = s.epoch := rfl
@[simp] theorem setNode_draws (n : Nat) (v : Node) : (s.setNode n v).draws = s.draws := rfl
@[simp] theorem setNode_hostQ (n : Nat) (v : Node) : (s.setNode n v).hostQ = s.hostQ := rfl
@[simp] theorem setNode_sched (n : Nat) (v : Node) : (s.setNode n v).sched = s.sched := rfl
@[simp] theorem setNode_rdata (n : Nat) (v : Node) : (s.setNode n v).rdata = s.rdata := rfl

/-! ### setHaz -/

@[simp] theorem setHaz_par : s.setHaz.par = s.par := rfl
@[simp] theorem setHaz_ctrl : s.setHaz.ctrl = s.ctrl := rfl
@[simp] theorem setHaz_status : s.setHaz.status = { s.status with haz := true } := rfl
@[simp] theorem setHaz_latch : s.setHaz.latch = s.latch := rfl
@[simp] theorem setHaz_inPos : s.setHaz.inPos = s.inPos := rfl
@[simp] theorem setHaz_inEnd : s.setHaz.inEnd = s.inEnd := rfl
@[simp] theorem setHaz_outBase : s.setHaz.outBase = s.outBase := rfl
@[simp] theorem setHaz_outSize : s.setHaz.outSize = s.outSize := rfl
@[simp] theorem setHaz_encLimit : s.setHaz.encLimit = s.encLimit := rfl
@[simp] theorem setHaz_vxBase : s.setHaz.vxBase = s.vxBase := rfl
@[simp] theorem setHaz_vxWidth : s.setHaz.vxWidth = s.vxWidth := rfl
@[simp] theorem setHaz_vxHeight : s.setHaz.vxHeight = s.vxHeight := rfl
@[simp] theorem setHaz_vxStride : s.setHaz.vxStride = s.vxStride := rfl
@[simp] theorem setHaz_vxLen : s.setHaz.vxLen = s.vxLen := rfl
@[simp] theorem setHaz_result : s.setHaz.result = s.result := rfl
@[simp] theorem setHaz_progress : s.setHaz.progress = s.progress := rfl
@[simp] theorem setHaz_cursor : s.setHaz.cursor = s.cursor := rfl
@[simp] theorem setHaz_key : s.setHaz.key = s.key := rfl
@[simp] theorem setHaz_checksum : s.setHaz.checksum = s.checksum := rfl
@[simp] theorem setHaz_chkTarget : s.setHaz.chkTarget = s.chkTarget := rfl
@[simp] theorem setHaz_seed : s.setHaz.seed = s.seed := rfl
@[simp] theorem setHaz_rxCount : s.setHaz.rxCount = s.rxCount := rfl
@[simp] theorem setHaz_treeNodes : s.setHaz.treeNodes = s.treeNodes := rfl
@[simp] theorem setHaz_faultInfo : s.setHaz.faultInfo = s.faultInfo := rfl
@[simp] theorem setHaz_arena : s.setHaz.arena = s.arena := rfl
@[simp] theorem setHaz_inMem : s.setHaz.inMem = s.inMem := rfl
@[simp] theorem setHaz_bufMem : s.setHaz.bufMem = s.bufMem := rfl
@[simp] theorem setHaz_epoch : s.setHaz.epoch = s.epoch := rfl
@[simp] theorem setHaz_draws : s.setHaz.draws = s.draws := rfl
@[simp] theorem setHaz_hostQ : s.setHaz.hostQ = s.hostQ := rfl
@[simp] theorem setHaz_sched : s.setHaz.sched = s.sched := rfl
@[simp] theorem setHaz_rdata : s.setHaz.rdata = s.rdata := rfl

/-! ### answer -/

@[simp] theorem answer_par (v : Word) : (s.answer v).par = s.par := rfl
@[simp] theorem answer_ctrl (v : Word) : (s.answer v).ctrl = s.ctrl := rfl
@[simp] theorem answer_status (v : Word) : (s.answer v).status = s.status := rfl
@[simp] theorem answer_latch (v : Word) : (s.answer v).latch = s.latch := rfl
@[simp] theorem answer_inPos (v : Word) : (s.answer v).inPos = s.inPos := rfl
@[simp] theorem answer_inEnd (v : Word) : (s.answer v).inEnd = s.inEnd := rfl
@[simp] theorem answer_outBase (v : Word) : (s.answer v).outBase = s.outBase := rfl
@[simp] theorem answer_outSize (v : Word) : (s.answer v).outSize = s.outSize := rfl
@[simp] theorem answer_encLimit (v : Word) : (s.answer v).encLimit = s.encLimit := rfl
@[simp] theorem answer_vxBase (v : Word) : (s.answer v).vxBase = s.vxBase := rfl
@[simp] theorem answer_vxWidth (v : Word) : (s.answer v).vxWidth = s.vxWidth := rfl
@[simp] theorem answer_vxHeight (v : Word) : (s.answer v).vxHeight = s.vxHeight := rfl
@[simp] theorem answer_vxStride (v : Word) : (s.answer v).vxStride = s.vxStride := rfl
@[simp] theorem answer_vxLen (v : Word) : (s.answer v).vxLen = s.vxLen := rfl
@[simp] theorem answer_result (v : Word) : (s.answer v).result = s.result := rfl
@[simp] theorem answer_progress (v : Word) : (s.answer v).progress = s.progress := rfl
@[simp] theorem answer_cursor (v : Word) : (s.answer v).cursor = s.cursor := rfl
@[simp] theorem answer_key (v : Word) : (s.answer v).key = s.key := rfl
@[simp] theorem answer_checksum (v : Word) : (s.answer v).checksum = s.checksum := rfl
@[simp] theorem answer_chkTarget (v : Word) : (s.answer v).chkTarget = s.chkTarget := rfl
@[simp] theorem answer_seed (v : Word) : (s.answer v).seed = s.seed := rfl
@[simp] theorem answer_rxCount (v : Word) : (s.answer v).rxCount = s.rxCount := rfl
@[simp] theorem answer_treeNodes (v : Word) : (s.answer v).treeNodes = s.treeNodes := rfl
@[simp] theorem answer_faultInfo (v : Word) : (s.answer v).faultInfo = s.faultInfo := rfl
@[simp] theorem answer_arena (v : Word) : (s.answer v).arena = s.arena := rfl
@[simp] theorem answer_inMem (v : Word) : (s.answer v).inMem = s.inMem := rfl
@[simp] theorem answer_bufMem (v : Word) : (s.answer v).bufMem = s.bufMem := rfl
@[simp] theorem answer_epoch (v : Word) : (s.answer v).epoch = s.epoch := rfl
@[simp] theorem answer_draws (v : Word) : (s.answer v).draws = s.draws := rfl
@[simp] theorem answer_hostQ (v : Word) : (s.answer v).hostQ = s.hostQ := rfl
@[simp] theorem answer_sched (v : Word) : (s.answer v).sched = s.sched := rfl
@[simp] theorem answer_rdata (v : Word) : (s.answer v).rdata = v := rfl

/-! ### answerDraw -/

@[simp] theorem answerDraw_par (f : Word → Word) : (s.answerDraw f).par = s.par := rfl
@[simp] theorem answerDraw_ctrl (f : Word → Word) : (s.answerDraw f).ctrl = s.ctrl := rfl
@[simp] theorem answerDraw_status (f : Word → Word) : (s.answerDraw f).status = s.status := rfl
@[simp] theorem answerDraw_latch (f : Word → Word) : (s.answerDraw f).latch = s.latch := rfl
@[simp] theorem answerDraw_inPos (f : Word → Word) : (s.answerDraw f).inPos = s.inPos := rfl
@[simp] theorem answerDraw_inEnd (f : Word → Word) : (s.answerDraw f).inEnd = s.inEnd := rfl
@[simp] theorem answerDraw_outBase (f : Word → Word) : (s.answerDraw f).outBase = s.outBase := rfl
@[simp] theorem answerDraw_outSize (f : Word → Word) : (s.answerDraw f).outSize = s.outSize := rfl
@[simp] theorem answerDraw_encLimit (f : Word → Word) : (s.answerDraw f).encLimit = s.encLimit := rfl
@[simp] theorem answerDraw_vxBase (f : Word → Word) : (s.answerDraw f).vxBase = s.vxBase := rfl
@[simp] theorem answerDraw_vxWidth (f : Word → Word) : (s.answerDraw f).vxWidth = s.vxWidth := rfl
@[simp] theorem answerDraw_vxHeight (f : Word → Word) : (s.answerDraw f).vxHeight = s.vxHeight := rfl
@[simp] theorem answerDraw_vxStride (f : Word → Word) : (s.answerDraw f).vxStride = s.vxStride := rfl
@[simp] theorem answerDraw_vxLen (f : Word → Word) : (s.answerDraw f).vxLen = s.vxLen := rfl
@[simp] theorem answerDraw_result (f : Word → Word) : (s.answerDraw f).result = s.result := rfl
@[simp] theorem answerDraw_progress (f : Word → Word) : (s.answerDraw f).progress = s.progress := rfl
@[simp] theorem answerDraw_cursor (f : Word → Word) : (s.answerDraw f).cursor = s.cursor := rfl
@[simp] theorem answerDraw_key (f : Word → Word) : (s.answerDraw f).key = s.key := rfl
@[simp] theorem answerDraw_checksum (f : Word → Word) : (s.answerDraw f).checksum = s.checksum := rfl
@[simp] theorem answerDraw_chkTarget (f : Word → Word) : (s.answerDraw f).chkTarget = s.chkTarget := rfl
@[simp] theorem answerDraw_seed (f : Word → Word) : (s.answerDraw f).seed = s.seed := rfl
@[simp] theorem answerDraw_rxCount (f : Word → Word) : (s.answerDraw f).rxCount = s.rxCount := rfl
@[simp] theorem answerDraw_treeNodes (f : Word → Word) : (s.answerDraw f).treeNodes = s.treeNodes := rfl
@[simp] theorem answerDraw_faultInfo (f : Word → Word) : (s.answerDraw f).faultInfo = s.faultInfo := rfl
@[simp] theorem answerDraw_arena (f : Word → Word) : (s.answerDraw f).arena = s.arena := rfl
@[simp] theorem answerDraw_inMem (f : Word → Word) : (s.answerDraw f).inMem = s.inMem := rfl
@[simp] theorem answerDraw_bufMem (f : Word → Word) : (s.answerDraw f).bufMem = s.bufMem := rfl
@[simp] theorem answerDraw_epoch (f : Word → Word) : (s.answerDraw f).epoch = s.epoch := rfl
@[simp] theorem answerDraw_draws (f : Word → Word) : (s.answerDraw f).draws = s.draws + 1 := rfl
@[simp] theorem answerDraw_hostQ (f : Word → Word) : (s.answerDraw f).hostQ = s.hostQ := rfl
@[simp] theorem answerDraw_sched (f : Word → Word) : (s.answerDraw f).sched = s.sched := rfl
@[simp] theorem answerDraw_rdata (f : Word → Word) : (s.answerDraw f).rdata = f (Config.freeWord s.draws) := rfl

/-! ### accept -/

@[simp] theorem accept_par (i : Instr) : (s.accept i).par = s.par := rfl
@[simp] theorem accept_ctrl (i : Instr) : (s.accept i).ctrl = s.ctrl := rfl
@[simp] theorem accept_status (i : Instr) : (s.accept i).status = { s.status with done := false, busy := true } := rfl
@[simp] theorem accept_latch (i : Instr) : (s.accept i).latch = i := rfl
@[simp] theorem accept_inPos (i : Instr) : (s.accept i).inPos = s.inPos := rfl
@[simp] theorem accept_inEnd (i : Instr) : (s.accept i).inEnd = s.inEnd := rfl
@[simp] theorem accept_outBase (i : Instr) : (s.accept i).outBase = s.outBase := rfl
@[simp] theorem accept_outSize (i : Instr) : (s.accept i).outSize = s.outSize := rfl
@[simp] theorem accept_encLimit (i : Instr) : (s.accept i).encLimit = s.encLimit := rfl
@[simp] theorem accept_vxBase (i : Instr) : (s.accept i).vxBase = s.vxBase := rfl
@[simp] theorem accept_vxWidth (i : Instr) : (s.accept i).vxWidth = s.vxWidth := rfl
@[simp] theorem accept_vxHeight (i : Instr) : (s.accept i).vxHeight = s.vxHeight := rfl
@[simp] theorem accept_vxStride (i : Instr) : (s.accept i).vxStride = s.vxStride := rfl
@[simp] theorem accept_vxLen (i : Instr) : (s.accept i).vxLen = s.vxLen := rfl
@[simp] theorem accept_result (i : Instr) : (s.accept i).result = s.result := rfl
@[simp] theorem accept_progress (i : Instr) : (s.accept i).progress = 0 := rfl
@[simp] theorem accept_cursor (i : Instr) : (s.accept i).cursor = s.cursor := rfl
@[simp] theorem accept_key (i : Instr) : (s.accept i).key = s.key := rfl
@[simp] theorem accept_checksum (i : Instr) : (s.accept i).checksum = s.checksum := rfl
@[simp] theorem accept_chkTarget (i : Instr) : (s.accept i).chkTarget = s.chkTarget := rfl
@[simp] theorem accept_seed (i : Instr) : (s.accept i).seed = s.seed := rfl
@[simp] theorem accept_rxCount (i : Instr) : (s.accept i).rxCount = s.rxCount := rfl
@[simp] theorem accept_treeNodes (i : Instr) : (s.accept i).treeNodes = s.treeNodes := rfl
@[simp] theorem accept_faultInfo (i : Instr) : (s.accept i).faultInfo = s.faultInfo := rfl
@[simp] theorem accept_arena (i : Instr) : (s.accept i).arena = s.arena := rfl
@[simp] theorem accept_inMem (i : Instr) : (s.accept i).inMem = s.inMem := rfl
@[simp] theorem accept_bufMem (i : Instr) : (s.accept i).bufMem = s.bufMem := rfl
@[simp] theorem accept_epoch (i : Instr) : (s.accept i).epoch = s.epoch := rfl
@[simp] theorem accept_draws (i : Instr) : (s.accept i).draws = s.draws := rfl
@[simp] theorem accept_hostQ (i : Instr) : (s.accept i).hostQ = s.hostQ := rfl
@[simp] theorem accept_sched (i : Instr) : (s.accept i).sched = s.sched := rfl
@[simp] theorem accept_rdata (i : Instr) : (s.accept i).rdata = s.rdata := rfl

/-! ### complete -/

@[simp] theorem complete_par : s.complete.par = s.par := rfl
@[simp] theorem complete_ctrl : s.complete.ctrl = s.ctrl := rfl
@[simp] theorem complete_status : s.complete.status = { s.status with busy := false, done := true } := rfl
@[simp] theorem complete_latch : s.complete.latch = s.latch := rfl
@[simp] theorem complete_inPos : s.complete.inPos = s.inPos := rfl
@[simp] theorem complete_inEnd : s.complete.inEnd = s.inEnd := rfl
@[simp] theorem complete_outBase : s.complete.outBase = s.outBase := rfl
@[simp] theorem complete_outSize : s.complete.outSize = s.outSize := rfl
@[simp] theorem complete_encLimit : s.complete.encLimit = s.encLimit := rfl
@[simp] theorem complete_vxBase : s.complete.vxBase = s.vxBase := rfl
@[simp] theorem complete_vxWidth : s.complete.vxWidth = s.vxWidth := rfl
@[simp] theorem complete_vxHeight : s.complete.vxHeight = s.vxHeight := rfl
@[simp] theorem complete_vxStride : s.complete.vxStride = s.vxStride := rfl
@[simp] theorem complete_vxLen : s.complete.vxLen = s.vxLen := rfl
@[simp] theorem complete_result : s.complete.result = s.result := rfl
@[simp] theorem complete_progress : s.complete.progress = s.progress := rfl
@[simp] theorem complete_cursor : s.complete.cursor = s.cursor := rfl
@[simp] theorem complete_key : s.complete.key = s.key := rfl
@[simp] theorem complete_checksum : s.complete.checksum = s.checksum := rfl
@[simp] theorem complete_chkTarget : s.complete.chkTarget = s.chkTarget := rfl
@[simp] theorem complete_seed : s.complete.seed = s.seed := rfl
@[simp] theorem complete_rxCount : s.complete.rxCount = s.rxCount := rfl
@[simp] theorem complete_treeNodes : s.complete.treeNodes = s.treeNodes := rfl
@[simp] theorem complete_faultInfo : s.complete.faultInfo = s.faultInfo := rfl
@[simp] theorem complete_arena : s.complete.arena = s.arena := rfl
@[simp] theorem complete_inMem : s.complete.inMem = s.inMem := rfl
@[simp] theorem complete_bufMem : s.complete.bufMem = s.bufMem := rfl
@[simp] theorem complete_epoch : s.complete.epoch = s.epoch := rfl
@[simp] theorem complete_draws : s.complete.draws = s.draws := rfl
@[simp] theorem complete_hostQ : s.complete.hostQ = s.hostQ := rfl
@[simp] theorem complete_sched : s.complete.sched = s.sched := rfl
@[simp] theorem complete_rdata : s.complete.rdata = s.rdata := rfl

/-! ### takeFault -/

@[simp] theorem takeFault_par (c : Cause) (info : Word) : (s.takeFault c info).par = s.par := rfl
@[simp] theorem takeFault_ctrl (c : Cause) (info : Word) : (s.takeFault c info).ctrl = s.ctrl := rfl
@[simp] theorem takeFault_status (c : Cause) (info : Word) :
    (s.takeFault c info).status = { s.status with busy := false, done := false, err := true, cause := c } := rfl
@[simp] theorem takeFault_latch (c : Cause) (info : Word) : (s.takeFault c info).latch = s.latch := rfl
@[simp] theorem takeFault_inPos (c : Cause) (info : Word) : (s.takeFault c info).inPos = s.inPos := rfl
@[simp] theorem takeFault_inEnd (c : Cause) (info : Word) : (s.takeFault c info).inEnd = s.inEnd := rfl
@[simp] theorem takeFault_outBase (c : Cause) (info : Word) : (s.takeFault c info).outBase = s.outBase := rfl
@[simp] theorem takeFault_outSize (c : Cause) (info : Word) : (s.takeFault c info).outSize = s.outSize := rfl
@[simp] theorem takeFault_encLimit (c : Cause) (info : Word) : (s.takeFault c info).encLimit = s.encLimit := rfl
@[simp] theorem takeFault_vxBase (c : Cause) (info : Word) : (s.takeFault c info).vxBase = s.vxBase := rfl
@[simp] theorem takeFault_vxWidth (c : Cause) (info : Word) : (s.takeFault c info).vxWidth = s.vxWidth := rfl
@[simp] theorem takeFault_vxHeight (c : Cause) (info : Word) : (s.takeFault c info).vxHeight = s.vxHeight := rfl
@[simp] theorem takeFault_vxStride (c : Cause) (info : Word) : (s.takeFault c info).vxStride = s.vxStride := rfl
@[simp] theorem takeFault_vxLen (c : Cause) (info : Word) : (s.takeFault c info).vxLen = s.vxLen := rfl
@[simp] theorem takeFault_result (c : Cause) (info : Word) : (s.takeFault c info).result = s.result := rfl
@[simp] theorem takeFault_progress (c : Cause) (info : Word) : (s.takeFault c info).progress = s.progress := rfl
@[simp] theorem takeFault_cursor (c : Cause) (info : Word) : (s.takeFault c info).cursor = s.cursor := rfl
@[simp] theorem takeFault_key (c : Cause) (info : Word) : (s.takeFault c info).key = s.key := rfl
@[simp] theorem takeFault_checksum (c : Cause) (info : Word) : (s.takeFault c info).checksum = s.checksum := rfl
@[simp] theorem takeFault_chkTarget (c : Cause) (info : Word) : (s.takeFault c info).chkTarget = s.chkTarget := rfl
@[simp] theorem takeFault_seed (c : Cause) (info : Word) : (s.takeFault c info).seed = s.seed := rfl
@[simp] theorem takeFault_rxCount (c : Cause) (info : Word) : (s.takeFault c info).rxCount = s.rxCount := rfl
@[simp] theorem takeFault_treeNodes (c : Cause) (info : Word) : (s.takeFault c info).treeNodes = s.treeNodes := rfl
@[simp] theorem takeFault_faultInfo (c : Cause) (info : Word) : (s.takeFault c info).faultInfo = info := rfl
@[simp] theorem takeFault_arena (c : Cause) (info : Word) : (s.takeFault c info).arena = s.arena := rfl
@[simp] theorem takeFault_inMem (c : Cause) (info : Word) : (s.takeFault c info).inMem = s.inMem := rfl
@[simp] theorem takeFault_bufMem (c : Cause) (info : Word) : (s.takeFault c info).bufMem = s.bufMem := rfl
@[simp] theorem takeFault_epoch (c : Cause) (info : Word) : (s.takeFault c info).epoch = s.epoch := rfl
@[simp] theorem takeFault_draws (c : Cause) (info : Word) : (s.takeFault c info).draws = s.draws := rfl
@[simp] theorem takeFault_hostQ (c : Cause) (info : Word) : (s.takeFault c info).hostQ = s.hostQ := rfl
@[simp] theorem takeFault_sched (c : Cause) (info : Word) : (s.takeFault c info).sched = s.sched := rfl
@[simp] theorem takeFault_rdata (c : Cause) (info : Word) : (s.takeFault c info).rdata = s.rdata := rfl

/-! ### clearErr -/

@[simp] theorem clearErr_par : s.clearErr.par = s.par := rfl
@[simp] theorem clearErr_ctrl : s.clearErr.ctrl = s.ctrl := rfl
@[simp] theorem clearErr_status : s.clearErr.status = { s.status with err := false, cause := .none } := rfl
@[simp] theorem clearErr_latch : s.clearErr.latch = s.latch := rfl
@[simp] theorem clearErr_inPos : s.clearErr.inPos = s.inPos := rfl
@[simp] theorem clearErr_inEnd : s.clearErr.inEnd = s.inEnd := rfl
@[simp] theorem clearErr_outBase : s.clearErr.outBase = s.outBase := rfl
@[simp] theorem clearErr_outSize : s.clearErr.outSize = s.outSize := rfl
@[simp] theorem clearErr_encLimit : s.clearErr.encLimit = s.encLimit := rfl
@[simp] theorem clearErr_vxBase : s.clearErr.vxBase = s.vxBase := rfl
@[simp] theorem clearErr_vxWidth : s.clearErr.vxWidth = s.vxWidth := rfl
@[simp] theorem clearErr_vxHeight : s.clearErr.vxHeight = s.vxHeight := rfl
@[simp] theorem clearErr_vxStride : s.clearErr.vxStride = s.vxStride := rfl
@[simp] theorem clearErr_vxLen : s.clearErr.vxLen = s.vxLen := rfl
@[simp] theorem clearErr_result : s.clearErr.result = s.result := rfl
@[simp] theorem clearErr_progress : s.clearErr.progress = s.progress := rfl
@[simp] theorem clearErr_cursor : s.clearErr.cursor = s.cursor := rfl
@[simp] theorem clearErr_key : s.clearErr.key = s.key := rfl
@[simp] theorem clearErr_checksum : s.clearErr.checksum = s.checksum := rfl
@[simp] theorem clearErr_chkTarget : s.clearErr.chkTarget = s.chkTarget := rfl
@[simp] theorem clearErr_seed : s.clearErr.seed = s.seed := rfl
@[simp] theorem clearErr_rxCount : s.clearErr.rxCount = s.rxCount := rfl
@[simp] theorem clearErr_treeNodes : s.clearErr.treeNodes = s.treeNodes := rfl
@[simp] theorem clearErr_faultInfo : s.clearErr.faultInfo = 0 := rfl
@[simp] theorem clearErr_arena : s.clearErr.arena = s.arena := rfl
@[simp] theorem clearErr_inMem : s.clearErr.inMem = s.inMem := rfl
@[simp] theorem clearErr_bufMem : s.clearErr.bufMem = s.bufMem := rfl
@[simp] theorem clearErr_epoch : s.clearErr.epoch = s.epoch := rfl
@[simp] theorem clearErr_draws : s.clearErr.draws = s.draws := rfl
@[simp] theorem clearErr_hostQ : s.clearErr.hostQ = s.hostQ := rfl
@[simp] theorem clearErr_sched : s.clearErr.sched = s.sched := rfl
@[simp] theorem clearErr_rdata : s.clearErr.rdata = s.rdata := rfl

/-! ### badCmd -/

@[simp] theorem badCmd_par (w : Word) : (s.badCmd w).par = s.par := rfl
@[simp] theorem badCmd_ctrl (w : Word) : (s.badCmd w).ctrl = s.ctrl := rfl
@[simp] theorem badCmd_status (w : Word) :
    (s.badCmd w).status = { s.status with err := true, cause := .badCmd, done := false } := rfl
@[simp] theorem badCmd_latch (w : Word) : (s.badCmd w).latch = s.latch := rfl
@[simp] theorem badCmd_inPos (w : Word) : (s.badCmd w).inPos = s.inPos := rfl
@[simp] theorem badCmd_inEnd (w : Word) : (s.badCmd w).inEnd = s.inEnd := rfl
@[simp] theorem badCmd_outBase (w : Word) : (s.badCmd w).outBase = s.outBase := rfl
@[simp] theorem badCmd_outSize (w : Word) : (s.badCmd w).outSize = s.outSize := rfl
@[simp] theorem badCmd_encLimit (w : Word) : (s.badCmd w).encLimit = s.encLimit := rfl
@[simp] theorem badCmd_vxBase (w : Word) : (s.badCmd w).vxBase = s.vxBase := rfl
@[simp] theorem badCmd_vxWidth (w : Word) : (s.badCmd w).vxWidth = s.vxWidth := rfl
@[simp] theorem badCmd_vxHeight (w : Word) : (s.badCmd w).vxHeight = s.vxHeight := rfl
@[simp] theorem badCmd_vxStride (w : Word) : (s.badCmd w).vxStride = s.vxStride := rfl
@[simp] theorem badCmd_vxLen (w : Word) : (s.badCmd w).vxLen = s.vxLen := rfl
@[simp] theorem badCmd_result (w : Word) : (s.badCmd w).result = s.result := rfl
@[simp] theorem badCmd_progress (w : Word) : (s.badCmd w).progress = s.progress := rfl
@[simp] theorem badCmd_cursor (w : Word) : (s.badCmd w).cursor = s.cursor := rfl
@[simp] theorem badCmd_key (w : Word) : (s.badCmd w).key = s.key := rfl
@[simp] theorem badCmd_checksum (w : Word) : (s.badCmd w).checksum = s.checksum := rfl
@[simp] theorem badCmd_chkTarget (w : Word) : (s.badCmd w).chkTarget = s.chkTarget := rfl
@[simp] theorem badCmd_seed (w : Word) : (s.badCmd w).seed = s.seed := rfl
@[simp] theorem badCmd_rxCount (w : Word) : (s.badCmd w).rxCount = s.rxCount := rfl
@[simp] theorem badCmd_treeNodes (w : Word) : (s.badCmd w).treeNodes = s.treeNodes := rfl
@[simp] theorem badCmd_faultInfo (w : Word) : (s.badCmd w).faultInfo = w := rfl
@[simp] theorem badCmd_arena (w : Word) : (s.badCmd w).arena = s.arena := rfl
@[simp] theorem badCmd_inMem (w : Word) : (s.badCmd w).inMem = s.inMem := rfl
@[simp] theorem badCmd_bufMem (w : Word) : (s.badCmd w).bufMem = s.bufMem := rfl
@[simp] theorem badCmd_epoch (w : Word) : (s.badCmd w).epoch = s.epoch := rfl
@[simp] theorem badCmd_draws (w : Word) : (s.badCmd w).draws = s.draws := rfl
@[simp] theorem badCmd_hostQ (w : Word) : (s.badCmd w).hostQ = s.hostQ := rfl
@[simp] theorem badCmd_sched (w : Word) : (s.badCmd w).sched = s.sched := rfl
@[simp] theorem badCmd_rdata (w : Word) : (s.badCmd w).rdata = s.rdata := rfl

/-! ### rxStart -/

@[simp] theorem rxStart_par : s.rxStart.par = s.par := rfl
@[simp] theorem rxStart_ctrl : s.rxStart.ctrl = s.ctrl := rfl
@[simp] theorem rxStart_status : s.rxStart.status = { s.status with rxStop := false } := rfl
@[simp] theorem rxStart_latch : s.rxStart.latch = s.latch := rfl
@[simp] theorem rxStart_inPos : s.rxStart.inPos = s.inPos := rfl
@[simp] theorem rxStart_inEnd : s.rxStart.inEnd = s.inEnd := rfl
@[simp] theorem rxStart_outBase : s.rxStart.outBase = s.outBase := rfl
@[simp] theorem rxStart_outSize : s.rxStart.outSize = s.outSize := rfl
@[simp] theorem rxStart_encLimit : s.rxStart.encLimit = s.encLimit := rfl
@[simp] theorem rxStart_vxBase : s.rxStart.vxBase = s.vxBase := rfl
@[simp] theorem rxStart_vxWidth : s.rxStart.vxWidth = s.vxWidth := rfl
@[simp] theorem rxStart_vxHeight : s.rxStart.vxHeight = s.vxHeight := rfl
@[simp] theorem rxStart_vxStride : s.rxStart.vxStride = s.vxStride := rfl
@[simp] theorem rxStart_vxLen : s.rxStart.vxLen = s.vxLen := rfl
@[simp] theorem rxStart_result : s.rxStart.result = s.result := rfl
@[simp] theorem rxStart_progress : s.rxStart.progress = s.progress := rfl
@[simp] theorem rxStart_cursor : s.rxStart.cursor = s.cursor := rfl
@[simp] theorem rxStart_key : s.rxStart.key = s.key := rfl
@[simp] theorem rxStart_checksum : s.rxStart.checksum = s.checksum := rfl
@[simp] theorem rxStart_chkTarget : s.rxStart.chkTarget = s.chkTarget := rfl
@[simp] theorem rxStart_seed : s.rxStart.seed = s.seed := rfl
@[simp] theorem rxStart_rxCount : s.rxStart.rxCount = 0 := rfl
@[simp] theorem rxStart_treeNodes : s.rxStart.treeNodes = s.treeNodes := rfl
@[simp] theorem rxStart_faultInfo : s.rxStart.faultInfo = s.faultInfo := rfl
@[simp] theorem rxStart_arena : s.rxStart.arena = s.arena := rfl
@[simp] theorem rxStart_inMem : s.rxStart.inMem = s.inMem := rfl
@[simp] theorem rxStart_bufMem : s.rxStart.bufMem = s.bufMem := rfl
@[simp] theorem rxStart_epoch : s.rxStart.epoch = s.epoch := rfl
@[simp] theorem rxStart_draws : s.rxStart.draws = s.draws := rfl
@[simp] theorem rxStart_hostQ : s.rxStart.hostQ = s.hostQ := rfl
@[simp] theorem rxStart_sched : s.rxStart.sched = s.sched := rfl
@[simp] theorem rxStart_rdata : s.rxStart.rdata = s.rdata := rfl

/-! ### rxSeeds -/

@[simp] theorem rxSeeds_par (b1 b2 : Byte) : (s.rxSeeds b1 b2).par = s.par := rfl
@[simp] theorem rxSeeds_ctrl (b1 b2 : Byte) : (s.rxSeeds b1 b2).ctrl = s.ctrl := rfl
@[simp] theorem rxSeeds_status (b1 b2 : Byte) : (s.rxSeeds b1 b2).status = s.status := rfl
@[simp] theorem rxSeeds_latch (b1 b2 : Byte) : (s.rxSeeds b1 b2).latch = s.latch := rfl
@[simp] theorem rxSeeds_inPos (b1 b2 : Byte) : (s.rxSeeds b1 b2).inPos = s.inPos := rfl
@[simp] theorem rxSeeds_inEnd (b1 b2 : Byte) : (s.rxSeeds b1 b2).inEnd = s.inEnd := rfl
@[simp] theorem rxSeeds_outBase (b1 b2 : Byte) : (s.rxSeeds b1 b2).outBase = s.outBase := rfl
@[simp] theorem rxSeeds_outSize (b1 b2 : Byte) : (s.rxSeeds b1 b2).outSize = s.outSize := rfl
@[simp] theorem rxSeeds_encLimit (b1 b2 : Byte) : (s.rxSeeds b1 b2).encLimit = s.encLimit := rfl
@[simp] theorem rxSeeds_vxBase (b1 b2 : Byte) : (s.rxSeeds b1 b2).vxBase = s.vxBase := rfl
@[simp] theorem rxSeeds_vxWidth (b1 b2 : Byte) : (s.rxSeeds b1 b2).vxWidth = s.vxWidth := rfl
@[simp] theorem rxSeeds_vxHeight (b1 b2 : Byte) : (s.rxSeeds b1 b2).vxHeight = s.vxHeight := rfl
@[simp] theorem rxSeeds_vxStride (b1 b2 : Byte) : (s.rxSeeds b1 b2).vxStride = s.vxStride := rfl
@[simp] theorem rxSeeds_vxLen (b1 b2 : Byte) : (s.rxSeeds b1 b2).vxLen = s.vxLen := rfl
@[simp] theorem rxSeeds_result (b1 b2 : Byte) : (s.rxSeeds b1 b2).result = s.result := rfl
@[simp] theorem rxSeeds_progress (b1 b2 : Byte) : (s.rxSeeds b1 b2).progress = s.progress := rfl
@[simp] theorem rxSeeds_cursor (b1 b2 : Byte) : (s.rxSeeds b1 b2).cursor = s.cursor := rfl
@[simp] theorem rxSeeds_key (b1 b2 : Byte) : (s.rxSeeds b1 b2).key = b1 ^^^ b2 := rfl
@[simp] theorem rxSeeds_checksum (b1 b2 : Byte) : (s.rxSeeds b1 b2).checksum = 0 := rfl
@[simp] theorem rxSeeds_chkTarget (b1 b2 : Byte) : (s.rxSeeds b1 b2).chkTarget = chkTargetOf s.par.chkOrder b1 b2 := rfl
@[simp] theorem rxSeeds_seed (b1 b2 : Byte) : (s.rxSeeds b1 b2).seed = halfOfBytes b2 b1 := rfl
@[simp] theorem rxSeeds_rxCount (b1 b2 : Byte) : (s.rxSeeds b1 b2).rxCount = s.rxCount := rfl
@[simp] theorem rxSeeds_treeNodes (b1 b2 : Byte) : (s.rxSeeds b1 b2).treeNodes = s.treeNodes := rfl
@[simp] theorem rxSeeds_faultInfo (b1 b2 : Byte) : (s.rxSeeds b1 b2).faultInfo = s.faultInfo := rfl
@[simp] theorem rxSeeds_arena (b1 b2 : Byte) : (s.rxSeeds b1 b2).arena = s.arena := rfl
@[simp] theorem rxSeeds_inMem (b1 b2 : Byte) : (s.rxSeeds b1 b2).inMem = s.inMem := rfl
@[simp] theorem rxSeeds_bufMem (b1 b2 : Byte) : (s.rxSeeds b1 b2).bufMem = s.bufMem := rfl
@[simp] theorem rxSeeds_epoch (b1 b2 : Byte) : (s.rxSeeds b1 b2).epoch = s.epoch := rfl
@[simp] theorem rxSeeds_draws (b1 b2 : Byte) : (s.rxSeeds b1 b2).draws = s.draws := rfl
@[simp] theorem rxSeeds_hostQ (b1 b2 : Byte) : (s.rxSeeds b1 b2).hostQ = s.hostQ := rfl
@[simp] theorem rxSeeds_sched (b1 b2 : Byte) : (s.rxSeeds b1 b2).sched = s.sched := rfl
@[simp] theorem rxSeeds_rdata (b1 b2 : Byte) : (s.rxSeeds b1 b2).rdata = s.rdata := rfl

/-! ### rxPlain -/

@[simp] theorem rxPlain_par (i : Nat) (p : Byte) : (s.rxPlain i p).par = s.par := rfl
@[simp] theorem rxPlain_ctrl (i : Nat) (p : Byte) : (s.rxPlain i p).ctrl = s.ctrl := rfl
@[simp] theorem rxPlain_status (i : Nat) (p : Byte) : (s.rxPlain i p).status = s.status := rfl
@[simp] theorem rxPlain_latch (i : Nat) (p : Byte) : (s.rxPlain i p).latch = s.latch := rfl
@[simp] theorem rxPlain_inPos (i : Nat) (p : Byte) : (s.rxPlain i p).inPos = s.inPos := rfl
@[simp] theorem rxPlain_inEnd (i : Nat) (p : Byte) : (s.rxPlain i p).inEnd = s.inEnd := rfl
@[simp] theorem rxPlain_outBase (i : Nat) (p : Byte) : (s.rxPlain i p).outBase = s.outBase := rfl
@[simp] theorem rxPlain_outSize (i : Nat) (p : Byte) : (s.rxPlain i p).outSize = s.outSize := rfl
@[simp] theorem rxPlain_encLimit (i : Nat) (p : Byte) : (s.rxPlain i p).encLimit = s.encLimit := rfl
@[simp] theorem rxPlain_vxBase (i : Nat) (p : Byte) : (s.rxPlain i p).vxBase = s.vxBase := rfl
@[simp] theorem rxPlain_vxWidth (i : Nat) (p : Byte) : (s.rxPlain i p).vxWidth = s.vxWidth := rfl
@[simp] theorem rxPlain_vxHeight (i : Nat) (p : Byte) : (s.rxPlain i p).vxHeight = s.vxHeight := rfl
@[simp] theorem rxPlain_vxStride (i : Nat) (p : Byte) : (s.rxPlain i p).vxStride = s.vxStride := rfl
@[simp] theorem rxPlain_vxLen (i : Nat) (p : Byte) : (s.rxPlain i p).vxLen = s.vxLen := rfl
@[simp] theorem rxPlain_result (i : Nat) (p : Byte) : (s.rxPlain i p).result = s.result := rfl
@[simp] theorem rxPlain_progress (i : Nat) (p : Byte) : (s.rxPlain i p).progress = s.progress := rfl
@[simp] theorem rxPlain_cursor (i : Nat) (p : Byte) : (s.rxPlain i p).cursor = s.cursor := rfl
@[simp] theorem rxPlain_key (i : Nat) (p : Byte) : (s.rxPlain i p).key = s.key := rfl
@[simp] theorem rxPlain_checksum (i : Nat) (p : Byte) : (s.rxPlain i p).checksum = s.checksum - p.zeroExtend 16 := rfl
@[simp] theorem rxPlain_chkTarget (i : Nat) (p : Byte) : (s.rxPlain i p).chkTarget = s.chkTarget := rfl
@[simp] theorem rxPlain_seed (i : Nat) (p : Byte) : (s.rxPlain i p).seed = s.seed := rfl
@[simp] theorem rxPlain_rxCount (i : Nat) (p : Byte) : (s.rxPlain i p).rxCount = s.rxCount := rfl
@[simp] theorem rxPlain_treeNodes (i : Nat) (p : Byte) : (s.rxPlain i p).treeNodes = s.treeNodes := rfl
@[simp] theorem rxPlain_faultInfo (i : Nat) (p : Byte) : (s.rxPlain i p).faultInfo = s.faultInfo := rfl
@[simp] theorem rxPlain_arena (i : Nat) (p : Byte) : (s.rxPlain i p).arena = s.arena := rfl
@[simp] theorem rxPlain_inMem (i : Nat) (p : Byte) : (s.rxPlain i p).inMem = s.inMem := rfl
@[simp] theorem rxPlain_bufMem (i : Nat) (p : Byte) : (s.rxPlain i p).bufMem = Memory.write s.bufMem (s.outBase.toNat + i) p := rfl
@[simp] theorem rxPlain_epoch (i : Nat) (p : Byte) : (s.rxPlain i p).epoch = s.epoch := rfl
@[simp] theorem rxPlain_draws (i : Nat) (p : Byte) : (s.rxPlain i p).draws = s.draws := rfl
@[simp] theorem rxPlain_hostQ (i : Nat) (p : Byte) : (s.rxPlain i p).hostQ = s.hostQ := rfl
@[simp] theorem rxPlain_sched (i : Nat) (p : Byte) : (s.rxPlain i p).sched = s.sched := rfl
@[simp] theorem rxPlain_rdata (i : Nat) (p : Byte) : (s.rxPlain i p).rdata = s.rdata := rfl

/-! ### rxAdvance -/

@[simp] theorem rxAdvance_par (n : Nat) : (s.rxAdvance n).par = s.par := rfl
@[simp] theorem rxAdvance_ctrl (n : Nat) : (s.rxAdvance n).ctrl = s.ctrl := rfl
@[simp] theorem rxAdvance_status (n : Nat) : (s.rxAdvance n).status = s.status := rfl
@[simp] theorem rxAdvance_latch (n : Nat) : (s.rxAdvance n).latch = s.latch := rfl
@[simp] theorem rxAdvance_inPos (n : Nat) : (s.rxAdvance n).inPos = s.inPos := rfl
@[simp] theorem rxAdvance_inEnd (n : Nat) : (s.rxAdvance n).inEnd = s.inEnd := rfl
@[simp] theorem rxAdvance_outBase (n : Nat) : (s.rxAdvance n).outBase = s.outBase := rfl
@[simp] theorem rxAdvance_outSize (n : Nat) : (s.rxAdvance n).outSize = s.outSize := rfl
@[simp] theorem rxAdvance_encLimit (n : Nat) : (s.rxAdvance n).encLimit = s.encLimit := rfl
@[simp] theorem rxAdvance_vxBase (n : Nat) : (s.rxAdvance n).vxBase = s.vxBase := rfl
@[simp] theorem rxAdvance_vxWidth (n : Nat) : (s.rxAdvance n).vxWidth = s.vxWidth := rfl
@[simp] theorem rxAdvance_vxHeight (n : Nat) : (s.rxAdvance n).vxHeight = s.vxHeight := rfl
@[simp] theorem rxAdvance_vxStride (n : Nat) : (s.rxAdvance n).vxStride = s.vxStride := rfl
@[simp] theorem rxAdvance_vxLen (n : Nat) : (s.rxAdvance n).vxLen = s.vxLen := rfl
@[simp] theorem rxAdvance_result (n : Nat) : (s.rxAdvance n).result = s.result := rfl
@[simp] theorem rxAdvance_progress (n : Nat) : (s.rxAdvance n).progress = Word.ofNat n := rfl
@[simp] theorem rxAdvance_cursor (n : Nat) : (s.rxAdvance n).cursor = s.cursor := rfl
@[simp] theorem rxAdvance_key (n : Nat) : (s.rxAdvance n).key = s.key + s.par.keyStep := rfl
@[simp] theorem rxAdvance_checksum (n : Nat) : (s.rxAdvance n).checksum = s.checksum := rfl
@[simp] theorem rxAdvance_chkTarget (n : Nat) : (s.rxAdvance n).chkTarget = s.chkTarget := rfl
@[simp] theorem rxAdvance_seed (n : Nat) : (s.rxAdvance n).seed = s.seed := rfl
@[simp] theorem rxAdvance_rxCount (n : Nat) : (s.rxAdvance n).rxCount = Word.ofNat n := rfl
@[simp] theorem rxAdvance_treeNodes (n : Nat) : (s.rxAdvance n).treeNodes = s.treeNodes := rfl
@[simp] theorem rxAdvance_faultInfo (n : Nat) : (s.rxAdvance n).faultInfo = s.faultInfo := rfl
@[simp] theorem rxAdvance_arena (n : Nat) : (s.rxAdvance n).arena = s.arena := rfl
@[simp] theorem rxAdvance_inMem (n : Nat) : (s.rxAdvance n).inMem = s.inMem := rfl
@[simp] theorem rxAdvance_bufMem (n : Nat) : (s.rxAdvance n).bufMem = s.bufMem := rfl
@[simp] theorem rxAdvance_epoch (n : Nat) : (s.rxAdvance n).epoch = s.epoch := rfl
@[simp] theorem rxAdvance_draws (n : Nat) : (s.rxAdvance n).draws = s.draws := rfl
@[simp] theorem rxAdvance_hostQ (n : Nat) : (s.rxAdvance n).hostQ = s.hostQ := rfl
@[simp] theorem rxAdvance_sched (n : Nat) : (s.rxAdvance n).sched = s.sched := rfl
@[simp] theorem rxAdvance_rdata (n : Nat) : (s.rxAdvance n).rdata = s.rdata := rfl

/-! ### setRxStop -/

@[simp] theorem setRxStop_par : s.setRxStop.par = s.par := rfl
@[simp] theorem setRxStop_ctrl : s.setRxStop.ctrl = s.ctrl := rfl
@[simp] theorem setRxStop_status : s.setRxStop.status = { s.status with rxStop := true } := rfl
@[simp] theorem setRxStop_latch : s.setRxStop.latch = s.latch := rfl
@[simp] theorem setRxStop_inPos : s.setRxStop.inPos = s.inPos := rfl
@[simp] theorem setRxStop_inEnd : s.setRxStop.inEnd = s.inEnd := rfl
@[simp] theorem setRxStop_outBase : s.setRxStop.outBase = s.outBase := rfl
@[simp] theorem setRxStop_outSize : s.setRxStop.outSize = s.outSize := rfl
@[simp] theorem setRxStop_encLimit : s.setRxStop.encLimit = s.encLimit := rfl
@[simp] theorem setRxStop_vxBase : s.setRxStop.vxBase = s.vxBase := rfl
@[simp] theorem setRxStop_vxWidth : s.setRxStop.vxWidth = s.vxWidth := rfl
@[simp] theorem setRxStop_vxHeight : s.setRxStop.vxHeight = s.vxHeight := rfl
@[simp] theorem setRxStop_vxStride : s.setRxStop.vxStride = s.vxStride := rfl
@[simp] theorem setRxStop_vxLen : s.setRxStop.vxLen = s.vxLen := rfl
@[simp] theorem setRxStop_result : s.setRxStop.result = s.result := rfl
@[simp] theorem setRxStop_progress : s.setRxStop.progress = s.progress := rfl
@[simp] theorem setRxStop_cursor : s.setRxStop.cursor = s.cursor := rfl
@[simp] theorem setRxStop_key : s.setRxStop.key = s.key := rfl
@[simp] theorem setRxStop_checksum : s.setRxStop.checksum = s.checksum := rfl
@[simp] theorem setRxStop_chkTarget : s.setRxStop.chkTarget = s.chkTarget := rfl
@[simp] theorem setRxStop_seed : s.setRxStop.seed = s.seed := rfl
@[simp] theorem setRxStop_rxCount : s.setRxStop.rxCount = s.rxCount := rfl
@[simp] theorem setRxStop_treeNodes : s.setRxStop.treeNodes = s.treeNodes := rfl
@[simp] theorem setRxStop_faultInfo : s.setRxStop.faultInfo = s.faultInfo := rfl
@[simp] theorem setRxStop_arena : s.setRxStop.arena = s.arena := rfl
@[simp] theorem setRxStop_inMem : s.setRxStop.inMem = s.inMem := rfl
@[simp] theorem setRxStop_bufMem : s.setRxStop.bufMem = s.bufMem := rfl
@[simp] theorem setRxStop_epoch : s.setRxStop.epoch = s.epoch := rfl
@[simp] theorem setRxStop_draws : s.setRxStop.draws = s.draws := rfl
@[simp] theorem setRxStop_hostQ : s.setRxStop.hostQ = s.hostQ := rfl
@[simp] theorem setRxStop_sched : s.setRxStop.sched = s.sched := rfl
@[simp] theorem setRxStop_rdata : s.setRxStop.rdata = s.rdata := rfl

end Sys2Proof.Machine
end

