-- ==== Sys2Proof/Laws/Memory.lean ====
section
/-! SUPPORT. Byte spaces: read after write, the canonical form and the bound are kept, and equal readings are equal lists. -/

namespace Sys2Proof.Machine

theorem Memory.read_write_same (m : Memory) (a : Nat) (v : Byte) : Memory.read (Memory.write m a v) a = some v := by
  induction m with
  | nil => simp [Memory.write, Memory.read]
  | cons c m ih =>
    obtain ⟨k, b⟩ := c
    simp only [Memory.write]
    split
    · simp [Memory.read]
    · split
      · simp [Memory.read]
      · simp [Memory.read, *]

theorem Memory.read_write_ne (m : Memory) {a a' : Nat} (v : Byte) (h : a' ≠ a) :
    Memory.read (Memory.write m a v) a' = Memory.read m a' := by
  induction m with
  | nil => simp [Memory.write, Memory.read, h]
  | cons c m ih =>
    obtain ⟨k, b⟩ := c
    simp only [Memory.write]
    split
    · simp [Memory.read, h]
    · split
      · subst_vars; simp [Memory.read, h]
      · simp [Memory.read, ih]

theorem Memory.read_write (m : Memory) (a a' : Nat) (v : Byte) :
    Memory.read (Memory.write m a v) a' = if a' = a then some v else Memory.read m a' := by
  split
  · subst_vars; exact Memory.read_write_same ..
  · exact Memory.read_write_ne _ _ ‹_›

/-- Every address a write lists was listed, or is the written one. -/
theorem Memory.mem_write {m : Memory} {a : Nat} {v : Byte} {c : Host.Cell} (h : c ∈ Memory.write m a v) :
    c ∈ m ∨ c = (a, v) := by
  induction m with
  | nil => simpa [Memory.write] using h
  | cons d m ih =>
    obtain ⟨k, b⟩ := d
    simp only [Memory.write] at h
    split at h
    · simp only [List.mem_cons] at h ⊢; tauto
    · split at h
      · simp only [List.mem_cons] at h ⊢; tauto
      · simp only [List.mem_cons] at h ⊢
        rcases h with h | h
        · exact .inl (.inl h)
        · have := ih h; tauto

theorem Memory.write_wf {m : Memory} (a : Nat) (v : Byte) (h : Memory.wf m) : Memory.wf (Memory.write m a v) := by
  induction m with
  | nil => simp [Memory.write]
  | cons d m ih =>
    obtain ⟨k, b⟩ := d
    obtain ⟨hk, hm⟩ := List.pairwise_cons.mp h
    simp only [Memory.write]
    split
    · refine List.pairwise_cons.mpr ⟨fun c hc => ?_, h⟩
      rcases List.mem_cons.mp hc with rfl | hc
      · assumption
      · exact Nat.lt_trans ‹_› (hk c hc)
    · split
      · subst_vars; exact List.pairwise_cons.mpr ⟨hk, hm⟩
      · refine List.pairwise_cons.mpr ⟨fun c hc => ?_, ih hm⟩
        rcases Memory.mem_write hc with hc | rfl
        · exact hk c hc
        · show k < a; omega

theorem Memory.write_below {m : Memory} {cap : Nat} {a : Nat} (v : Byte) (h : Memory.below m cap) (ha : a < cap) :
    Memory.below (Memory.write m a v) cap := fun c hc => by
  rcases Memory.mem_write hc with hc | rfl
  · exact h c hc
  · exact ha

theorem Memory.read_eq_none {m : Memory} {a : Nat} (h : ∀ c ∈ m, c.1 ≠ a) : Memory.read m a = none := by
  induction m with
  | nil => rfl
  | cons d m ih =>
    simp only [Memory.read, (h d List.mem_cons_self).symm, if_false]
    exact ih fun c hc => h c (List.mem_cons_of_mem _ hc)

theorem Memory.mem_of_read {m : Memory} {a : Nat} {v : Byte} (h : Memory.read m a = some v) : (a, v) ∈ m := by
  induction m with
  | nil => simp [Memory.read] at h
  | cons d m ih =>
    obtain ⟨k, b⟩ := d
    simp only [Memory.read] at h
    split at h
    · simp_all
    · exact List.mem_cons_of_mem _ (ih h)

/-- Equal memories are equal data: two canonical lists that give every address the same byte are the same list. -/
theorem Memory.eq_of_read_eq {m m' : Memory} (h : Memory.wf m) (h' : Memory.wf m')
    (e : ∀ a, Memory.read m a = Memory.read m' a) : m = m' := by
  induction m generalizing m' with
  | nil =>
    cases m' with
    | nil => rfl
    | cons d m' => have := e d.1; simp [Memory.read] at this
  | cons c m ih =>
    obtain ⟨k, b⟩ := c
    obtain ⟨hk, hm⟩ := List.pairwise_cons.mp h
    cases m' with
    | nil => have := e k; simp [Memory.read] at this
    | cons d m' =>
      obtain ⟨k', b'⟩ := d
      obtain ⟨hk', hm'⟩ := List.pairwise_cons.mp h'
      have hkk : k = k' := by
        rcases Nat.lt_trichotomy k k' with hlt | heq | hgt
        · have h1 := e k
          rw [Memory.read_eq_none (m := (k', b') :: m') (fun c hc => by
            rcases List.mem_cons.mp hc with rfl | hc
            · exact Nat.ne_of_gt hlt
            · exact Nat.ne_of_gt (Nat.lt_trans hlt (hk' c hc)))] at h1
          simp [Memory.read] at h1
        · exact heq
        · have h1 := e k'
          rw [Memory.read_eq_none (m := (k, b) :: m) (fun c hc => by
            rcases List.mem_cons.mp hc with rfl | hc
            · exact Nat.ne_of_gt hgt
            · exact Nat.ne_of_gt (Nat.lt_trans hgt (hk c hc)))] at h1
          simp [Memory.read] at h1
      subst hkk
      have hb := e k
      simp only [Memory.read, if_true, Option.some.injEq] at hb
      subst hb
      congr 1
      refine ih hm hm' fun a => ?_
      by_cases hak : a = k
      · subst hak
        rw [Memory.read_eq_none fun c hc => Nat.ne_of_gt (hk c hc),
          Memory.read_eq_none fun c hc => Nat.ne_of_gt (hk' c hc)]
      · simpa [Memory.read, hak] using e a

/-- Writing twice at one address keeps the second byte. -/
theorem Memory.write_write_same {m : Memory} (h : Memory.wf m) (a : Nat) (v w : Byte) :
    Memory.write (Memory.write m a v) a w = Memory.write m a w :=
  Memory.eq_of_read_eq (Memory.write_wf _ _ (Memory.write_wf _ _ h)) (Memory.write_wf _ _ h) fun a' => by
    simp only [Memory.read_write]; split <;> rfl

/-! ## Consecutive bytes -/

theorem Memory.read_writeAll (m : Memory) (a : Nat) (vs : List Byte) (a' : Nat) :
    Memory.read (Memory.writeAll m a vs) a' =
      if a ≤ a' ∧ a' < a + vs.length then vs[a' - a]? else Memory.read m a' := by
  induction vs generalizing m a with
  | nil => simp [Memory.writeAll]
  | cons v vs ih =>
    rw [Memory.writeAll, ih, List.length_cons]
    by_cases h1 : a + 1 ≤ a' ∧ a' < a + 1 + vs.length
    · rw [if_pos h1, if_pos (by omega), List.getElem?_cons, if_neg (by omega)]
      congr 1
    · rw [if_neg h1, Memory.read_write]
      by_cases h2 : a' = a
      · subst h2; simp
      · rw [if_neg h2, if_neg (by omega)]

theorem Memory.writeAll_append (m : Memory) (a : Nat) (vs ws : List Byte) :
    Memory.writeAll m a (vs ++ ws) = Memory.writeAll (Memory.writeAll m a vs) (a + vs.length) ws := by
  induction vs generalizing m a with
  | nil => rfl
  | cons v vs ih =>
    rw [List.cons_append, Memory.writeAll, ih, Memory.writeAll, List.length_cons]
    congr 1; omega

theorem Memory.writeAll_wf {m : Memory} (a : Nat) (vs : List Byte) (h : Memory.wf m) :
    Memory.wf (Memory.writeAll m a vs) := by
  induction vs generalizing m a with
  | nil => exact h
  | cons v vs ih => exact ih (a + 1) (Memory.write_wf a v h)

theorem Memory.writeAll_below {m : Memory} {cap : Nat} (a : Nat) (vs : List Byte) (h : Memory.below m cap)
    (hcap : a + vs.length ≤ cap) : Memory.below (Memory.writeAll m a vs) cap := by
  induction vs generalizing m a with
  | nil => exact h
  | cons v vs ih =>
    rw [List.length_cons] at hcap
    exact ih (a + 1) (Memory.write_below v h (by omega)) (by omega)

/-! ## Bytes of a state -/

theorem readBuf_storeBuf (s : State) (a a' : Nat) (v : Byte) :
    (s.storeBuf a v).readBuf a' = if a' = a then v else s.readBuf a' := by
  simp only [State.readBuf, storeBuf_bufMem, storeBuf_epoch, Memory.read_write]
  split <;> rfl

theorem readIn_storeIn (s : State) (a a' : Nat) (v : Byte) :
    (s.storeIn a v).readIn a' = if a' = a then v else s.readIn a' := by
  simp only [State.readIn, storeIn_inMem, storeIn_epoch, Memory.read_write]
  split <;> rfl

/-- A byte of IN depends only on IN and the number of resets. -/
theorem readIn_congr {s t : State} (hm : t.inMem = s.inMem) (he : t.epoch = s.epoch) (a : Nat) :
    t.readIn a = s.readIn a := by simp only [State.readIn, hm, he]

/-- A byte of BUF depends only on BUF and the number of resets. -/
theorem readBuf_congr {s t : State} (hm : t.bufMem = s.bufMem) (he : t.epoch = s.epoch) (a : Nat) :
    t.readBuf a = s.readBuf a := by simp only [State.readBuf, hm, he]

end Sys2Proof.Machine
end

