-- ==== Sys2Proof/Laws/Engine.lean ====
section
/-! SUPPORT. Engine procedures: sequencing, what every outcome of a procedure keeps, and the two ways a command ends. -/

namespace Sys2Proof.Machine

variable {α β : Type}

@[simp] theorem Eng.ok_bind (a : α) (s : State) (f : α → State → Eng β) : (Eng.ok a s).bind f = f a s := rfl
@[simp] theorem Eng.raise_bind (c : Cause) (v : Word) (s : State) (f : α → State → Eng β) :
    (Eng.raise c v s).bind f = .raise c v s := rfl
@[simp] theorem Eng.stuck_bind (e : Fault) (f : α → State → Eng β) : (Eng.stuck e).bind f = .stuck e := rfl
@[simp] theorem Eng.finish_ok (a : α) (s : State) : (Eng.ok a s).finish = .next s.complete := rfl
@[simp] theorem Eng.finish_raise (c : Cause) (v : Word) (s : State) :
    (Eng.raise c v s : Eng α).finish = .next (s.takeFault c v) := rfl
@[simp] theorem Eng.finish_stuck (e : Fault) : (Eng.stuck e : Eng α).finish = .fault e := rfl

theorem Eng.bind_assoc {γ : Type} (x : Eng α) (f : α → State → Eng β) (g : β → State → Eng γ) :
    (x.bind f).bind g = x.bind fun a s => (f a s).bind g := by cases x <;> rfl

/-- What holds of every state a procedure ends in, by value or by raise (`Q`), and of every raise (`R`). A stop says
nothing. -/
def Eng.Post (Q : State → Prop) (R : Cause → Word → State → Prop) (x : Eng α) : Prop :=
  match x with
  | .ok _ t => Q t
  | .raise c v t => Q t ∧ R c v t
  | .stuck _ => True

theorem Eng.Post.bind {Q Q' : State → Prop} {R : Cause → Word → State → Prop} {x : Eng α} {f : α → State → Eng β}
    (hx : x.Post Q R) (hQ : ∀ t, Q t → Q' t) (hf : ∀ a t, x = .ok a t → Q t → (f a t).Post Q' R) :
    (x.bind f).Post Q' R := by
  cases x with
  | ok a t => exact hf a t rfl hx
  | raise c v t => exact ⟨hQ t hx.1, hx.2⟩
  | stuck e => trivial

theorem Eng.Post.imp {Q Q' : State → Prop} {R R' : Cause → Word → State → Prop} {x : Eng α} (hx : x.Post Q R)
    (hQ : ∀ t, Q t → Q' t) (hR : ∀ c v t, R c v t → R' c v t) : x.Post Q' R' := by
  cases x with
  | ok a t => exact hQ t hx
  | raise c v t => exact ⟨hQ t hx.1, hR c v t hx.2⟩
  | stuck e => trivial

/-- A command whose rule ends as `Post` says ends so, completed or faulted. -/
theorem Eng.Post.finish {Q : State → Prop} {R : Cause → Word → State → Prop} {x : Eng α} {t : State} (hx : x.Post Q R)
    (h : x.finish = .next t) : (∃ u, Q u ∧ t = u.complete) ∨ ∃ c v u, Q u ∧ R c v u ∧ t = u.takeFault c v := by
  cases x with
  | ok a u => cases h; exact .inl ⟨u, hx, rfl⟩
  | raise c v u => cases h; exact .inr ⟨c, v, u, hx.1, hx.2, rfl⟩
  | stuck e => cases h

/-- A bind that ends in a value ran both parts. -/
theorem Eng.bind_eq_ok {x : Eng α} {f : α → State → Eng β} {b : β} {u : State} (h : x.bind f = .ok b u) :
    ∃ a t, x = .ok a t ∧ f a t = .ok b u := by
  cases x with
  | ok a t => exact ⟨a, t, rfl, h⟩
  | raise c v t => cases h
  | stuck e => cases h

/-- A bind that raises did so in its first part or in its second. -/
theorem Eng.bind_eq_raise {x : Eng α} {f : α → State → Eng β} {c : Cause} {v : Word} {u : State}
    (h : x.bind f = .raise c v u) : x = .raise c v u ∨ ∃ a t, x = .ok a t ∧ f a t = .raise c v u := by
  cases x with
  | ok a t => exact .inr ⟨a, t, rfl, h⟩
  | raise c' v' t => cases h; exact .inl rfl
  | stuck e => cases h

/-- The two ways a command's rule ends in a next state: completion (R204) or fault entry (R205). -/
theorem Eng.finish_eq_next {x : Eng α} {t : State} (h : x.finish = .next t) :
    (∃ a s, x = .ok a s ∧ t = s.complete) ∨ ∃ c v s, x = .raise c v s ∧ t = s.takeFault c v := by
  cases x with
  | ok a s => cases h; exact .inl ⟨a, s, rfl, rfl⟩
  | raise c v s => cases h; exact .inr ⟨c, v, s, rfl, rfl⟩
  | stuck e => cases h

/-- CheckOut either passes or raises BUF_RANGE, and changes nothing (R206). -/
theorem checkOut_cases (s : State) :
    (s.outFits ∧ checkOut s = .ok () s) ∨ (¬s.outFits ∧ checkOut s = .raise .bufRange 0 s) := by
  unfold checkOut
  split
  · exact .inl ⟨‹_›, rfl⟩
  · exact .inr ⟨‹_›, rfl⟩

/-- InByte either fetches the byte at IN_POS or raises EOS with nothing changed (R111). -/
theorem inByte_cases (s : State) :
    (s.inPos.toNat < s.eosLimit ∧ inByte s = .ok (s.readIn s.inPos.toNat) s.advanceIn) ∨
    (s.eosLimit ≤ s.inPos.toNat ∧ inByte s = .raise .eos s.inPos s) := by
  unfold inByte
  split
  · exact .inr ⟨‹_›, rfl⟩
  · exact .inl ⟨by omega, rfl⟩

theorem inByte_ok {s : State} (h : s.inPos.toNat < s.eosLimit) :
    inByte s = .ok (s.readIn s.inPos.toNat) s.advanceIn := by
  rcases inByte_cases s with ⟨-, h'⟩ | ⟨h', -⟩
  · exact h'
  · omega

theorem inByte_eos {s : State} (h : s.eosLimit ≤ s.inPos.toNat) : inByte s = .raise .eos s.inPos s := by
  rcases inByte_cases s with ⟨h', -⟩ | ⟨-, h'⟩
  · omega
  · exact h'

/-- EOS_LIMIT depends only on IN_END and the parameters. -/
theorem eosLimit_congr {s t : State} (he : t.inEnd = s.inEnd) (hp : t.par = s.par) : t.eosLimit = s.eosLimit := by
  simp only [State.eosLimit, he, hp]

theorem eosLimit_lt (s : State) : s.eosLimit < 2 ^ 32 :=
  Nat.lt_of_le_of_lt (Nat.min_le_left _ _) s.inEnd.isLt

/-- IN_POS never wraps: a fetch happens only below EOS_LIMIT (R21). -/
theorem advanceIn_inPos_toNat {s : State} (h : s.inPos.toNat < s.eosLimit) :
    s.advanceIn.inPos.toNat = s.inPos.toNat + 1 := by
  have := eosLimit_lt s
  rw [advanceIn_inPos, BitVec.toNat_add, show (1 : Word).toNat = 1 from rfl]
  omega

end Sys2Proof.Machine
end

