-- ==== Sys2Proof/Laws/BitReader.lean ====
section
/-! SUPPORT. The bit reader on the bits that are pending: ReadBit takes the first, and the closed form `afterBits` is the state after any number of them (40_bitreader.md R112, R117). -/

namespace Sys2Proof.Machine

/-! ## The cursor -/

theorem cursorBits_zero {c : Cursor} (h : c.mask = 0) : cursorBits c = [] := by
  rw [cursorBits, h, show maskLeft 0 = 0 by decide]; rfl

theorem cursorBits_full (b : Byte) : cursorBits ⟨b, 0x80⟩ = byteBits b := by
  rw [cursorBits, show maskLeft 0x80 = 8 by decide]; rfl

/-- After the first bit of a fetched byte, the cursor holds the other seven. -/
theorem cursorBits_fetched (b : Byte) : byteBits b = b.getLsbD 7 :: cursorBits ⟨b, 0x40⟩ := by
  rw [cursorBits, show maskLeft 0x40 = 7 by decide]; rfl

theorem byteBits_length (b : Byte) : (byteBits b).length = 8 := rfl

/-- The legal masks are 0 and the eight single bits. -/
theorem legalMasks_cases {m : Byte} (h : m ∈ legalMasks) : m = 0 ∨ ∃ k, k < 8 ∧ m = (0x80 : Byte) >>> k := by
  revert m; decide

theorem legalMasks_shift {m : Byte} (h : m ∈ legalMasks) : m >>> 1 ∈ legalMasks := by revert m; decide

theorem legalMasks_full_shift {k : Nat} (h : k < 8) : (0x80 : Byte) >>> k ∈ legalMasks := by revert k; decide

theorem maskLeft_le {m : Byte} (h : m ∈ legalMasks) : maskLeft m ≤ 8 := by revert m; decide

theorem maskLeft_eq_zero {m : Byte} : maskLeft m = 0 ↔ m = 0 := by revert m; decide

theorem maskLeft_full_shift {k : Nat} (h : k < 8) : maskLeft ((0x80 : Byte) >>> k) = 8 - k := by revert k; decide

theorem half_shift {n : Nat} (h : n < 8) : ((0x40 : Byte) >>> n : Byte) =
    if (n + 1) % 8 = 0 then (0 : Byte) else ((0x80 : Byte) >>> ((n + 1) % 8) : Byte) := by revert n; decide

theorem maskLeft_shift {m : Byte} (h : m ∈ legalMasks) : maskLeft (m >>> 1) = maskLeft m - 1 := by revert m; decide

theorem legalMask_shift_left {m : Byte} (h : m ∈ legalMasks) : m >>> maskLeft m = 0 := by revert m; decide

theorem cursorBits_length {c : Cursor} (h : c.mask ∈ legalMasks) : (cursorBits c).length = maskLeft c.mask := by
  have := maskLeft_le h
  simp only [cursorBits, List.length_drop, byteBits_length]
  omega

/-- The selected bit is the first of the cursor's bits. -/
theorem cursorBits_cons {c : Cursor} (h : c.mask ∈ legalMasks) (h0 : c.mask ≠ 0) :
    cursorBits c = ((c.byte &&& c.mask) != 0) :: cursorBits ⟨c.byte, c.mask >>> 1⟩ := by
  have key : ∀ m ∈ legalMasks, m ≠ 0 → ∀ b : Byte,
      (byteBits b).drop (8 - maskLeft m) = ((b &&& m) != 0) :: (byteBits b).drop (8 - maskLeft (m >>> 1)) := by decide
  exact key c.mask h h0 c.byte

/-! ## The pending bits -/

theorem streamBytes_eq_nil {s : State} {p : Nat} (h : s.eosLimit ≤ p) : s.streamBytes p = [] := by
  simp [State.streamBytes, Nat.sub_eq_zero_of_le h]

theorem streamBytes_cons {s : State} {p : Nat} (h : p < s.eosLimit) :
    s.streamBytes p = s.readIn p :: s.streamBytes (p + 1) := by
  rw [State.streamBytes, show s.eosLimit - p = (s.eosLimit - (p + 1)) + 1 by omega, List.range'_succ]
  rfl

theorem streamBytes_length (s : State) (p : Nat) : (s.streamBytes p).length = s.eosLimit - p := by
  simp [State.streamBytes]

/-- The stream depends only on IN, the resets, IN_END and the parameters. -/
theorem streamBytes_congr {s t : State} (hm : t.inMem = s.inMem) (he : t.epoch = s.epoch) (hend : t.inEnd = s.inEnd)
    (hp : t.par = s.par) (p : Nat) : t.streamBytes p = s.streamBytes p := by
  simp only [State.streamBytes, eosLimit_congr hend hp]
  exact List.map_congr_left fun a _ => readIn_congr hm he a

theorem flatMap_byteBits_length (bs : List Byte) : (bs.flatMap byteBits).length = 8 * bs.length := by
  induction bs with
  | nil => rfl
  | cons b bs ih => simp [List.flatMap_cons, byteBits_length]; omega

theorem pendingBits_length {s : State} (h : s.cursor.mask ∈ legalMasks) :
    s.pendingBits.length = maskLeft s.cursor.mask + 8 * (s.eosLimit - s.inPos.toNat) := by
  rw [State.pendingBits, List.length_append, cursorBits_length h, flatMap_byteBits_length, streamBytes_length]

/-! ## ReadBit -/

/-- The state after a ReadBit that does not refill. -/
theorem readBit_held {s : State} (h : s.cursor.mask ≠ 0) :
    readBit s = .ok ((s.cursor.byte &&& s.cursor.mask) != 0) (s.setCursor ⟨s.cursor.byte, s.cursor.mask >>> 1⟩) := by
  simp only [readBit, refill, if_neg h, Eng.ok_bind]

/-- A ReadBit that refills. -/
theorem readBit_refill {s : State} (h : s.cursor.mask = 0) (hp : s.inPos.toNat < s.eosLimit) :
    readBit s = .ok ((s.readIn s.inPos.toNat).getLsbD 7)
      (s.advanceIn.setCursor ⟨s.readIn s.inPos.toNat, 0x40⟩) := by
  have key : ∀ b : Byte, ((b &&& 0x80) != 0) = b.getLsbD 7 := by decide
  simp only [readBit, refill, h, if_true, inByte_ok hp, Eng.ok_bind, setCursor_cursor, key]
  rfl

/-- A ReadBit at the end of the stream changes nothing (R112, R115). -/
theorem readBit_eos {s : State} (h : s.cursor.mask = 0) (hp : s.eosLimit ≤ s.inPos.toNat) :
    readBit s = .raise .eos s.inPos s := by
  simp [readBit, refill, h, inByte_eos hp]

/-- Everything a ReadBit can do. -/
theorem readBit_cases (s : State) :
    (s.cursor.mask ≠ 0 ∧ readBit s =
      .ok ((s.cursor.byte &&& s.cursor.mask) != 0) (s.setCursor ⟨s.cursor.byte, s.cursor.mask >>> 1⟩)) ∨
    (s.cursor.mask = 0 ∧ s.inPos.toNat < s.eosLimit ∧ readBit s =
      .ok ((s.readIn s.inPos.toNat).getLsbD 7) (s.advanceIn.setCursor ⟨s.readIn s.inPos.toNat, 0x40⟩)) ∨
    (s.cursor.mask = 0 ∧ s.eosLimit ≤ s.inPos.toNat ∧ readBit s = .raise .eos s.inPos s) := by
  by_cases h : s.cursor.mask = 0
  · by_cases hp : s.inPos.toNat < s.eosLimit
    · exact .inr (.inl ⟨h, hp, readBit_refill h hp⟩)
    · exact .inr (.inr ⟨h, by omega, readBit_eos h (by omega)⟩)
  · exact .inl ⟨h, readBit_held h⟩

/-! ## The closed form -/

theorem afterBits_zero (s : State) : s.afterBits 0 = s := by
  simp only [State.afterBits, Nat.zero_le, if_true, BitVec.ushiftRight_zero]
  rfl

/-- `afterBits` writes the cursor and IN_POS and nothing else. -/
theorem afterBits_frame (s : State) (n : Nat) :
    s.afterBits n = { s with inPos := (s.afterBits n).inPos, cursor := (s.afterBits n).cursor } := by
  simp only [State.afterBits]; split <;> rfl

theorem afterBits_eosLimit (s : State) (n : Nat) : (s.afterBits n).eosLimit = s.eosLimit := by
  rw [afterBits_frame]; rfl

theorem afterBits_readIn (s : State) (n a : Nat) : (s.afterBits n).readIn a = s.readIn a := by
  rw [afterBits_frame]; rfl

theorem afterBits_mask_legal {s : State} (h : s.cursor.mask ∈ legalMasks) (n : Nat) :
    (s.afterBits n).cursor.mask ∈ legalMasks := by
  simp only [State.afterBits]
  split
  · have key : ∀ m ∈ legalMasks, ∀ n < 9, m >>> n ∈ legalMasks := by decide
    exact key _ h n (by have := maskLeft_le h; omega)
  · simp only
    split
    · decide
    · exact legalMasks_full_shift (Nat.mod_lt _ (by decide))

/-- A bit pending means the cursor holds one, or a byte can be fetched. -/
theorem fetchable_of_pending {s : State} {b : Bool} {rest : List Bool} (hb : s.pendingBits = b :: rest)
    (h0 : s.cursor.mask = 0) : s.inPos.toNat < s.eosLimit := by
  by_contra hp
  rw [State.pendingBits, cursorBits_zero h0, streamBytes_eq_nil (by omega)] at hb
  cases hb

theorem afterBits_one_held {s : State} (h : s.cursor.mask ≠ 0) :
    s.afterBits 1 = s.setCursor ⟨s.cursor.byte, s.cursor.mask >>> 1⟩ := by
  have : 1 ≤ maskLeft s.cursor.mask := Nat.one_le_iff_ne_zero.mpr (mt maskLeft_eq_zero.mp h)
  simp only [State.afterBits, this, if_true]

theorem afterBits_one_refill {s : State} (h : s.cursor.mask = 0) :
    s.afterBits 1 = s.advanceIn.setCursor ⟨s.readIn s.inPos.toNat, 0x40⟩ := by
  simp only [State.afterBits, maskLeft_eq_zero.mpr h]
  rfl

/-- ReadBit takes the first pending bit. -/
theorem readBit_pending {s : State} (h : s.cursor.mask ∈ legalMasks) {b : Bool} {rest : List Bool}
    (hb : s.pendingBits = b :: rest) :
    readBit s = .ok b (s.afterBits 1) ∧ (s.afterBits 1).pendingBits = rest := by
  by_cases h0 : s.cursor.mask = 0
  · have hp := fetchable_of_pending hb h0
    rw [State.pendingBits, cursorBits_zero h0, streamBytes_cons hp, List.flatMap_cons, List.nil_append,
      cursorBits_fetched, List.cons_append, List.cons.injEq] at hb
    rw [afterBits_one_refill h0, readBit_refill h0 hp]
    refine ⟨by rw [← hb.1], ?_⟩
    rw [← hb.2, State.pendingBits, setCursor_cursor, setCursor_inPos, advanceIn_inPos_toNat hp,
      streamBytes_congr (s := s) (t := s.advanceIn.setCursor _) rfl rfl rfl rfl]
  · rw [State.pendingBits, cursorBits_cons h h0, List.cons_append, List.cons.injEq] at hb
    rw [afterBits_one_held h0, readBit_held h0, hb.1]
    refine ⟨rfl, ?_⟩
    rw [← hb.2, State.pendingBits,
      streamBytes_congr (s := s) (t := s.setCursor ⟨s.cursor.byte, s.cursor.mask >>> 1⟩) rfl rfl rfl rfl]
    rfl

/-- With no pending bit, ReadBit raises EOS and changes nothing. -/
theorem readBit_exhausted {s : State} (h : s.cursor.mask ∈ legalMasks) (hb : s.pendingBits = []) :
    readBit s = .raise .eos s.inPos s := by
  have hl := pendingBits_length h
  rw [hb, List.length_nil] at hl
  exact readBit_eos (maskLeft_eq_zero.mp (by omega)) (by omega)

/-- One bit, then `n` more. -/
theorem afterBits_one_add {s : State} (h : s.cursor.mask ∈ legalMasks) (hb : s.pendingBits ≠ []) (n : Nat) :
    (s.afterBits 1).afterBits n = s.afterBits (n + 1) := by
  obtain ⟨b, rest, hb⟩ := List.exists_cons_of_ne_nil hb
  by_cases h0 : s.cursor.mask = 0
  · have hp := fetchable_of_pending hb h0
    have hpos := advanceIn_inPos_toNat hp
    rw [advanceIn_inPos] at hpos
    have h40 : maskLeft (0x40 : Byte) = 7 := by decide
    rw [afterBits_one_refill h0]
    simp only [State.afterBits, setCursor_cursor, setCursor_inPos, advanceIn_inPos, h40, maskLeft_eq_zero.mpr h0,
      hpos, Nat.sub_zero]
    rw [if_neg (show ¬n + 1 ≤ 0 by omega)]
    by_cases hn : n ≤ 7
    · rw [if_pos hn, show (n + 1 + 7) / 8 = 1 by omega, show s.inPos.toNat + 1 - 1 = s.inPos.toNat by omega]
      rw [← half_shift (show n < 8 by omega)]
      rfl
    · rw [if_neg hn, show (n - 7 + 7) / 8 = n / 8 by omega, show (n + 1 + 7) / 8 = n / 8 + 1 by omega,
        show (n - 7) % 8 = (n + 1) % 8 by omega,
        show s.inPos.toNat + 1 + n / 8 - 1 = s.inPos.toNat + (n / 8 + 1) - 1 by omega,
        show Word.ofNat (n / 8 + 1) = 1 + Word.ofNat (n / 8) by
          rw [Word.ofNat, BitVec.ofNat_add, BitVec.add_comm]; rfl,
        ← BitVec.add_assoc]
      rfl
  · have h1 : 1 ≤ maskLeft s.cursor.mask := Nat.one_le_iff_ne_zero.mpr (mt maskLeft_eq_zero.mp h0)
    rw [afterBits_one_held h0]
    simp only [State.afterBits, setCursor_cursor, setCursor_inPos, maskLeft_shift h]
    by_cases hn : n + 1 ≤ maskLeft s.cursor.mask
    · rw [if_pos hn, if_pos (by omega), ← BitVec.shiftRight_add, Nat.add_comm]
      rfl
    · rw [if_neg hn, if_neg (by omega), show n - (maskLeft s.cursor.mask - 1) = n + 1 - maskLeft s.cursor.mask by omega]
      rfl

/-- ReadBit called once for each of a list of pending bits returns that list (R117). -/
theorem readBitSeq_pending {s : State} (h : s.cursor.mask ∈ legalMasks) {bs rest : List Bool}
    (hb : s.pendingBits = bs ++ rest) :
    readBitSeq bs.length s = .ok bs (s.afterBits bs.length) ∧ (s.afterBits bs.length).pendingBits = rest := by
  induction bs generalizing s with
  | nil => rw [List.length_nil, afterBits_zero]; exact ⟨rfl, hb⟩
  | cons b bs ih =>
    obtain ⟨h1, h2⟩ := readBit_pending h hb
    obtain ⟨h3, h4⟩ := ih (afterBits_mask_legal h 1) h2
    rw [List.length_cons, ← afterBits_one_add h (by rw [hb]; exact List.cons_ne_nil _ _)]
    exact ⟨by rw [readBitSeq, h1, Eng.ok_bind, h3]; rfl, h4⟩

/-- The bits pending after `n` of them. -/
theorem afterBits_pendingBits {s : State} (h : s.cursor.mask ∈ legalMasks) {bs rest : List Bool}
    (hb : s.pendingBits = bs ++ rest) : (s.afterBits bs.length).pendingBits = rest := (readBitSeq_pending h hb).2

/-- `afterBits` adds up. -/
theorem afterBits_add {s : State} (h : s.cursor.mask ∈ legalMasks) {n : Nat} (hn : n ≤ s.pendingBits.length) (m : Nat) :
    (s.afterBits n).afterBits m = s.afterBits (n + m) := by
  induction n generalizing s with
  | zero => rw [afterBits_zero, Nat.zero_add]
  | succ n ih =>
    have hne : s.pendingBits ≠ [] := by intro h; simp [h] at hn
    obtain ⟨b, rest, hb⟩ := List.exists_cons_of_ne_nil hne
    have hrest := (readBit_pending h hb).2
    rw [← afterBits_one_add h hne, ih (afterBits_mask_legal h 1) (by rw [hrest]; simp [hb] at hn; omega),
      afterBits_one_add h hne, show n + 1 + m = n + m + 1 by omega]

/-! ## ReadByte -/

theorem readBits_pending {s : State} (h : s.cursor.mask ∈ legalMasks) {bs rest : List Bool}
    (hb : s.pendingBits = bs ++ rest) (v : Byte) :
    readBits bs.length v s = .ok (bs.foldl shiftIn v) (s.afterBits bs.length) := by
  induction bs generalizing s v with
  | nil => rw [List.length_nil, afterBits_zero]; rfl
  | cons b bs ih =>
    obtain ⟨h1, h2⟩ := readBit_pending h hb
    rw [List.length_cons, readBits, h1, Eng.ok_bind, ih (afterBits_mask_legal h 1) h2,
      afterBits_one_add h (by rw [hb]; exact List.cons_ne_nil _ _)]
    rfl

/-- Eight pending bits make one byte, the first as bit 7 (R113). -/
theorem readByte_pending {s : State} (h : s.cursor.mask ∈ legalMasks) {bs rest : List Bool} (hl : bs.length = 8)
    (hb : s.pendingBits = bs ++ rest) : readByte s = .ok (byteOfBits bs) (s.afterBits 8) := by
  have := readBits_pending h hb 0
  rwa [hl] at this

/-- Fewer bits than asked for: all of them are taken, then EOS at the end of the stream (R116, R118). -/
theorem readBits_short {s : State} (h : s.cursor.mask ∈ legalMasks) {n : Nat} (hn : s.pendingBits.length < n)
    (v : Byte) :
    readBits n v s = .raise .eos (s.afterBits s.pendingBits.length).inPos (s.afterBits s.pendingBits.length) := by
  induction n generalizing s v with
  | zero => omega
  | succ n ih =>
    match hb : s.pendingBits with
    | [] => rw [List.length_nil, afterBits_zero, readBits, readBit_exhausted h hb]; rfl
    | b :: rest =>
      obtain ⟨h1, h2⟩ := readBit_pending h hb
      rw [readBits, h1, Eng.ok_bind, ih (afterBits_mask_legal h 1) (by rw [h2]; rw [hb] at hn; simpa using hn), h2,
        afterBits_one_add h (by rw [hb]; exact List.cons_ne_nil _ _)]
      rfl

/-- A byte is the byte of its own bits. -/
theorem byteOfBits_byteBits (b : Byte) : byteOfBits (byteBits b) = b := by revert b; decide

end Sys2Proof.Machine
end

