-- ==== Sys2Proof/Laws/Huffman.lean ====
section
/-! SUPPORT. Deser and DecodeSym against trees: what each does on every stream, in terms of the grammar R130, the codes R133 and the pre-order layout of the arena (41_huffman.md). -/

namespace Sys2Proof.Machine

/-! ## Trees -/

theorem CodeTree.size_pos (t : CodeTree) : 0 < t.size := by cases t <;> simp [CodeTree.size]

theorem CodeTree.layout_length (t : CodeTree) (n : Nat) : (t.layout n).length = t.size := by
  induction t generalizing n with
  | leaf v => rfl
  | node l r ihl ihr => simp [CodeTree.layout, CodeTree.size, ihl, ihr]

theorem CodeTree.depth_lt_size (t : CodeTree) : t.depth < t.size := by
  induction t with
  | leaf v => simp [CodeTree.depth, CodeTree.size]
  | node l r ihl ihr => simp only [CodeTree.depth, CodeTree.size]; omega

/-- R134: L leaves give 2L - 1 nodes. -/
theorem CodeTree.size_eq (t : CodeTree) : t.size + 1 = 2 * t.leaves := by
  induction t with
  | leaf v => rfl
  | node l r ihl ihr => simp only [CodeTree.leaves, CodeTree.size]; omega

/-- R134: a serialized form has 11L - 2 bits, whatever its separators. -/
theorem CodeTree.Serial.length {t : CodeTree} {bs : List Bool} (h : CodeTree.Serial t bs) : bs.length + 2 = 11 * t.leaves := by
  induction h with
  | leaf v => rfl
  | node sep _ _ ihl ihr => simp only [List.length_cons, List.length_append, CodeTree.leaves]; omega

theorem CodeTree.ser_serial (t : CodeTree) : CodeTree.Serial t t.ser := by
  induction t with
  | leaf v => exact .leaf v
  | node l r ihl ihr => exact .node false ihl ihr

/-! ## The tree registers -/

/-- The arena and its count replaced. -/
def State.withTree (s : State) (a : List Node) (k : Word) : State := { s with arena := a, treeNodes := k }

@[simp] theorem withTree_arena (s : State) (a : List Node) (k : Word) : (s.withTree a k).arena = a := rfl
@[simp] theorem withTree_treeNodes (s : State) (a : List Node) (k : Word) : (s.withTree a k).treeNodes = k := rfl
@[simp] theorem withTree_cursor (s : State) (a : List Node) (k : Word) : (s.withTree a k).cursor = s.cursor := rfl
@[simp] theorem withTree_inPos (s : State) (a : List Node) (k : Word) : (s.withTree a k).inPos = s.inPos := rfl
@[simp] theorem withTree_par (s : State) (a : List Node) (k : Word) : (s.withTree a k).par = s.par := rfl
@[simp] theorem withTree_eosLimit (s : State) (a : List Node) (k : Word) : (s.withTree a k).eosLimit = s.eosLimit := rfl
@[simp] theorem withTree_pendingBits (s : State) (a : List Node) (k : Word) :
    (s.withTree a k).pendingBits = s.pendingBits := rfl
@[simp] theorem withTree_withTree (s : State) (a a' : List Node) (k k' : Word) :
    (s.withTree a k).withTree a' k' = s.withTree a' k' := rfl

theorem withTree_self (s : State) : s.withTree s.arena s.treeNodes = s := rfl

theorem afterBits_withTree (s : State) (a : List Node) (k : Word) (n : Nat) :
    (s.withTree a k).afterBits n = (s.afterBits n).withTree a k := by
  by_cases h : n ≤ maskLeft s.cursor.mask <;> simp only [State.afterBits, withTree_cursor, h, if_true, if_false] <;> rfl

@[simp] theorem afterBits_arena (s : State) (n : Nat) : (s.afterBits n).arena = s.arena := by rw [afterBits_frame]
@[simp] theorem afterBits_treeNodes (s : State) (n : Nat) : (s.afterBits n).treeNodes = s.treeNodes := by
  rw [afterBits_frame]
@[simp] theorem afterBits_par (s : State) (n : Nat) : (s.afterBits n).par = s.par := by rw [afterBits_frame]
@[simp] theorem afterBits_status (s : State) (n : Nat) : (s.afterBits n).status = s.status := by rw [afterBits_frame]
@[simp] theorem afterBits_outSize (s : State) (n : Nat) : (s.afterBits n).outSize = s.outSize := by rw [afterBits_frame]
@[simp] theorem afterBits_outBase (s : State) (n : Nat) : (s.afterBits n).outBase = s.outBase := by rw [afterBits_frame]
@[simp] theorem afterBits_bufMem (s : State) (n : Nat) : (s.afterBits n).bufMem = s.bufMem := by rw [afterBits_frame]
@[simp] theorem afterBits_progress (s : State) (n : Nat) : (s.afterBits n).progress = s.progress := by
  rw [afterBits_frame]

theorem allocNode_eq (s : State) : s.allocNode = s.withTree (s.arena ++ [.pending]) (s.treeNodes + 1) := rfl

theorem setNode_eq (s : State) (n : Nat) (v : Node) : s.setNode n v = s.withTree (s.arena.set n v) s.treeNodes := rfl

/-- A ReadBit on any stream: the first pending bit, or EOS with nothing changed. -/
theorem readBit_total {s : State} (h : s.cursor.mask ∈ legalMasks) :
    (∃ b rest, s.pendingBits = b :: rest ∧ readBit s = .ok b (s.afterBits 1) ∧ (s.afterBits 1).pendingBits = rest) ∨
    (s.pendingBits = [] ∧ s.eosLimit ≤ s.inPos.toNat ∧ readBit s = .raise .eos s.inPos s) := by
  cases hb : s.pendingBits with
  | nil =>
    have hl := pendingBits_length h
    rw [hb, List.length_nil] at hl
    exact .inr ⟨rfl, by omega, readBit_exhausted h hb⟩
  | cons b rest =>
    obtain ⟨h1, h2⟩ := readBit_pending h hb
    exact .inl ⟨b, rest, rfl, h1, h2⟩

/-- The state in which every pending bit has been taken stands at the end of the stream. -/
theorem afterBits_all_eos {s : State} (h : s.cursor.mask ∈ legalMasks) :
    (s.afterBits s.pendingBits.length).eosLimit ≤ (s.afterBits s.pendingBits.length).inPos.toNat := by
  have h1 := (readBitSeq_pending h (bs := s.pendingBits) (rest := []) (by simp)).2
  have h2 := pendingBits_length (afterBits_mask_legal h s.pendingBits.length)
  rw [h1, List.length_nil] at h2
  omega

/-- A ReadByte on any stream: the next eight pending bits, or all of them and EOS. -/
theorem readByte_total {s : State} (h : s.cursor.mask ∈ legalMasks) :
    (∃ bs rest, bs.length = 8 ∧ s.pendingBits = bs ++ rest ∧ readByte s = .ok (byteOfBits bs) (s.afterBits 8) ∧
      (s.afterBits 8).pendingBits = rest) ∨
    (s.pendingBits.length < 8 ∧ readByte s =
      .raise .eos (s.afterBits s.pendingBits.length).inPos (s.afterBits s.pendingBits.length)) := by
  by_cases hl : 8 ≤ s.pendingBits.length
  · have hsplit : s.pendingBits = s.pendingBits.take 8 ++ s.pendingBits.drop 8 := (List.take_append_drop 8 _).symm
    have h8 : (s.pendingBits.take 8).length = 8 := by simpa using hl
    refine .inl ⟨_, _, h8, hsplit, readByte_pending h h8 hsplit, ?_⟩
    have := afterBits_pendingBits h hsplit
    rwa [h8] at this
  · exact .inr ⟨by omega, readBits_short h (by omega) 0⟩

/-- The bits of the byte made of eight bits are those bits. -/
theorem byteBits_byteOfBits {bs : List Bool} (h : bs.length = 8) : byteBits (byteOfBits bs) = bs := by
  match bs, h with
  | [a, b, c, d, e, f, g, i], _ => revert a b c d e f g i; decide

theorem set_append_pending (a : List Node) (v : Node) (b : List Node) :
    (a ++ .pending :: b).set a.length v = a ++ v :: b := by
  rw [List.set_append_right _ _ (Nat.le_refl _), Nat.sub_self, List.set_cons_zero]

/-! ## Deser -/

/-- What Deser can do, from a state whose arena is counted by TREE_NODES (R131): it reads a serialized tree and appends its
layout; or it raises one of three faults, with bits taken from the front of the stream and entries appended. -/
def DeserPost (levels d : Nat) (s : State) : Eng Nat → Prop
  | .ok n t => ∃ (T : CodeTree) (bs : List Bool), T.depth < levels ∧ CodeTree.Serial T bs ∧
      s.pendingBits = bs ++ t.pendingBits ∧ n = s.arena.length ∧ s.arena.length + T.size ≤ s.par.nodeCap ∧
      t = (s.afterBits bs.length).withTree (s.arena ++ T.layout s.arena.length) (s.treeNodes + Word.ofNat T.size)
  | .raise c v t => ∃ (m : Nat) (a : List Node) (k : Word), m ≤ s.pendingBits.length ∧
      t = (s.afterBits m).withTree (s.arena ++ a) k ∧ (s.arena ++ a).length = k.toNat ∧ k.toNat ≤ s.par.nodeCap ∧
      ((c = .eos ∧ v = t.inPos ∧ t.eosLimit ≤ t.inPos.toNat ∧ m = s.pendingBits.length) ∨
       (c = .treeOverflow ∧ v = Word.ofNat s.par.nodeCap ∧ k.toNat = s.par.nodeCap) ∨
       (c = .depthOverflow ∧ v = Word.ofNat (d + levels)))
  | .stuck _ => False

/-- The raise clause of `DeserPost` for a call inside another: later in the stream, with more entries before it. -/
theorem deserPost_raise_lift {levels d m0 : Nat} {s s0 : State} {a0 : List Node} {k0 : Word}
    (h : s.cursor.mask ∈ legalMasks) (hm0 : m0 ≤ s.pendingBits.length)
    (hs0 : s0 = (s.afterBits m0).withTree (s.arena ++ a0) k0) {c : Cause} {v : Word} {t : State}
    (hp : DeserPost levels (d + 1) s0 (.raise c v t)) : DeserPost (levels + 1) d s (.raise c v t) := by
  subst hs0
  obtain ⟨m, a, k, hm, ht, hlen, hk, hc⟩ := hp
  have hsplit : s.pendingBits = s.pendingBits.take m0 ++ s.pendingBits.drop m0 := (List.take_append_drop m0 _).symm
  have hl0 : (s.pendingBits.take m0).length = m0 := by simpa using hm0
  have hrest := afterBits_pendingBits h hsplit
  rw [hl0] at hrest
  simp only [withTree_pendingBits, hrest, List.length_drop] at hm hc
  simp only [withTree_arena, withTree_par, afterBits_par, List.append_assoc, afterBits_withTree,
    withTree_withTree] at ht hlen hk hc
  rw [afterBits_add h hm0] at ht
  refine ⟨m0 + m, a0 ++ a, k, by omega, ht, hlen, hk, ?_⟩
  rcases hc with ⟨h1, h2, h3, h4⟩ | h1 | ⟨h1, h2⟩
  · exact .inl ⟨h1, h2, h3, by omega⟩
  · exact .inr (.inl h1)
  · exact .inr (.inr ⟨h1, by rw [h2]; congr 1; omega⟩)

theorem add_ofNat_toNat {k : Word} {n : Nat} (h : k.toNat + n < 2 ^ 32) : (k + Word.ofNat n).toNat = k.toNat + n := by
  rw [BitVec.toNat_add, BitVec.toNat_ofNat]; omega

theorem deser_post {levels : Nat} (d : Nat) {s : State} (h : s.cursor.mask ∈ legalMasks)
    (hlen : s.arena.length = s.treeNodes.toNat) (hcap : s.treeNodes.toNat ≤ s.par.nodeCap)
    (hbig : s.par.nodeCap < 2 ^ 32) : DeserPost levels d s (deser levels d s) := by
  induction levels generalizing d s with
  | zero =>
    exact ⟨0, [], s.treeNodes, Nat.zero_le _, by rw [afterBits_zero, List.append_nil]; rfl, by simpa using hlen, hcap,
      .inr (.inr ⟨rfl, rfl⟩)⟩
  | succ levels ih =>
    rw [deser]
    rcases readBit_total h with ⟨t, rest, hb, hread, hrest⟩ | ⟨hb, hend, hread⟩
    swap
    · rw [hread, Eng.raise_bind]
      exact ⟨0, [], s.treeNodes, Nat.zero_le _, by rw [afterBits_zero, List.append_nil]; rfl, by simpa using hlen, hcap,
        .inl ⟨rfl, rfl, hend, by rw [hb]; rfl⟩⟩
    rw [hread, Eng.ok_bind]
    have h1 := afterBits_mask_legal h 1
    have hpos : 1 ≤ s.pendingBits.length := by rw [hb]; simp
    simp only [afterBits_treeNodes, afterBits_par]
    by_cases hfull : s.treeNodes.toNat = s.par.nodeCap
    · rw [if_pos hfull]
      exact ⟨1, [], s.treeNodes, hpos, by rw [List.append_nil]; rw [afterBits_frame]; rfl, by simpa using hlen, hcap,
        .inr (.inl ⟨rfl, rfl, hfull⟩)⟩
    rw [if_neg hfull]
    have hk1 : (s.treeNodes + 1).toNat = s.treeNodes.toNat + 1 := by
      rw [BitVec.toNat_add, show (1 : Word).toNat = 1 from rfl]; omega
    have hs1 : (s.afterBits 1).allocNode = (s.afterBits 1).withTree (s.arena ++ [.pending]) (s.treeNodes + 1) := by
      rw [allocNode_eq, afterBits_arena, afterBits_treeNodes]
    rw [hs1]
    cases t with
    | true =>
      rw [if_pos rfl]
      rcases readByte_total (s := (s.afterBits 1).withTree (s.arena ++ [.pending]) (s.treeNodes + 1)) h1 with
        ⟨bs, rest', h8, hbits, hbyte, hrest'⟩ | ⟨hshort, hbyte⟩
      · rw [hbyte, Eng.ok_bind]
        rw [withTree_pendingBits, hrest] at hbits
        have hadd : (s.afterBits 1).afterBits 8 = s.afterBits 9 := afterBits_add h hpos 8
        refine ⟨.leaf (byteOfBits bs), true :: bs, Nat.succ_pos _, ?_, ?_, hlen.symm, ?_, ?_⟩
        · have := CodeTree.Serial.leaf (byteOfBits bs)
          rwa [byteBits_byteOfBits h8] at this
        · rw [hb, hbits, ← hrest']; rfl
        · simp only [CodeTree.size]; omega
        · simp only [List.length_cons, h8, afterBits_withTree, hadd, CodeTree.layout, setNode_eq, withTree_arena,
            withTree_treeNodes, withTree_withTree, CodeTree.size]
          rw [← hlen, set_append_pending]
          rfl
      · rw [hbyte, Eng.raise_bind]
        rw [withTree_pendingBits, hrest] at hshort ⊢
        refine ⟨1 + rest.length, [.pending], s.treeNodes + 1, by rw [hb]; simp; omega, ?_, by
          rw [hk1, List.length_append, hlen]; rfl, by omega,
          .inl ⟨rfl, rfl, ?_, by rw [hb]; simp; omega⟩⟩
        · rw [afterBits_withTree, afterBits_add h hpos]
        · have := afterBits_all_eos (s := (s.afterBits 1).withTree (s.arena ++ [.pending]) (s.treeNodes + 1)) h1
          rwa [withTree_pendingBits, hrest] at this
    | false =>
      rw [if_neg Bool.false_ne_true]
      have hL := ih (d + 1) (s := (s.afterBits 1).withTree (s.arena ++ [.pending]) (s.treeNodes + 1)) h1
        (by rw [withTree_arena, withTree_treeNodes, hk1]; simp [hlen])
        (by rw [withTree_treeNodes, hk1, withTree_par, afterBits_par]; omega)
        (by rw [withTree_par, afterBits_par]; exact hbig)
      cases hdl : deser levels (d + 1) ((s.afterBits 1).withTree (s.arena ++ [.pending]) (s.treeNodes + 1)) with
      | stuck e => rw [hdl] at hL; exact hL.elim
      | raise c v t =>
        rw [hdl] at hL
        exact deserPost_raise_lift h hpos rfl hL
      | ok l u =>
        rw [hdl] at hL
        obtain ⟨L, bl, hLd, hLs, hLb, hl, hLcap, hu⟩ := hL
        rw [Eng.ok_bind]
        simp only [withTree_arena, withTree_treeNodes, withTree_par, afterBits_par, withTree_pendingBits, hrest,
          List.length_append, List.length_singleton, List.append_assoc, afterBits_withTree, withTree_withTree,
          afterBits_add h hpos] at hLb hl hLcap hu
        have hm2 : 1 + bl.length ≤ s.pendingBits.length := by rw [hb, hLb]; simp; omega
        have hk2 : (s.treeNodes + 1 + Word.ofNat L.size).toNat = s.treeNodes.toNat + 1 + L.size := by
          rw [add_ofNat_toNat (by omega), hk1]
        have hu1 : u.cursor.mask ∈ legalMasks := by rw [hu]; exact afterBits_mask_legal h _
        rcases readBit_total hu1 with ⟨sep, rest2, hb2, hread2, hrest2⟩ | ⟨hb2, hend2, hread2⟩
        swap
        · rw [hread2, Eng.raise_bind]
          refine ⟨1 + bl.length, _, _, hm2, hu, ?_, by omega, .inl ⟨rfl, rfl, hend2, ?_⟩⟩
          · rw [hk2]; simp [CodeTree.layout_length]; omega
          · rw [hb, hLb, hb2]; simp; omega
        rw [hread2, Eng.ok_bind]
        have hv : u.afterBits 1 = (s.afterBits (1 + bl.length + 1)).withTree
            (s.arena ++ ([.pending] ++ L.layout (s.arena.length + 1))) (s.treeNodes + 1 + Word.ofNat L.size) := by
          rw [hu, afterBits_withTree, afterBits_add h hm2]
        rw [hv] at hrest2 ⊢
        have hm3 : 1 + bl.length + 1 ≤ s.pendingBits.length := by rw [hb, hLb, hb2]; simp; omega
        have h3 := afterBits_mask_legal h (1 + bl.length + 1)
        have hR := ih (d + 1) (s := (s.afterBits (1 + bl.length + 1)).withTree
            (s.arena ++ ([.pending] ++ L.layout (s.arena.length + 1))) (s.treeNodes + 1 + Word.ofNat L.size)) h3
          (by rw [withTree_arena, withTree_treeNodes, hk2]; simp [CodeTree.layout_length]; omega)
          (by rw [withTree_treeNodes, hk2, withTree_par, afterBits_par]; omega)
          (by rw [withTree_par, afterBits_par]; exact hbig)
        cases hdr : deser levels (d + 1) ((s.afterBits (1 + bl.length + 1)).withTree
            (s.arena ++ ([.pending] ++ L.layout (s.arena.length + 1))) (s.treeNodes + 1 + Word.ofNat L.size)) with
        | stuck e => rw [hdr] at hR; exact hR.elim
        | raise c v t =>
          rw [hdr] at hR
          exact deserPost_raise_lift h hm3 rfl hR
        | ok r w =>
          rw [hdr] at hR
          obtain ⟨R, br, hRd, hRs, hRb, hr, hRcap, hw⟩ := hR
          rw [Eng.ok_bind]
          simp only [withTree_arena, withTree_treeNodes, withTree_par, afterBits_par, withTree_pendingBits,
            List.length_append, List.length_singleton, List.append_assoc, afterBits_withTree, withTree_withTree,
            CodeTree.layout_length, afterBits_add h hm3] at hRb hr hRcap hw hrest2
          have hbits : s.pendingBits = (false :: (bl ++ sep :: br)) ++ w.pendingBits := by
            rw [hb, hLb, hb2, ← hrest2, hRb]; simp
          refine ⟨.node L R, false :: (bl ++ sep :: br), by simp only [CodeTree.depth]; omega, .node sep hLs hRs, hbits,
            hlen.symm, by simp only [CodeTree.size]; omega, ?_⟩
          rw [hw, setNode_eq, hl, hr, withTree_arena, withTree_treeNodes, withTree_withTree, ← hlen,
            List.singleton_append, set_append_pending, CodeTree.layout, List.length_cons, List.length_append,
            List.length_cons, Nat.add_assoc s.arena.length 1 L.size, CodeTree.size]
          congr 1
          · congr 1; omega
          · simp only [Word.ofNat, BitVec.ofNat_add]
            rw [BitVec.add_assoc, BitVec.add_assoc, BitVec.add_comm (1 : Word), BitVec.add_assoc,
              BitVec.add_assoc (BitVec.ofNat 32 L.size)]
            rfl

/-- Deser on a stream that starts with a serialized tree which fits: it takes exactly the tree's bits and appends its
layout (R130, R131, R134). -/
theorem deser_serial {T : CodeTree} {bs : List Bool} (hT : CodeTree.Serial T bs) {levels : Nat} (d : Nat) {s : State}
    {rest : List Bool} (h : s.cursor.mask ∈ legalMasks) (hb : s.pendingBits = bs ++ rest)
    (hlen : s.arena.length = s.treeNodes.toNat) (hd : T.depth < levels)
    (hfit : s.treeNodes.toNat + T.size ≤ s.par.nodeCap) (hbig : s.par.nodeCap < 2 ^ 32) :
    deser levels d s = .ok s.arena.length
      ((s.afterBits bs.length).withTree (s.arena ++ T.layout s.arena.length) (s.treeNodes + Word.ofNat T.size)) := by
  induction hT generalizing levels d s rest with
  | leaf v =>
    obtain ⟨levels, rfl⟩ := Nat.exists_eq_succ_of_ne_zero (Nat.ne_of_gt hd)
    simp only [CodeTree.size] at hfit
    obtain ⟨hread, hrest⟩ := readBit_pending h hb
    have h8 := readByte_pending (s := (s.afterBits 1).withTree (s.arena ++ [.pending]) (s.treeNodes + 1))
      (afterBits_mask_legal h 1) (byteBits_length v) hrest
    rw [deser, hread, Eng.ok_bind]
    simp only [afterBits_treeNodes, afterBits_par, allocNode_eq, afterBits_arena]
    rw [if_neg (by omega), if_pos trivial, h8, Eng.ok_bind, byteOfBits_byteBits, afterBits_withTree,
      afterBits_add h (by rw [hb]; simp), setNode_eq, withTree_withTree, withTree_arena, withTree_treeNodes, ← hlen,
      set_append_pending]
    rfl
  | @node l r bl br sep hl hr ihl ihr =>
    obtain ⟨levels, rfl⟩ := Nat.exists_eq_succ_of_ne_zero (Nat.ne_of_gt (Nat.lt_of_le_of_lt (Nat.zero_le _) hd))
    simp only [CodeTree.size, CodeTree.depth] at hfit hd
    rw [List.cons_append] at hb
    obtain ⟨hread, hrest⟩ := readBit_pending h hb
    rw [List.append_assoc] at hrest
    have hk1 : (s.treeNodes + 1).toNat = s.treeNodes.toNat + 1 := by
      rw [BitVec.toNat_add, show (1 : Word).toNat = 1 from rfl]; omega
    have hpos : 1 ≤ s.pendingBits.length := by rw [hb]; simp
    have hL := ihl (levels := levels) (d + 1)
      (s := (s.afterBits 1).withTree (s.arena ++ [.pending]) (s.treeNodes + 1)) (afterBits_mask_legal h 1) hrest
      (by rw [withTree_arena, withTree_treeNodes, hk1, List.length_append, hlen]; rfl) (by omega)
      (by rw [withTree_treeNodes, hk1, withTree_par, afterBits_par]; omega)
      (by rw [withTree_par, afterBits_par]; exact hbig)
    simp only [withTree_arena, withTree_treeNodes, afterBits_withTree, withTree_withTree, afterBits_add h hpos,
      List.length_append, List.length_singleton, List.append_assoc] at hL
    have hm2 : 1 + bl.length ≤ s.pendingBits.length := by rw [hb]; simp; omega
    have hrest2 : (s.afterBits (1 + bl.length)).pendingBits = sep :: (br ++ rest) := by
      have := afterBits_pendingBits h (bs := false :: bl) (rest := sep :: (br ++ rest)) (by rw [hb]; simp)
      rwa [List.length_cons, Nat.add_comm] at this
    obtain ⟨hread2, hrest3⟩ := readBit_pending (s := (s.afterBits (1 + bl.length)).withTree
      (s.arena ++ ([.pending] ++ l.layout (s.arena.length + 1))) (s.treeNodes + 1 + Word.ofNat l.size))
      (afterBits_mask_legal h _) hrest2
    rw [afterBits_withTree, afterBits_add h hm2] at hread2 hrest3
    have hk2 : (s.treeNodes + 1 + Word.ofNat l.size).toNat = s.treeNodes.toNat + 1 + l.size := by
      rw [add_ofNat_toNat (by omega), hk1]
    have hm3 : 1 + bl.length + 1 ≤ s.pendingBits.length := by rw [hb]; simp; omega
    have hR := ihr (levels := levels) (d + 1) (s := (s.afterBits (1 + bl.length + 1)).withTree
      (s.arena ++ ([.pending] ++ l.layout (s.arena.length + 1))) (s.treeNodes + 1 + Word.ofNat l.size))
      (afterBits_mask_legal h _) hrest3
      (by rw [withTree_arena, withTree_treeNodes, hk2]; simp [CodeTree.layout_length]; omega) (by omega)
      (by rw [withTree_treeNodes, hk2, withTree_par, afterBits_par]; omega)
      (by rw [withTree_par, afterBits_par]; exact hbig)
    simp only [withTree_arena, withTree_treeNodes, afterBits_withTree, withTree_withTree, afterBits_add h hm3,
      List.length_append, List.length_singleton, List.append_assoc, CodeTree.layout_length] at hR
    rw [deser, hread, Eng.ok_bind]
    simp only [afterBits_treeNodes, afterBits_par, allocNode_eq, afterBits_arena]
    rw [if_neg (by omega), if_neg Bool.false_ne_true, hL, Eng.ok_bind, hread2, Eng.ok_bind, hR, Eng.ok_bind,
      setNode_eq, withTree_withTree, withTree_arena, withTree_treeNodes, ← hlen, List.singleton_append,
      set_append_pending, CodeTree.layout, List.length_cons, List.length_append, List.length_cons,
      Nat.add_assoc s.arena.length 1 l.size, CodeTree.size]
    congr 2
    · congr 1; omega
    · simp only [Word.ofNat, BitVec.ofNat_add]
      rw [BitVec.add_assoc, BitVec.add_assoc, BitVec.add_comm (1 : Word), BitVec.add_assoc,
        BitVec.add_assoc (BitVec.ofNat 32 l.size)]
      rfl

/-! ## DecodeSym -/

/-- The arena holds a tree whose root is entry `n`. -/
def TreeAt (a : List Node) : CodeTree → Nat → Prop
  | .leaf v, n => a[n]? = some (.leaf v)
  | .node l r, n => a[n]? = some (.internal (n + 1) (n + 1 + l.size)) ∧ TreeAt a l (n + 1) ∧ TreeAt a r (n + 1 + l.size)

theorem treeAt_layout (T : CodeTree) (a b : List Node) : TreeAt (a ++ (T.layout a.length ++ b)) T a.length := by
  induction T generalizing a b with
  | leaf v => simp [TreeAt, CodeTree.layout]
  | node l r ihl ihr =>
    refine ⟨by simp [CodeTree.layout], ?_, ?_⟩
    · have := ihl (a ++ [.internal (a.length + 1) (a.length + 1 + l.size)]) (r.layout (a.length + 1 + l.size) ++ b)
      simpa [CodeTree.layout] using this
    · have := ihr (a ++ (.internal (a.length + 1) (a.length + 1 + l.size) :: l.layout (a.length + 1))) b
      simpa [CodeTree.layout, CodeTree.layout_length, Nat.add_assoc, Nat.add_comm 1 l.size] using this

theorem treeAt_root (T : CodeTree) : TreeAt (T.layout 0) T 0 := by
  have := treeAt_layout T [] []
  simpa using this

/-- A walk over pending bits that start with a code of the tree returns its payload and takes exactly the code (R132,
R133). -/
theorem walkTree_code {T : CodeTree} {c : List Bool} {v : Byte} (hc : CodeTree.Code T c v) {fuel n : Nat} {s : State}
    {rest : List Bool} (h : s.cursor.mask ∈ legalMasks) (hT : TreeAt s.arena T n) (hf : T.depth < fuel)
    (hb : s.pendingBits = c ++ rest) : walkTree fuel n s = .ok v (s.afterBits c.length) := by
  induction hc generalizing fuel n s with
  | leaf v =>
    obtain ⟨fuel, rfl⟩ := Nat.exists_eq_succ_of_ne_zero (Nat.ne_of_gt hf)
    rw [walkTree, show s.arena[n]? = some (.leaf v) from hT, List.length_nil, afterBits_zero]
  | left _ ih =>
    obtain ⟨fuel, rfl⟩ := Nat.exists_eq_succ_of_ne_zero (Nat.ne_of_gt (Nat.lt_of_le_of_lt (Nat.zero_le _) hf))
    obtain ⟨hn, hl, -⟩ := hT
    obtain ⟨hread, hrest⟩ := readBit_pending h hb
    simp only [CodeTree.depth] at hf
    rw [walkTree, hn]
    simp only [hread, Eng.ok_bind]
    rw [if_neg Bool.false_ne_true, ih (afterBits_mask_legal h 1) (by rw [afterBits_arena]; exact hl) (by omega) hrest,
      afterBits_one_add h (by rw [hb]; simp)]
    rfl
  | right _ ih =>
    obtain ⟨fuel, rfl⟩ := Nat.exists_eq_succ_of_ne_zero (Nat.ne_of_gt (Nat.lt_of_le_of_lt (Nat.zero_le _) hf))
    obtain ⟨hn, -, hr⟩ := hT
    obtain ⟨hread, hrest⟩ := readBit_pending h hb
    simp only [CodeTree.depth] at hf
    rw [walkTree, hn]
    simp only [hread, Eng.ok_bind]
    rw [if_pos trivial, ih (afterBits_mask_legal h 1) (by rw [afterBits_arena]; exact hr) (by omega) hrest,
      afterBits_one_add h (by rw [hb]; simp)]
    rfl

/-- On any stream, the pending bits start with exactly one code of a tree, or they run out inside one (R133). -/
theorem code_total (T : CodeTree) (bs : List Bool) :
    (∃ c v rest, CodeTree.Code T c v ∧ bs = c ++ rest) ∨
    (bs.length < T.depth ∧ ∃ c v ext, ext ≠ [] ∧ CodeTree.Code T c v ∧ c = bs ++ ext) := by
  induction T generalizing bs with
  | leaf v => exact .inl ⟨[], v, bs, .leaf v, rfl⟩
  | node l r ihl ihr =>
    match bs with
    | [] =>
      refine .inr ⟨by simp [CodeTree.depth], ?_⟩
      rcases ihl [] with ⟨c, v, rest, hc, -⟩ | ⟨-, c, v, ext, -, hc, -⟩
      · exact ⟨false :: c, v, false :: c, by simp, .left hc, rfl⟩
      · exact ⟨false :: c, v, false :: c, by simp, .left hc, rfl⟩
    | false :: bs =>
      rcases ihl bs with ⟨c, v, rest, hc, hb⟩ | ⟨hlt, c, v, ext, hne, hc, hb⟩
      · exact .inl ⟨false :: c, v, rest, .left hc, by rw [hb]; rfl⟩
      · exact .inr ⟨by simp only [List.length_cons, CodeTree.depth]; omega, false :: c, v, ext, hne, .left hc, by rw [hb]; rfl⟩
    | true :: bs =>
      rcases ihr bs with ⟨c, v, rest, hc, hb⟩ | ⟨hlt, c, v, ext, hne, hc, hb⟩
      · exact .inl ⟨true :: c, v, rest, .right hc, by rw [hb]; rfl⟩
      · exact .inr ⟨by simp only [List.length_cons, CodeTree.depth]; omega, true :: c, v, ext, hne, .right hc, by rw [hb]; rfl⟩

/-- A walk whose pending bits run out inside a code takes them all and raises EOS (R132, D37). -/
theorem walkTree_short {T : CodeTree} {c : List Bool} {v : Byte} (hc : CodeTree.Code T c v) {fuel n : Nat} {s : State}
    {ext : List Bool} (h : s.cursor.mask ∈ legalMasks) (hT : TreeAt s.arena T n) (hf : T.depth < fuel)
    (hext : ext ≠ []) (hb : c = s.pendingBits ++ ext) :
    walkTree fuel n s =
      .raise .eos (s.afterBits s.pendingBits.length).inPos (s.afterBits s.pendingBits.length) := by
  induction hc generalizing fuel n s with
  | leaf v => exact absurd (List.append_eq_nil_iff.mp hb.symm).2 hext
  | @left l r c v _ ih =>
    obtain ⟨fuel, rfl⟩ := Nat.exists_eq_succ_of_ne_zero (Nat.ne_of_gt (Nat.lt_of_le_of_lt (Nat.zero_le _) hf))
    obtain ⟨hn, hl, -⟩ := hT
    simp only [CodeTree.depth] at hf
    rw [walkTree, hn]
    match hp : s.pendingBits with
    | [] => simp only [readBit_exhausted h hp, Eng.raise_bind, List.length_nil, afterBits_zero]
    | b :: rest =>
      rw [hp, List.cons_append, List.cons.injEq] at hb
      obtain ⟨rfl, hb⟩ := hb
      obtain ⟨hread, hrest⟩ := readBit_pending h hp
      simp only [hread, Eng.ok_bind]
      rw [if_neg Bool.false_ne_true, ih (s := s.afterBits 1) (afterBits_mask_legal h 1)
        (by rw [afterBits_arena]; exact hl) (by omega) (by rw [hrest]; exact hb), hrest,
        afterBits_one_add h (by rw [hp]; simp)]
      rfl
  | @right l r c v _ ih =>
    obtain ⟨fuel, rfl⟩ := Nat.exists_eq_succ_of_ne_zero (Nat.ne_of_gt (Nat.lt_of_le_of_lt (Nat.zero_le _) hf))
    obtain ⟨hn, -, hr⟩ := hT
    simp only [CodeTree.depth] at hf
    rw [walkTree, hn]
    match hp : s.pendingBits with
    | [] => simp only [readBit_exhausted h hp, Eng.raise_bind, List.length_nil, afterBits_zero]
    | b :: rest =>
      rw [hp, List.cons_append, List.cons.injEq] at hb
      obtain ⟨rfl, hb⟩ := hb
      obtain ⟨hread, hrest⟩ := readBit_pending h hp
      simp only [hread, Eng.ok_bind]
      rw [if_pos trivial, ih (s := s.afterBits 1) (afterBits_mask_legal h 1)
        (by rw [afterBits_arena]; exact hr) (by omega) (by rw [hrest]; exact hb), hrest,
        afterBits_one_add h (by rw [hp]; simp)]
      rfl

/-- A tree is loaded: the arena is its layout, and TREE_NODES counts it. -/
structure Loaded (s : State) (T : CodeTree) : Prop where
  arena : s.arena = T.layout 0
  nodes : s.treeNodes.toNat = T.size

theorem Loaded.of_treeLegal {s : State} (h : TreeLegal s) (hv : s.status.treeValid = true) :
    ∃ T, Loaded s T ∧ T.depth ≤ s.par.depthCap := by
  obtain ⟨T, ha, hd⟩ := h.valid hv
  exact ⟨T, ⟨ha, by rw [← h.counted, ha, CodeTree.layout_length]⟩, hd⟩

theorem Loaded.congr {s t : State} {T : CodeTree} (h : Loaded s T) (ha : t.arena = s.arena)
    (hn : t.treeNodes = s.treeNodes) : Loaded t T := ⟨by rw [ha, h.arena], by rw [hn, h.nodes]⟩

/-- DecodeSym with a loaded tree, on any stream. -/
theorem decodeSym_total {s : State} {T : CodeTree} (h : s.cursor.mask ∈ legalMasks) (hT : Loaded s T) :
    (∃ c v rest, CodeTree.Code T c v ∧ s.pendingBits = c ++ rest ∧ decodeSym s = .ok v (s.afterBits c.length)) ∨
    (s.pendingBits.length < T.depth ∧ (∃ c v ext, ext ≠ [] ∧ CodeTree.Code T c v ∧ c = s.pendingBits ++ ext) ∧
      decodeSym s = .raise .eos (s.afterBits s.pendingBits.length).inPos (s.afterBits s.pendingBits.length)) := by
  have hat : TreeAt s.arena T 0 := by rw [hT.arena]; exact treeAt_root T
  have hf : T.depth < s.treeNodes.toNat := by rw [hT.nodes]; exact T.depth_lt_size
  rcases code_total T s.pendingBits with ⟨c, v, rest, hc, hb⟩ | ⟨hlt, c, v, ext, hne, hc, hb⟩
  · exact .inl ⟨c, v, rest, hc, hb, walkTree_code hc h hat hf hb⟩
  · exact .inr ⟨hlt, ⟨c, v, ext, hne, hc, hb⟩, walkTree_short hc h hat hf hne hb⟩

theorem decodeSym_code {s : State} {T : CodeTree} (h : s.cursor.mask ∈ legalMasks) (hT : Loaded s T) {c rest : List Bool}
    {v : Byte} (hc : CodeTree.Code T c v) (hb : s.pendingBits = c ++ rest) : decodeSym s = .ok v (s.afterBits c.length) :=
  walkTree_code hc h (by rw [hT.arena]; exact treeAt_root T) (by rw [hT.nodes]; exact T.depth_lt_size) hb

end Sys2Proof.Machine
end

