-- ==== Sys2Proof/Laws/HuffmanData.lean ====
section
/-! SUPPORT. The load and data phases of the Huffman commands, on every stream (41_huffman.md R141 to R145). -/

namespace Sys2Proof.Machine

@[simp] theorem stored_nil (s : State) (i : Nat) : s.stored i [] = s := rfl

theorem stored_one (s : State) (i : Nat) (v : Byte) :
    (s.storeBuf (s.outBase.toNat + i) v).setProgress (i + 1) = s.stored i [v] := rfl

theorem stored_append (s : State) (i : Nat) (vs ws : List Byte) :
    (s.stored i vs).stored (i + vs.length) ws = s.stored i (vs ++ ws) := by
  cases ws with
  | nil => simp
  | cons w ws =>
    cases vs with
    | nil => rfl
    | cons v vs =>
      have hm := Memory.writeAll_append s.bufMem (s.outBase.toNat + i) (v :: vs) (w :: ws)
      rw [Nat.add_assoc] at hm
      have hl : Word.ofNat (i + (v :: vs).length + (w :: ws).length) = Word.ofNat (i + (v :: vs ++ w :: ws).length) := by
        rw [List.length_append, Nat.add_assoc]
      rw [State.stored, State.stored, State.stored, hm]
      simp only [if_neg (List.cons_ne_nil _ _), List.cons_append, hl]

theorem afterBits_stored (s : State) (i : Nat) (vs : List Byte) (n : Nat) :
    (s.stored i vs).afterBits n = (s.afterBits n).stored i vs := by
  have hc : (s.stored i vs).cursor = s.cursor := rfl
  by_cases h : n ≤ maskLeft s.cursor.mask <;> simp only [State.afterBits, hc, h, if_true, if_false] <;> rfl

@[simp] theorem stored_pendingBits (s : State) (i : Nat) (vs : List Byte) :
    (s.stored i vs).pendingBits = s.pendingBits := rfl

/-- The data phase on pending bits that start with the codes of `vs` (R132, R143, R145). -/
theorem decodeLoop_codes {T : CodeTree} {bs : List Bool} {vs : List Byte} (hc : CodeTree.Codes T bs vs) {s : State}
    (h : s.cursor.mask ∈ legalMasks) (hT : Loaded s T) {rest : List Bool} (hb : s.pendingBits = bs ++ rest) (i : Nat) :
    decodeLoop vs.length i s = .ok () ((s.afterBits bs.length).stored i vs) := by
  induction hc generalizing s i with
  | nil => rw [List.length_nil, List.length_nil, afterBits_zero]; rfl
  | @cons c bs v vs hc _ ih =>
    rw [List.append_assoc] at hb
    have hrest := afterBits_pendingBits h hb
    rw [List.length_cons, decodeLoop, decodeSym_code h hT hc hb, Eng.ok_bind, stored_one,
      ih (s := (s.afterBits c.length).stored i [v]) (afterBits_mask_legal h _)
        (hT.congr (by simp [State.stored]) (by simp [State.stored])) hrest (i + 1),
      afterBits_stored, afterBits_add h (by rw [hb]; simp), List.length_append]
    exact congrArg (Eng.ok ()) (stored_append _ i [v] vs)

/-- The data phase on any stream: `n` symbols, or fewer and EOS inside the next one (R143: "the symbol being decoded is
not stored"). -/
theorem decodeLoop_total {T : CodeTree} (n : Nat) {s : State} (h : s.cursor.mask ∈ legalMasks) (hT : Loaded s T) (i : Nat) :
    (∃ bs vs rest, vs.length = n ∧ CodeTree.Codes T bs vs ∧ s.pendingBits = bs ++ rest ∧
      decodeLoop n i s = .ok () ((s.afterBits bs.length).stored i vs)) ∨
    (∃ bs vs tail, vs.length < n ∧ CodeTree.Codes T bs vs ∧ s.pendingBits = bs ++ tail ∧
      (∃ c v ext, ext ≠ [] ∧ CodeTree.Code T c v ∧ c = tail ++ ext) ∧
      decodeLoop n i s = .raise .eos (s.afterBits s.pendingBits.length).inPos
        ((s.afterBits s.pendingBits.length).stored i vs)) := by
  induction n generalizing s i with
  | zero => exact .inl ⟨[], [], s.pendingBits, rfl, .nil, rfl, by rw [List.length_nil, afterBits_zero]; rfl⟩
  | succ n ih =>
    rcases decodeSym_total h hT with ⟨c, v, rest, hc, hb, hs⟩ | ⟨-, hext, hs⟩
    · have hrest := afterBits_pendingBits h hb
      have hcl : c.length ≤ s.pendingBits.length := by rw [hb]; simp
      rw [decodeLoop, hs, Eng.ok_bind, stored_one]
      rcases ih (s := (s.afterBits c.length).stored i [v]) (afterBits_mask_legal h _)
        (hT.congr (by simp [State.stored]) (by simp [State.stored])) (i + 1) with
        ⟨bs, vs, rest', hl, hcs, hb', ho⟩ | ⟨bs, vs, tail, hl, hcs, hb', hext, ho⟩
      · rw [stored_pendingBits, hrest] at hb'
        refine .inl ⟨c ++ bs, v :: vs, rest', by simp [hl], .cons hc hcs, by rw [hb, hb', List.append_assoc], ?_⟩
        rw [ho, afterBits_stored, afterBits_add h hcl, List.length_append]
        exact congrArg (Eng.ok ()) (stored_append _ i [v] vs)
      · rw [stored_pendingBits, hrest] at hb' ho
        refine .inr ⟨c ++ bs, v :: vs, tail, by simp only [List.length_cons]; omega, .cons hc hcs,
          by rw [hb, hb', List.append_assoc], hext, ?_⟩
        rw [ho, afterBits_stored, afterBits_add h hcl, ← List.length_append, ← hb]
        exact congrArg (Eng.raise _ _) (stored_append _ i [v] vs)
    · exact .inr ⟨[], [], s.pendingBits, by simp, .nil, rfl, hext, by rw [decodeLoop, hs]; rfl⟩

/-- The load phase, on any stream: a tree is loaded, or one of Deser's faults with TREE_VALID = 0 (R141). -/
theorem loadTree_total {s : State} (h : s.cursor.mask ∈ legalMasks) (hbig : s.par.nodeCap < 2 ^ 32) :
    (∃ (T : CodeTree) (bs rest : List Bool), CodeTree.Serial T bs ∧ s.pendingBits = bs ++ rest ∧ T.depth ≤ s.par.depthCap ∧
      T.size ≤ s.par.nodeCap ∧
      loadTree s = .ok () { s.afterBits bs.length with
        status := { s.status with treeValid := true }, treeNodes := Word.ofNat T.size, arena := T.layout 0 }) ∨
    (∃ (m : Nat) (a : List Node) (k : Word) (c : Cause) (v : Word), m ≤ s.pendingBits.length ∧ a.length = k.toNat ∧
      k.toNat ≤ s.par.nodeCap ∧
      ((c = .eos ∧ v = (s.afterBits m).inPos ∧ s.eosLimit ≤ (s.afterBits m).inPos.toNat ∧ m = s.pendingBits.length) ∨
       (c = .treeOverflow ∧ v = Word.ofNat s.par.nodeCap ∧ k.toNat = s.par.nodeCap) ∨
       (c = .depthOverflow ∧ v = Word.ofNat (s.par.depthCap + 1))) ∧
      loadTree s = .raise c v { s.afterBits m with
        status := { s.status with treeValid := false }, treeNodes := k, arena := a }) := by
  have hab : ∀ n, s.dropTree.afterBits n =
      { s.afterBits n with status := { s.status with treeValid := false }, treeNodes := 0, arena := [] } := fun n => by
    by_cases hn : n ≤ maskLeft s.cursor.mask <;>
      simp only [State.afterBits, dropTree_cursor, hn, if_true, if_false] <;> rfl
  have hpost := deser_post (levels := s.par.depthCap + 1) 0 (s := s.dropTree) h rfl (Nat.zero_le _) hbig
  rw [loadTree, deserRoot, dropTree_par]
  cases hd : deser (s.par.depthCap + 1) 0 s.dropTree with
  | stuck e => rw [hd] at hpost; exact hpost.elim
  | ok n t =>
    rw [hd] at hpost
    obtain ⟨T, bs, hdep, hser, hb, -, hcap, ht⟩ := hpost
    refine .inl ⟨T, bs, t.pendingBits, hser, hb, by omega, by simpa using hcap, ?_⟩
    rw [Eng.ok_bind, ht, hab, dropTree_arena, dropTree_treeNodes, List.nil_append, List.length_nil, zero_add]
    rfl
  | raise c v t =>
    rw [hd] at hpost
    obtain ⟨m, a, k, hm, ht, hlen, hk, hc⟩ := hpost
    rw [dropTree_arena, List.nil_append] at ht hlen
    refine .inr ⟨m, a, k, c, v, hm, hlen, hk, ?_, ?_⟩
    · subst ht
      rcases hc with ⟨h1, h2, h3, h4⟩ | h1 | ⟨h1, h2⟩
      · refine .inl ⟨h1, ?_, ?_, h4⟩
        · rw [h2, hab]; rfl
        · have : (s.dropTree.afterBits m).inPos = (s.afterBits m).inPos := by rw [hab]
          rw [withTree_eosLimit, afterBits_eosLimit, withTree_inPos, this] at h3
          exact h3
      · exact .inr (.inl h1)
      · exact .inr (.inr ⟨h1, by rw [h2]; congr 1; omega⟩)
    · rw [Eng.raise_bind, ht, hab]
      rfl

/-- The load phase on a stream that starts with a serialized tree which fits (R130, R141). -/
theorem loadTree_serial {s : State} {T : CodeTree} {bs rest : List Bool} (hT : CodeTree.Serial T bs)
    (h : s.cursor.mask ∈ legalMasks) (hb : s.pendingBits = bs ++ rest) (hd : T.depth ≤ s.par.depthCap)
    (hfit : T.size ≤ s.par.nodeCap) (hbig : s.par.nodeCap < 2 ^ 32) :
    loadTree s = .ok () { s.afterBits bs.length with
      status := { s.status with treeValid := true }, treeNodes := Word.ofNat T.size, arena := T.layout 0 } := by
  have hab : s.dropTree.afterBits bs.length =
      { s.afterBits bs.length with status := { s.status with treeValid := false }, treeNodes := 0, arena := [] } := by
    by_cases hn : bs.length ≤ maskLeft s.cursor.mask <;>
      simp only [State.afterBits, dropTree_cursor, hn, if_true, if_false] <;> rfl
  rw [loadTree, deserRoot, dropTree_par,
    deser_serial hT 0 (s := s.dropTree) h hb rfl (Nat.lt_succ_of_le hd) (by simpa using hfit) hbig, Eng.ok_bind, hab,
    dropTree_arena, dropTree_treeNodes, List.nil_append, List.length_nil, zero_add]
  rfl

/-! ## Codes, layouts and packed streams -/

theorem CodeTree.Code.length_le_depth {T : CodeTree} {c : List Bool} {v : Byte} (h : CodeTree.Code T c v) :
    c.length ≤ T.depth := by
  induction h with
  | leaf v => exact Nat.le_refl 0
  | left _ ih => simp only [List.length_cons, CodeTree.depth]; omega
  | right _ ih => simp only [List.length_cons, CodeTree.depth]; omega

/-- DecodeSym when the pending bits end inside a code (R132). -/
theorem decodeSym_short {s : State} {T : CodeTree} (h : s.cursor.mask ∈ legalMasks) (hT : Loaded s T)
    {c ext : List Bool} {v : Byte} (hc : CodeTree.Code T c v) (hne : ext ≠ []) (hb : c = s.pendingBits ++ ext) :
    decodeSym s = .raise .eos (s.afterBits s.pendingBits.length).inPos (s.afterBits s.pendingBits.length) :=
  walkTree_short hc h (by rw [hT.arena]; exact treeAt_root T) (by rw [hT.nodes]; exact T.depth_lt_size) hne hb

/-- The data phase when the pending bits end inside the code after those of `vs` (R143). -/
theorem decodeLoop_short {T : CodeTree} {bs : List Bool} {vs : List Byte} (hcs : CodeTree.Codes T bs vs) {s : State}
    (h : s.cursor.mask ∈ legalMasks) (hT : Loaded s T) {tail c ext : List Bool} {v : Byte}
    (hb : s.pendingBits = bs ++ tail) (hc : CodeTree.Code T c v) (hne : ext ≠ []) (he : c = tail ++ ext) (i n : Nat)
    (hn : vs.length < n) :
    decodeLoop n i s =
      .raise .eos (s.afterBits s.pendingBits.length).inPos ((s.afterBits s.pendingBits.length).stored i vs) := by
  induction hcs generalizing s i n with
  | nil =>
    obtain ⟨n, rfl⟩ := Nat.exists_eq_succ_of_ne_zero (Nat.ne_of_gt hn)
    rw [decodeLoop, decodeSym_short h hT hc hne (by rw [hb]; exact he), Eng.raise_bind, stored_nil]
  | @cons c' bs v' vs hc' _ ih =>
    obtain ⟨n, rfl⟩ := Nat.exists_eq_succ_of_ne_zero (Nat.ne_of_gt (Nat.lt_of_le_of_lt (Nat.zero_le _) hn))
    rw [List.append_assoc] at hb
    have hrest := afterBits_pendingBits h hb
    have hl : c'.length + (bs ++ tail).length = s.pendingBits.length := by rw [hb]; simp
    rw [decodeLoop, decodeSym_code h hT hc' hb, Eng.ok_bind, stored_one,
      ih (s := (s.afterBits c'.length).stored i [v']) (afterBits_mask_legal h _)
        (hT.congr (by simp [State.stored]) (by simp [State.stored])) (by rw [stored_pendingBits, hrest]) (i + 1) n
        (by simp at hn; omega),
      stored_pendingBits, afterBits_stored, afterBits_add h (by omega), hrest, hl]
    exact congrArg (Eng.raise _ _) (stored_append _ i [v'] vs)

/-- BUF after symbols are stored from the start of the output range. -/
theorem stored_readBuf (s : State) (vs : List Byte) (a : Nat) : (s.stored 0 vs).readBuf a =
    if s.outBase.toNat ≤ a then vs.getD (a - s.outBase.toNat) (s.readBuf a) else s.readBuf a := by
  show (Memory.read (Memory.writeAll s.bufMem (s.outBase.toNat + 0) vs) a).getD _ = _
  rw [Memory.read_writeAll, Nat.add_zero]
  by_cases h : s.outBase.toNat ≤ a
  · rw [if_pos h, List.getD_eq_getElem?_getD]
    by_cases h' : a < s.outBase.toNat + vs.length
    · rw [if_pos ⟨h, h'⟩, List.getElem?_eq_getElem (by omega)]; rfl
    · rw [if_neg (by omega), List.getElem?_eq_none (by omega)]; rfl
  · rw [if_neg (by omega), if_neg h]; rfl

theorem byteBits_getElem? (b : Byte) (j : Nat) (h : j < 8) : (byteBits b)[j]? = some (b.getLsbD (7 - j)) := by
  interval_cases j <;> rfl

/-- Bit j of the stream from offset `p` is bit 7 − (j mod 8) of the byte at p + ⌊j/8⌋ (R66, R117). -/
theorem streamBits_getElem? (s : State) (j p : Nat) (h : p + j / 8 < s.eosLimit) :
    ((s.streamBytes p).flatMap byteBits)[j]? = some ((s.readIn (p + j / 8)).getLsbD (7 - j % 8)) := by
  induction j using Nat.strong_induction_on generalizing p with
  | _ j ih =>
    rw [streamBytes_cons (by omega), List.flatMap_cons]
    by_cases hj : j < 8
    · rw [List.getElem?_append_left (by rw [byteBits_length]; exact hj), byteBits_getElem? _ _ hj,
        Nat.div_eq_of_lt hj, Nat.mod_eq_of_lt hj, Nat.add_zero]
    · rw [List.getElem?_append_right (by rw [byteBits_length]; omega), byteBits_length,
        ih (j - 8) (by omega) (p + 1) (by omega), show p + 1 + (j - 8) / 8 = p + j / 8 by omega,
        show (j - 8) % 8 = j % 8 by omega]

theorem streamHolds_prefix {s : State} {p : Nat} {bs : List Bool} (h : s.streamHolds p bs) :
    ∃ rest, (s.streamBytes p).flatMap byteBits = bs ++ rest := by
  obtain ⟨h1, h2⟩ := h
  have hp : bs <+: (s.streamBytes p).flatMap byteBits := List.prefix_iff_getElem?.mpr fun i hi => by
    rw [streamBits_getElem? s i p (by omega)]
    exact congrArg some (h2 i _ (List.getElem?_eq_getElem hi))
  obtain ⟨rest, hr⟩ := hp
  exact ⟨rest, hr.symm⟩

/-- The entries of a layout: none is Pending, and children stand at greater indices inside it (R34). -/
theorem layout_getElem? (T : CodeTree) {n k : Nat} {x : Node} (h : (T.layout n)[k]? = some x) :
    x ≠ .pending ∧ ∀ l r, x = .internal l r → n + k < l ∧ n + k < r ∧ l < n + T.size ∧ r < n + T.size := by
  induction T generalizing n k with
  | leaf v =>
    cases k with
    | zero => simp [CodeTree.layout] at h; subst h; exact ⟨by simp, by simp⟩
    | succ k => simp [CodeTree.layout] at h
  | node a b iha ihb =>
    have ha := a.size_pos
    have hb := b.size_pos
    cases k with
    | zero =>
      simp only [CodeTree.layout, List.getElem?_cons_zero, Option.some.injEq] at h
      subst h
      refine ⟨by simp, fun l r e => ?_⟩
      injection e with e1 e2
      simp only [CodeTree.size]; omega
    | succ k =>
      simp only [CodeTree.layout, List.getElem?_cons_succ] at h
      by_cases hk : k < a.size
      · rw [List.getElem?_append_left (by rw [CodeTree.layout_length]; exact hk)] at h
        refine ⟨(iha h).1, fun l r e => ?_⟩
        have := (iha h).2 l r e
        simp only [CodeTree.size]; omega
      · rw [List.getElem?_append_right (by rw [CodeTree.layout_length]; omega), CodeTree.layout_length] at h
        refine ⟨(ihb h).1, fun l r e => ?_⟩
        have := (ihb h).2 l r e
        simp only [CodeTree.size]; omega

/-- The children of a layout's entries are its indices but the root's, each once (R34). -/
theorem layout_children (T : CodeTree) (n : Nat) :
    List.Perm ((T.layout n).flatMap Node.children) (List.range' (n + 1) (T.size - 1)) := by
  induction T generalizing n with
  | leaf v => exact .refl _
  | node l r ihl ihr =>
    have hl := l.size_pos
    have hr := r.size_pos
    have e : List.range' (n + 1) ((CodeTree.node l r).size - 1) = (n + 1) ::
        (List.range' (n + 1 + 1) (l.size - 1) ++ (n + 1 + l.size) :: List.range' (n + 1 + l.size + 1) (r.size - 1)) := by
      have h1 : (CodeTree.node l r).size - 1 = ((l.size - 1) + ((r.size - 1) + 1)) + 1 := by
        simp only [CodeTree.size]; omega
      rw [h1, List.range'_succ, ← List.range'_append_1, List.range'_succ,
        show n + 1 + 1 + (l.size - 1) = n + 1 + l.size by omega]
    show List.Perm ([n + 1, n + 1 + l.size] ++ List.flatMap _ _) _
    rw [List.flatMap_append, e]
    exact .cons _ ((List.Perm.cons _ ((ihl (n + 1)).append (ihr (n + 1 + l.size)))).trans List.perm_middle.symm)

end Sys2Proof.Machine
end

