-- ==== Sys2Proof/Laws/RollingXor.lean ====
section
/-! SUPPORT. The cipher and pass-through phases on every stream: how many bytes each takes, and the closed form of what it leaves (43_rolling_xor.md R180, R184). -/

namespace Sys2Proof.Machine

/-! ## Closed forms -/

theorem ofNat_one {n : Nat} : BitVec.ofNat n 1 = 1 := rfl

theorem addWord_zero (w : Word) : w + Word.ofNat 0 = w := BitVec.add_zero w

theorem rxKey_zero (k0 step : Byte) : rxKey k0 step 0 = k0 := by simp [rxKey]

theorem rxKey_succ (k0 step : Byte) (i : Nat) : rxKey (k0 + step) step i = rxKey k0 step (i + 1) := by
  simp only [rxKey, BitVec.ofNat_add, ofNat_one]; ring

theorem rxKey_next (k0 step : Byte) (i : Nat) : rxKey k0 step i + step = rxKey k0 step (i + 1) := by
  simp only [rxKey, BitVec.ofNat_add, ofNat_one]; ring

theorem rxPlains_length (s : State) (k0 : Byte) (p n : Nat) : (s.rxPlains k0 p n).length = n := by
  simp [State.rxPlains]

theorem rxPlains_succ (s : State) (k0 : Byte) (p n : Nat) :
    s.rxPlains k0 p (n + 1) = (s.readIn p ^^^ k0) :: s.rxPlains (k0 + s.par.keyStep) (p + 1) n := by
  simp only [State.rxPlains, List.range_succ_eq_map, List.map_cons, List.map_map]
  congr 1
  · simp [State.rxPlainAt, rxKey_zero]
  · refine List.map_congr_left fun i _ => ?_
    simp only [Function.comp, State.rxPlainAt, rxKey_succ, Nat.succ_eq_add_one]
    congr 2; omega

theorem rxPlains_congr {s t : State} (hm : t.inMem = s.inMem) (he : t.epoch = s.epoch) (hp : t.par = s.par) (k0 : Byte)
    (p n : Nat) : t.rxPlains k0 p n = s.rxPlains k0 p n := by
  simp only [State.rxPlains]
  refine List.map_congr_left fun i _ => ?_
  simp only [State.rxPlainAt, readIn_congr hm he, hp]

theorem checksumOf_nil : checksumOf [] = 0 := rfl

theorem checksumOf_cons (p : Byte) (ps : List Byte) : checksumOf (p :: ps) = checksumOf ps - p.zeroExtend 16 := by
  simp only [checksumOf, List.map_cons, List.sum_cons]; ring

theorem rawBytes_length (s : State) (p n : Nat) : (s.rawBytes p n).length = n := by simp [State.rawBytes]

theorem rawBytes_succ (s : State) (p n : Nat) : s.rawBytes p (n + 1) = s.readIn p :: s.rawBytes (p + 1) n := by
  simp [State.rawBytes, List.range'_succ]

theorem rawBytes_congr {s t : State} (hm : t.inMem = s.inMem) (he : t.epoch = s.epoch) (p n : Nat) :
    t.rawBytes p n = s.rawBytes p n := by
  simp only [State.rawBytes]
  exact List.map_congr_left fun a _ => readIn_congr hm he a

/-! ## The cipher phase -/

/-- The state after `m` bytes of the cipher phase from output position `i` (R184). -/
def State.rxAfter (s : State) (i m : Nat) : State :=
  { s with
    inPos := s.inPos + Word.ofNat m
    key := rxKey s.key s.par.keyStep m
    checksum := s.checksum + checksumOf (s.rxPlains s.key s.inPos.toNat m)
    rxCount := if m = 0 then s.rxCount else Word.ofNat (i + m)
    progress := if m = 0 then s.progress else Word.ofNat (i + m)
    bufMem := Memory.writeAll s.bufMem (s.outBase.toNat + i) (s.rxPlains s.key s.inPos.toNat m) }

theorem rxAfter_zero (s : State) (i : Nat) : s.rxAfter i 0 = s := by
  simp only [State.rxAfter, if_true, rxKey_zero, State.rxPlains, List.range_zero, List.map_nil, checksumOf_nil,
    Memory.writeAll, addWord_zero, add_zero]

theorem rxAfter_one {s : State} (i : Nat) :
    s.advanceIn.rxDecode i (s.readIn s.inPos.toNat) = s.rxAfter i 1 := by
  have h1 : s.rxPlains s.key s.inPos.toNat 1 = [s.readIn s.inPos.toNat ^^^ s.key] := by
    rw [rxPlains_succ]; rfl
  have hk : rxKey s.key s.par.keyStep 1 = s.key + s.par.keyStep := by rw [← rxKey_next, rxKey_zero]
  have hc : checksumOf [s.readIn s.inPos.toNat ^^^ s.key] = 0 - (s.readIn s.inPos.toNat ^^^ s.key).zeroExtend 16 := by
    rw [checksumOf_cons, checksumOf_nil]
  have hs : s.checksum + (0 - (s.readIn s.inPos.toNat ^^^ s.key).zeroExtend 16) =
      s.checksum - (s.readIn s.inPos.toNat ^^^ s.key).zeroExtend 16 := by ring
  simp only [State.rxAfter, h1, hk, hc, hs, one_ne_zero, if_false]
  rfl

/-- One byte of the cipher phase, then `m` more. -/
theorem rxAfter_succ {s : State} (h : s.inPos.toNat < s.eosLimit) (i m : Nat) :
    (s.rxAfter i 1).rxAfter (i + 1) m = s.rxAfter i (m + 1) := by
  have hpos : (s.inPos + Word.ofNat 1).toNat = s.inPos.toNat + 1 := advanceIn_inPos_toNat h
  have hps : (s.rxAfter i 1).rxPlains (s.key + s.par.keyStep) (s.inPos.toNat + 1) m =
      s.rxPlains (s.key + s.par.keyStep) (s.inPos.toNat + 1) m := rxPlains_congr rfl rfl rfl _ _ _
  have hk : rxKey s.key s.par.keyStep 1 = s.key + s.par.keyStep := by rw [← rxKey_next, rxKey_zero]
  have h1 : s.rxPlains s.key s.inPos.toNat 1 = [s.readIn s.inPos.toNat ^^^ s.key] := by rw [rxPlains_succ]; rfl
  have hin : s.inPos + Word.ofNat 1 + Word.ofNat m = s.inPos + Word.ofNat (m + 1) := by
    simp only [Word.ofNat, BitVec.ofNat_add, ofNat_one]; ring
  have hcs : s.checksum + checksumOf [s.readIn s.inPos.toNat ^^^ s.key] +
      checksumOf (s.rxPlains (s.key + s.par.keyStep) (s.inPos.toNat + 1) m) =
      s.checksum + checksumOf (s.rxPlains s.key s.inPos.toNat (m + 1)) := by
    rw [rxPlains_succ, checksumOf_cons, checksumOf_cons, checksumOf_nil]; ring
  have hw : Memory.writeAll (Memory.writeAll s.bufMem (s.outBase.toNat + i) [s.readIn s.inPos.toNat ^^^ s.key])
      (s.outBase.toNat + (i + 1)) (s.rxPlains (s.key + s.par.keyStep) (s.inPos.toNat + 1) m) =
      Memory.writeAll s.bufMem (s.outBase.toNat + i) (s.rxPlains s.key s.inPos.toNat (m + 1)) := by
    rw [rxPlains_succ]; rfl
  have hn : i + 1 + m = i + (m + 1) := by omega
  unfold State.rxAfter at hps ⊢
  simp only [h1, hk, hpos, one_ne_zero, if_false] at hps ⊢
  rw [hps, hin, hcs, hw, rxKey_succ, hn]
  rcases Nat.eq_zero_or_pos m with rfl | hm
  · rfl
  · simp only [if_neg (Nat.ne_of_gt hm), Nat.succ_ne_zero, if_false]

theorem rxAfter_eosLimit (s : State) (i m : Nat) : (s.rxAfter i m).eosLimit = s.eosLimit := rfl

theorem rxAfter_inPos_toNat {s : State} {m : Nat} (h : s.inPos.toNat + m ≤ s.eosLimit) (i : Nat) :
    (s.rxAfter i m).inPos.toNat = s.inPos.toNat + m :=
  add_ofNat_toNat (Nat.lt_of_le_of_lt h (eosLimit_lt s))

/-- The cipher stops after `m` bytes of the phase. -/
def rxStopsAt (mode : RxMode) (s : State) (i m : Nat) : Prop := rxStops mode (s.rxAfter i m) = true

/-- The cipher phase on any stream: it stops after the first match, or decodes its limit, or runs out of input. -/
theorem cipherLoop_total (mode : RxMode) (n i : Nat) (s : State) (hs : s.inPos.toNat ≤ s.eosLimit) :
    (∃ k, 1 ≤ k ∧ k ≤ n ∧ s.inPos.toNat + k ≤ s.eosLimit ∧ rxStopsAt mode s i k ∧
      (∀ j, 1 ≤ j → j < k → ¬rxStopsAt mode s i j) ∧
      cipherLoop mode n i s = .ok (i + k) (s.rxAfter i k).setRxStop) ∨
    (s.inPos.toNat + n ≤ s.eosLimit ∧ (∀ j, 1 ≤ j → j ≤ n → ¬rxStopsAt mode s i j) ∧
      cipherLoop mode n i s = .ok (i + n) (s.rxAfter i n)) ∨
    (∃ k, s.inPos.toNat + k = s.eosLimit ∧ k < n ∧ (∀ j, 1 ≤ j → j ≤ k → ¬rxStopsAt mode s i j) ∧
      cipherLoop mode n i s = .raise .eos (s.rxAfter i k).inPos (s.rxAfter i k)) := by
  induction n generalizing i s with
  | zero => exact .inr (.inl ⟨hs, fun j h1 h2 => by omega, by rw [rxAfter_zero]; rfl⟩)
  | succ n ih =>
    by_cases hp : s.inPos.toNat < s.eosLimit
    swap
    · refine .inr (.inr ⟨0, by omega, Nat.succ_pos n, fun j h1 h2 => by omega, ?_⟩)
      rw [cipherLoop, inByte_eos (by omega), rxAfter_zero]; rfl
    rw [cipherLoop, inByte_ok hp, Eng.ok_bind]
    simp only [rxAfter_one]
    have hpos : (s.rxAfter i 1).inPos.toNat = s.inPos.toNat + 1 := rxAfter_inPos_toNat (by omega) i
    have hshift : ∀ j, rxStopsAt mode (s.rxAfter i 1) (i + 1) j ↔ rxStopsAt mode s i (j + 1) := fun j => by
      rw [rxStopsAt, rxAfter_succ hp]; rfl
    by_cases hstop : rxStops mode (s.rxAfter i 1) = true
    · rw [if_pos hstop]
      exact .inl ⟨1, Nat.le_refl 1, by omega, by omega, hstop, fun j h1 h2 => by omega, rfl⟩
    · rw [if_neg hstop]
      have hno : ∀ j, 1 ≤ j → ∀ b, (∀ j', 1 ≤ j' → j' ≤ b → ¬rxStopsAt mode (s.rxAfter i 1) (i + 1) j') → j ≤ b + 1 →
          ¬rxStopsAt mode s i j := fun j h1 b hb hj => by
        obtain ⟨j, rfl⟩ := Nat.exists_eq_succ_of_ne_zero (Nat.ne_of_gt h1)
        rcases Nat.eq_zero_or_pos j with rfl | hj0
        · exact hstop
        · exact mt (hshift j).mpr (hb j hj0 (by omega))
      rcases ih (i + 1) (s.rxAfter i 1) (by rw [hpos, rxAfter_eosLimit]; omega) with
        ⟨k, h1, h2, h3, h4, h5, h6⟩ | ⟨h1, h2, h3⟩ | ⟨k, h1, h2, h3, h4⟩
      · rw [hpos, rxAfter_eosLimit] at h3
        refine .inl ⟨k + 1, by omega, by omega, by omega, (hshift k).mp h4, fun j hj hj' => ?_, ?_⟩
        · exact hno j hj (k - 1) (fun j' ha hb => h5 j' ha (by omega)) (by omega)
        · rw [h6, rxAfter_succ hp]; congr 1; omega
      · rw [hpos, rxAfter_eosLimit] at h1
        refine .inr (.inl ⟨by omega, fun j hj hj' => hno j hj n h2 hj', ?_⟩)
        rw [h3, rxAfter_succ hp]; congr 1; omega
      · rw [hpos, rxAfter_eosLimit] at h1
        refine .inr (.inr ⟨k + 1, by omega, by omega, fun j hj hj' => hno j hj k h3 hj', ?_⟩)
        rw [h4, rxAfter_succ hp]

/-! ## The pass-through phase -/

/-- The state after `m` bytes of the pass-through phase from output position `i`. -/
def State.rxPass (s : State) (i m : Nat) : State :=
  { s with inPos := s.inPos + Word.ofNat m }.stored i (s.rawBytes s.inPos.toNat m)

theorem rxPass_zero (s : State) (i : Nat) : s.rxPass i 0 = s := by
  simp only [State.rxPass, State.rawBytes, List.range'_zero, List.map_nil, stored_nil, addWord_zero]

theorem rxPass_succ {s : State} (h : s.inPos.toNat < s.eosLimit) (i m : Nat) :
    (s.advanceIn.stored i [s.readIn s.inPos.toNat]).rxPass (i + 1) m = s.rxPass i (m + 1) := by
  have hpos := advanceIn_inPos_toNat h
  have hraw : (s.advanceIn.stored i [s.readIn s.inPos.toNat]).rawBytes (s.inPos.toNat + 1) m =
      s.rawBytes (s.inPos.toNat + 1) m := rawBytes_congr rfl rfl _ _
  have hin : s.inPos + 1 + Word.ofNat m = s.inPos + Word.ofNat (m + 1) := by
    simp only [Word.ofNat, BitVec.ofNat_add, ofNat_one]; ring
  have happ := stored_append { s with inPos := s.inPos + Word.ofNat (m + 1) } i [s.readIn s.inPos.toNat]
    (s.rawBytes (s.inPos.toNat + 1) m)
  have hpos' : (s.advanceIn.stored i [s.readIn s.inPos.toNat]).inPos.toNat = s.inPos.toNat + 1 := hpos
  have hin' : (s.advanceIn.stored i [s.readIn s.inPos.toNat]).inPos = s.inPos + 1 := rfl
  rw [State.rxPass, State.rxPass, rawBytes_succ, hpos', hin', hraw, hin]
  exact happ

/-- The pass-through phase on any stream: all its bytes, or as many as the input has and EOS. -/
theorem passLoop_total (n i : Nat) (s : State) (hs : s.inPos.toNat ≤ s.eosLimit) :
    (s.inPos.toNat + n ≤ s.eosLimit ∧ passLoop n i s = .ok () (s.rxPass i n)) ∨
    (∃ k, s.inPos.toNat + k = s.eosLimit ∧ k < n ∧ passLoop n i s = .raise .eos (s.rxPass i k).inPos (s.rxPass i k)) := by
  induction n generalizing i s with
  | zero => exact .inl ⟨hs, by rw [rxPass_zero]; rfl⟩
  | succ n ih =>
    by_cases hp : s.inPos.toNat < s.eosLimit
    swap
    · exact .inr ⟨0, by omega, Nat.succ_pos n, by rw [passLoop, inByte_eos (by omega), rxPass_zero]; rfl⟩
    have hpos : (s.advanceIn.stored i [s.readIn s.inPos.toNat]).inPos.toNat = s.inPos.toNat + 1 := advanceIn_inPos_toNat hp
    have heos : (s.advanceIn.stored i [s.readIn s.inPos.toNat]).eosLimit = s.eosLimit := rfl
    rw [passLoop, inByte_ok hp, Eng.ok_bind, stored_one]
    rcases ih (i + 1) (s.advanceIn.stored i [s.readIn s.inPos.toNat]) (by rw [hpos, heos]; omega) with
      ⟨h1, h2⟩ | ⟨k, h1, h2, h3⟩
    · rw [hpos, heos] at h1
      exact .inl ⟨by omega, by rw [h2, rxPass_succ hp]⟩
    · rw [hpos, heos] at h1
      exact .inr ⟨k + 1, by omega, by omega, by rw [h3, rxPass_succ hp]⟩

/-! ## The whole command -/

/-- The state after the two seed bytes (R180). -/
def State.rxSeeded (s : State) : State :=
  let b1 := s.readIn s.inPos.toNat
  let b2 := s.readIn (s.inPos.toNat + 1)
  { s with
    status := { s.status with rxStop := false }
    inPos := s.inPos + 2
    rxCount := 0
    seed := b2 ++ b1
    key := b1 ^^^ b2
    checksum := 0
    chkTarget := match s.par.chkOrder with
      | .seedLe => b2 ++ b1
      | .seedSwapped => b1 ++ b2 }

theorem chkTargetOf_eq (o : ChkOrder) (b1 b2 : Byte) :
    chkTargetOf o b1 b2 = match o with | .seedLe => b2 ++ b1 | .seedSwapped => b1 ++ b2 := by
  cases o <;> rfl

/-- RxCore, once both seeds can be read. -/
theorem rxCore_seeded (mode : RxMode) {s : State} (h : s.inPos.toNat + 2 ≤ s.eosLimit) :
    rxCore mode s = (cipherLoop mode s.rxLimit 0 s.rxSeeded).bind fun i t => passLoop (t.outSize.toNat - i) i t := by
  have h1 : inByte s.rxStart = .ok (s.readIn s.inPos.toNat) s.rxStart.advanceIn := inByte_ok (by
    show s.inPos.toNat < s.eosLimit; omega)
  have hpos : s.rxStart.advanceIn.inPos.toNat = s.inPos.toNat + 1 := advanceIn_inPos_toNat (s := s.rxStart) (by
    show s.inPos.toNat < s.eosLimit; omega)
  have h2 : inByte s.rxStart.advanceIn = .ok (s.readIn (s.inPos.toNat + 1)) s.rxStart.advanceIn.advanceIn := by
    have := inByte_ok (s := s.rxStart.advanceIn) (by rw [hpos]; show s.inPos.toNat + 1 < s.eosLimit; omega)
    rwa [hpos] at this
  have h3 : s.rxStart.advanceIn.advanceIn.rxSeeds (s.readIn s.inPos.toNat) (s.readIn (s.inPos.toNat + 1)) = s.rxSeeded := by
    have hin : s.inPos + 1 + 1 = s.inPos + 2 := by ring
    have ht : s.rxStart.advanceIn.advanceIn.par = s.par := rfl
    simp only [State.rxSeeds, State.rxSeeded, advanceIn_inPos, rxStart_inPos, hin, ht, chkTargetOf_eq]
    rfl
  rw [rxCore, h1, Eng.ok_bind, h2, Eng.ok_bind]
  simp only [h3]
  rfl

/-- RxCore with fewer than two bytes left: the seeds stay unregistered (R180, vector X7). -/
theorem rxCore_noSeeds (mode : RxMode) {s : State} (h : s.eosLimit < s.inPos.toNat + 2) :
    rxCore mode s =
      if s.eosLimit ≤ s.inPos.toNat then .raise .eos s.inPos s.rxStart
      else .raise .eos (s.inPos + 1) s.rxStart.advanceIn := by
  have heos : s.rxStart.eosLimit = s.eosLimit := rfl
  have hin : s.rxStart.inPos = s.inPos := rfl
  split
  · rw [rxCore, inByte_eos (by rw [heos, hin]; assumption)]; rfl
  · have hpos : s.rxStart.advanceIn.inPos.toNat = s.inPos.toNat + 1 := advanceIn_inPos_toNat (s := s.rxStart) (by
      rw [heos, hin]; omega)
    rw [rxCore, inByte_ok (by rw [heos, hin]; omega), Eng.ok_bind, inByte_eos (by
      rw [hpos]; show s.eosLimit ≤ s.inPos.toNat + 1; omega)]
    rfl

/-! ## The end of the command in closed form -/

theorem rxSeeded_inPos_toNat {s : State} (h : s.inPos.toNat + 2 ≤ s.eosLimit) :
    s.rxSeeded.inPos.toNat = s.inPos.toNat + 2 := by
  have := eosLimit_lt s
  show (s.inPos + 2).toNat = _
  rw [BitVec.toNat_add, show (2 : Word).toNat = 2 from rfl]
  omega

theorem rxSeeded_plains (s : State) (k0 : Byte) (p n : Nat) : s.rxSeeded.rxPlains k0 p n = s.rxPlains k0 p n :=
  rxPlains_congr rfl rfl rfl _ _ _

/-- The stop after `k` bytes is the match of R184, in checksum mode. -/
theorem rxStopsAt_iff (mode : RxMode) {s : State} (h : s.inPos.toNat + 2 ≤ s.eosLimit) (k : Nat) :
    rxStopsAt mode s.rxSeeded 0 k ↔ mode = .checksum ∧ s.rxMatches k := by
  have hc : (s.rxSeeded.rxAfter 0 k).checksum =
      checksumOf (s.rxPlains (s.readIn s.inPos.toNat ^^^ s.readIn (s.inPos.toNat + 1)) (s.inPos.toNat + 2) k) := by
    show (0 : Half) + checksumOf (s.rxSeeded.rxPlains _ s.rxSeeded.inPos.toNat k) = _
    rw [rxSeeded_inPos_toNat h, rxSeeded_plains, zero_add]; rfl
  rw [rxStopsAt, rxStops, hc]
  cases mode <;> simp [State.rxMatches]; rfl

/-- `k` bytes deciphered and `n - k` passed through leave the registers and BUF of `rxResult`. -/
theorem rxEnd {s : State} {k n : Nat} (h : s.inPos.toNat + 2 + n ≤ s.eosLimit) (hk : k ≤ n) :
    (s.rxSeeded.rxAfter 0 k).rxPass k (n - k) = { s.rxResult k n with status := { s.status with rxStop := false } } := by
  have hp2 := rxSeeded_inPos_toNat (s := s) (by omega)
  have heos : s.rxSeeded.eosLimit = s.eosLimit := rfl
  have hpos := rxAfter_inPos_toNat (s := s.rxSeeded) (m := k) (by rw [hp2, heos]; omega) 0
  have hraw : (s.rxSeeded.rxAfter 0 k).rawBytes (s.inPos.toNat + 2 + k) (n - k) =
      s.rawBytes (s.inPos.toNat + 2 + k) (n - k) := rawBytes_congr rfl rfl _ _
  have hin : s.inPos + 2 + Word.ofNat k + Word.ofNat (n - k) = s.inPos + 2 + Word.ofNat n := by
    rw [BitVec.add_assoc, ← BitVec.ofNat_add, show k + (n - k) = n by omega]
  have hbuf : Memory.writeAll
      (Memory.writeAll s.bufMem (s.outBase.toNat + 0) (s.rxSeeded.rxPlains s.rxSeeded.key s.rxSeeded.inPos.toNat k))
      (s.outBase.toNat + k) (s.rawBytes (s.inPos.toNat + 2 + k) (n - k)) =
      Memory.writeAll s.bufMem s.outBase.toNat (s.rxOutput k n) := by
    rw [State.rxOutput, Memory.writeAll_append, rxPlains_length, Nat.add_zero, hp2, rxSeeded_plains]; rfl
  have hcnt : (if k = 0 then (0 : Word) else Word.ofNat (0 + k)) = Word.ofNat k := by
    split
    · subst k; rfl
    · rw [Nat.zero_add]
  have hprog : (if s.rawBytes (s.inPos.toNat + 2 + k) (n - k) = [] then
      (if k = 0 then s.progress else Word.ofNat (0 + k)) else
      Word.ofNat (k + (s.rawBytes (s.inPos.toNat + 2 + k) (n - k)).length)) =
      if n = 0 then s.progress else Word.ofNat n := by
    have hnil : s.rawBytes (s.inPos.toNat + 2 + k) (n - k) = [] ↔ n - k = 0 := by
      rw [← List.length_eq_zero_iff, rawBytes_length]
    by_cases hz : n - k = 0
    · rw [if_pos (hnil.mpr hz), show n = k by omega, Nat.zero_add]
    · rw [if_neg (mt hnil.mp hz), if_neg (by omega), rawBytes_length, show k + (n - k) = n by omega]
  have hsum : (0 : Half) + checksumOf (s.rxSeeded.rxPlains s.rxSeeded.key s.rxSeeded.inPos.toNat k) =
      checksumOf (s.rxPlains s.rxSeeded.key (s.inPos.toNat + 2) k) := by
    rw [hp2, rxSeeded_plains, zero_add]
  rw [State.rxPass, hpos, hp2, hraw]
  apply State.ext
  all_goals first | exact hin | exact hprog | exact hsum | exact hcnt | exact hbuf | rfl

/-- How many bytes the cipher phase decodes of at most `most` that the limit and the input allow, and whether it stops on
a match (R180, R184). -/
structure RxDecodes (mode : RxMode) (s : State) (most k : Nat) (stop : Bool) : Prop where
  le : k ≤ most
  stopped : stop = true → mode = .checksum ∧ 1 ≤ k ∧ s.rxMatches k
  ran : stop = false → k = most
  first : mode = .checksum → ∀ j, 1 ≤ j → j < k ∨ (stop = false ∧ j = k) → ¬s.rxMatches j

/-- The number of deciphered bytes is determined. -/
theorem RxDecodes.unique {mode : RxMode} {s : State} {most k k' : Nat} {stop stop' : Bool}
    (h : RxDecodes mode s most k stop) (h' : RxDecodes mode s most k' stop') : k = k' ∧ stop = stop' := by
  have key : ∀ {a b : Nat} {x y : Bool}, RxDecodes mode s most a x → RxDecodes mode s most b y → x = true →
      a = b ∧ x = y := by
    intro a b x y ha hb hx
    obtain ⟨hm, h1, hmat⟩ := ha.stopped hx
    have hab : ¬(a < b ∨ y = false ∧ a = b) := fun h => hb.first hm a h1 h hmat
    cases y with
    | false => exact absurd (by have := hb.ran rfl; have := ha.le; simp; omega) hab
    | true =>
      obtain ⟨-, h1', hmat'⟩ := hb.stopped rfl
      have : ¬b < a := fun h => ha.first hm b h1' (.inl h) hmat'
      exact ⟨by omega, hx⟩
  cases stop with
  | true => exact key h h' rfl
  | false =>
    cases stop' with
    | true => exact ⟨(key h' h rfl).1.symm, (key h' h rfl).2.symm⟩
    | false => exact ⟨(h.ran rfl).trans (h'.ran rfl).symm, rfl⟩

/-- RxCore on any input that holds the seeds: it outputs `OUT_SIZE` bytes, or as many as there are and EOS. -/
theorem rxCore_total (mode : RxMode) {s : State} (h : s.inPos.toNat + 2 ≤ s.eosLimit) :
    ∃ k stop, RxDecodes mode s (min s.rxLimit (s.eosLimit - (s.inPos.toNat + 2))) k stop ∧
      (s.inPos.toNat + 2 + s.outSize.toNat ≤ s.eosLimit →
        rxCore mode s = .ok () { s.rxResult k s.outSize.toNat with status := { s.status with rxStop := stop } }) ∧
      (∀ m, s.inPos.toNat + 2 + m = s.eosLimit → m < s.outSize.toNat →
        rxCore mode s = .raise .eos (s.inPos + 2 + Word.ofNat m)
          { s.rxResult k m with status := { s.status with rxStop := stop } }) := by
  have hp2 := rxSeeded_inPos_toNat h
  have heos : s.rxSeeded.eosLimit = s.eosLimit := rfl
  have hlim : s.rxLimit ≤ s.outSize.toNat := Nat.min_le_right _ _
  rw [rxCore_seeded mode h]
  have pass : ∀ k (u : State), u = s.rxSeeded.rxAfter 0 k ∨ u = (s.rxSeeded.rxAfter 0 k).setRxStop →
      s.inPos.toNat + 2 + k ≤ s.eosLimit → k ≤ s.outSize.toNat →
      (s.inPos.toNat + 2 + s.outSize.toNat ≤ s.eosLimit →
        passLoop (u.outSize.toNat - k) k u = .ok () (u.rxPass k (s.outSize.toNat - k))) ∧
      (∀ m, s.inPos.toNat + 2 + m = s.eosLimit → m < s.outSize.toNat →
        passLoop (u.outSize.toNat - k) k u = .raise .eos (u.rxPass k (m - k)).inPos (u.rxPass k (m - k))) := by
    intro k u hu hk hk'
    have hup : u.inPos.toNat = s.inPos.toNat + 2 + k := by
      have := rxAfter_inPos_toNat (s := s.rxSeeded) (m := k) (by rw [hp2, heos]; omega) 0
      rw [← hp2, ← this]; rcases hu with rfl | rfl <;> rfl
    have hue : u.eosLimit = s.eosLimit := by rcases hu with rfl | rfl <;> rfl
    have huo : u.outSize = s.outSize := by rcases hu with rfl | rfl <;> rfl
    rw [huo]
    rcases passLoop_total (s.outSize.toNat - k) k u (by omega) with ⟨h1, h2⟩ | ⟨j, h1, h2, h3⟩
    · exact ⟨fun _ => h2, fun m hm hm' => by omega⟩
    · exact ⟨fun _ => by omega, fun m hm hm' => by rw [h3, show j = m - k by omega]⟩
  have fin : ∀ k n, k ≤ n → s.inPos.toNat + 2 + n ≤ s.eosLimit →
      (s.rxSeeded.rxAfter 0 k).rxPass k (n - k) = { s.rxResult k n with status := { s.status with rxStop := false } } :=
    fun k n hk hn => rxEnd hn hk
  have finStop : ∀ k n, k ≤ n → s.inPos.toNat + 2 + n ≤ s.eosLimit →
      (s.rxSeeded.rxAfter 0 k).setRxStop.rxPass k (n - k) =
        { s.rxResult k n with status := { s.status with rxStop := true } } := fun k n hk hn => by
    have : (s.rxSeeded.rxAfter 0 k).setRxStop.rxPass k (n - k) =
        ((s.rxSeeded.rxAfter 0 k).rxPass k (n - k)).setRxStop := rfl
    rw [this, fin k n hk hn]; rfl
  rcases cipherLoop_total mode s.rxLimit 0 s.rxSeeded (by rw [hp2]; exact h) with
    ⟨k, h1, h2, h3, h4, h5, h6⟩ | ⟨h1, h2, h3⟩ | ⟨k, h1, h2, h3, h4⟩
  · rw [hp2, heos] at h3
    obtain ⟨hm, hmat⟩ := (rxStopsAt_iff mode h k).mp h4
    refine ⟨k, true, ⟨by omega, fun _ => ⟨hm, h1, hmat⟩, (fun h => nomatch h), fun _ j hj hj' hc => ?_⟩, ?_, ?_⟩
    · rcases hj' with hj' | ⟨h', -⟩
      · exact h5 j hj hj' ((rxStopsAt_iff mode h j).mpr ⟨hm, hc⟩)
      · exact nomatch h'
    · intro hfit
      rw [h6, Eng.ok_bind, Nat.zero_add, (pass k _ (.inr rfl) h3 (by omega)).1 hfit, finStop k _ (by omega) hfit]
    · intro m hm' hlt
      rw [h6, Eng.ok_bind, Nat.zero_add, (pass k _ (.inr rfl) h3 (by omega)).2 m hm' hlt, finStop k _ (by omega) (by omega)]
      rfl
  · rw [hp2, heos] at h1
    refine ⟨s.rxLimit, false, ⟨by omega, (fun h => nomatch h), fun _ => by omega, fun hm j hj hj' hc => ?_⟩, ?_, ?_⟩
    · exact h2 j hj (by omega) ((rxStopsAt_iff mode h j).mpr ⟨hm, hc⟩)
    · intro hfit
      rw [h3, Eng.ok_bind, Nat.zero_add, (pass _ _ (.inl rfl) h1 hlim).1 hfit, fin _ _ hlim hfit]
    · intro m hm' hlt
      rw [h3, Eng.ok_bind, Nat.zero_add, (pass _ _ (.inl rfl) h1 hlim).2 m hm' hlt, fin _ _ (by omega) (by omega)]
      rfl
  · rw [hp2, heos] at h1
    refine ⟨k, false, ⟨by omega, (fun h => nomatch h), fun _ => by omega, fun hm j hj hj' hc => ?_⟩, ?_, ?_⟩
    · exact h3 j hj (by omega) ((rxStopsAt_iff mode h j).mpr ⟨hm, hc⟩)
    · intro hfit; omega
    · intro m hm' hlt
      have hmk : m = k := by omega
      subst hmk
      have hz : (s.rxSeeded.rxAfter 0 m).rxPass m (m - m) = s.rxSeeded.rxAfter 0 m := by rw [Nat.sub_self, rxPass_zero]
      rw [h4, Eng.raise_bind, ← hz, fin m m (Nat.le_refl m) (by omega)]
      rfl

/-! ## The output byte by byte -/

theorem rxOutput_length (s : State) {k n : Nat} (h : k ≤ n) : (s.rxOutput k n).length = n := by
  rw [State.rxOutput, List.length_append, rxPlains_length, rawBytes_length]; omega

theorem rxResult_readBuf (s : State) {k n : Nat} (h : k ≤ n) (a : Nat) :
    (s.rxResult k n).readBuf a =
      if s.outBase.toNat ≤ a ∧ a < s.outBase.toNat + n then (s.rxOutput k n).getD (a - s.outBase.toNat) 0
      else s.readBuf a := by
  show (Memory.read (Memory.writeAll s.bufMem s.outBase.toNat (s.rxOutput k n)) a).getD _ = _
  rw [Memory.read_writeAll, rxOutput_length s h]
  split
  · rename_i hr
    have hl : a - s.outBase.toNat < (s.rxOutput k n).length := by rw [rxOutput_length s h]; omega
    rw [List.getD_eq_getElem?_getD, List.getElem?_eq_getElem hl]; rfl
  · rfl

theorem rxResult_readBuf_plain (s : State) {k n i : Nat} (h : k ≤ n) (hi : i < k) :
    (s.rxResult k n).readBuf (s.outBase.toNat + i) = s.readIn (s.inPos.toNat + 2 + i) ^^^
      ((s.readIn s.inPos.toNat ^^^ s.readIn (s.inPos.toNat + 1)) + BitVec.ofNat 8 i * s.par.keyStep) := by
  rw [rxResult_readBuf s h, if_pos ⟨by omega, by omega⟩, Nat.add_sub_cancel_left, List.getD_eq_getElem?_getD,
    State.rxOutput, List.getElem?_append_left (by rwa [rxPlains_length]), State.rxPlains, List.getElem?_map,
    List.getElem?_range hi]
  rfl

theorem rxResult_readBuf_raw (s : State) {k n i : Nat} (h : k ≤ i) (hi : i < n) :
    (s.rxResult k n).readBuf (s.outBase.toNat + i) = s.readIn (s.inPos.toNat + 2 + i) := by
  rw [rxResult_readBuf s (by omega), if_pos ⟨by omega, by omega⟩, Nat.add_sub_cancel_left, List.getD_eq_getElem?_getD,
    State.rxOutput, List.getElem?_append_right (by rwa [rxPlains_length]), rxPlains_length, State.rawBytes,
    List.getElem?_map, List.getElem?_range' (by omega)]
  simp only [Option.map_some, Option.getD_some]
  congr 1; omega

theorem rxResult_readBuf_outside (s : State) {k n a : Nat} (h : k ≤ n)
    (ha : a < s.outBase.toNat ∨ s.outBase.toNat + n ≤ a) : (s.rxResult k n).readBuf a = s.readBuf a := by
  rw [rxResult_readBuf s h, if_neg (by omega)]

end Sys2Proof.Machine
end

