-- ==== Sys2Proof/Laws/VerticalXor.lean ====
section
/-! SUPPORT. VxorGrid and the chunk loop: the running XOR inside the grids, everything else untouched (42_vertical_xor.md R160 to R164). -/

namespace Sys2Proof.Machine

/-- `t` differs from `s` at most in BUF, keeps its canonical form and bound, and BUF outside `P` reads as before. -/
structure BufOnly (P : Nat → Prop) (s t : State) : Prop where
  frame : t = { s with bufMem := t.bufMem }
  wf : Memory.wf s.bufMem → Memory.wf t.bufMem
  below : ∀ cap, Memory.below s.bufMem cap → (∀ a, P a → a < cap) → Memory.below t.bufMem cap
  outside : ∀ a, ¬P a → Memory.read t.bufMem a = Memory.read s.bufMem a

theorem BufOnly.refl (P : Nat → Prop) (s : State) : BufOnly P s s := ⟨rfl, id, fun _ h _ => h, fun _ _ => rfl⟩

theorem BufOnly.trans {P : Nat → Prop} {s t u : State} (h : BufOnly P s t) (h' : BufOnly P t u) : BufOnly P s u where
  frame := by rw [h'.frame, h.frame]
  wf := h'.wf ∘ h.wf
  below cap hb hP := h'.below cap (h.below cap hb hP) hP
  outside a ha := (h'.outside a ha).trans (h.outside a ha)

theorem BufOnly.mono {P Q : Nat → Prop} {s t : State} (h : BufOnly P s t) (hPQ : ∀ a, P a → Q a) : BufOnly Q s t where
  frame := h.frame
  wf := h.wf
  below cap hb hQ := h.below cap hb fun a ha => hQ a (hPQ a ha)
  outside a ha := h.outside a (mt (hPQ a) ha)

theorem BufOnly.readBuf {P : Nat → Prop} {s t : State} (h : BufOnly P s t) {a : Nat} (ha : ¬P a) :
    t.readBuf a = s.readBuf a := by
  have he : t.epoch = s.epoch := by rw [h.frame]
  simp only [State.readBuf, he, h.outside a ha]

theorem bufOnly_storeBuf {P : Nat → Prop} (s : State) {a : Nat} (v : Byte) (ha : P a) : BufOnly P s (s.storeBuf a v) where
  frame := rfl
  wf := Memory.write_wf a v
  below _ hb hP := Memory.write_below v hb (hP a ha)
  outside _ ha' := Memory.read_write_ne _ _ fun e => ha' (e ▸ ha)

/-! ## One row -/

theorem vxCells_bufOnly (base w y n x : Nat) (s : State) :
    BufOnly (fun a => base + y * w + x ≤ a ∧ a < base + y * w + (x + n)) s (vxCells base w y n x s) := by
  induction n generalizing x s with
  | zero => exact .refl _ s
  | succ n ih =>
    exact (bufOnly_storeBuf s _ (by omega)).trans ((ih (x + 1) _).mono fun a => by omega)

/-- A row becomes its own bytes XOR those of the row above, which the row's decoding does not touch. -/
theorem vxCells_read {base w y n x : Nat} {s : State} (hy : 1 ≤ y) (hx : x + n ≤ w) {col : Nat} (hc : x ≤ col)
    (hc' : col < x + n) : (vxCells base w y n x s).gridAt base w y col = s.gridAt base w y col ^^^ s.gridAt base w (y - 1) col := by
  have hrow : (y - 1) * w + w = y * w := by
    obtain ⟨y, rfl⟩ := Nat.exists_eq_succ_of_ne_zero (Nat.ne_of_gt hy)
    rw [Nat.succ_sub_one, Nat.succ_mul]
  induction n generalizing x s with
  | zero => omega
  | succ n ih =>
    rw [vxCells]
    by_cases h : col = x
    · subst h
      have := (vxCells_bufOnly base w y n (col + 1) (s.storeBuf (base + y * w + col)
        (s.readBuf (base + y * w + col) ^^^ s.readBuf (base + (y - 1) * w + col)))).readBuf
        (a := base + y * w + col) (by omega)
      rw [State.gridAt, this, readBuf_storeBuf, if_pos rfl]
      rfl
    · rw [ih (by omega) (by omega) (by omega)]
      simp only [State.gridAt, readBuf_storeBuf]
      rw [if_neg (by omega), if_neg (by omega)]

/-! ## One grid -/

theorem vxRows_bufOnly (base w n y : Nat) (s : State) :
    BufOnly (fun a => base + y * w ≤ a ∧ a < base + (y + n) * w) s (vxRows base w n y s) := by
  induction n generalizing y s with
  | zero => exact .refl _ s
  | succ n ih =>
    have h1 : y * w + w + n * w = (y + (n + 1)) * w := by ring
    have h2 : (y + 1) * w = y * w + w := by ring
    have h3 : (y + 1 + n) * w = y * w + w + n * w := by ring
    refine ((vxCells_bufOnly base w y w 0 s).mono fun a => ?_).trans ((ih (y + 1) _).mono fun a => ?_)
    · omega
    · omega

/-- Rows of one width do not overlap. -/
theorem row_offset {w y j x : Nat} (hj : j < y) (hx : x < w) : j * w + x < y * w := by
  have : (j + 1) * w ≤ y * w := Nat.mul_le_mul_right w hj
  have h : (j + 1) * w = j * w + w := by ring
  omega

/-- R160's closed form, row by row: if the rows above `y` already hold the running XOR, so do the next `n`. -/
theorem vxRows_read {base w n y : Nat} {s : State} {g : Nat → Nat → Byte} (hy : 1 ≤ y)
    (hdone : ∀ j < y, ∀ x < w, s.gridAt base w j x = columnXor g x j)
    (htodo : ∀ j, y ≤ j → j < y + n → ∀ x < w, s.gridAt base w j x = g j x) :
    ∀ j < y + n, ∀ x < w, (vxRows base w n y s).gridAt base w j x = columnXor g x j := by
  induction n generalizing y s with
  | zero => exact hdone
  | succ n ih =>
    have hkeep : ∀ j x, x < w → j ≠ y → (vxCells base w y w 0 s).gridAt base w j x = s.gridAt base w j x := by
      intro j x hx hj
      refine (vxCells_bufOnly base w y w 0 s).readBuf ?_
      rcases Nat.lt_or_gt_of_ne hj with h | h
      · have := row_offset h hx; omega
      · have h1 : (y + 1) * w ≤ j * w := Nat.mul_le_mul_right w h
        have h2 : (y + 1) * w = y * w + w := by ring
        omega
    intro j hj x hx
    refine ih (y := y + 1) (by omega) ?_ ?_ j (by omega) x hx
    · intro j hj x hx
      by_cases h : j = y
      · subst h
        rw [vxCells_read hy (by omega) (Nat.zero_le _) (by omega), htodo j (Nat.le_refl _) (by omega) x hx,
          hdone (j - 1) (by omega) x hx]
        obtain ⟨k, rfl⟩ := Nat.exists_eq_succ_of_ne_zero (Nat.ne_of_gt hy)
        rw [Nat.succ_sub_one, columnXor, BitVec.xor_comm]
      · rw [hkeep j x hx h]; exact hdone j (by omega) x hx
    · intro j h1 h2 x hx
      rw [hkeep j x hx (by omega)]; exact htodo j (by omega) (by omega) x hx

/-- VxorGrid changes BUF inside the grid only. -/
theorem vxorGrid_bufOnly (base w h : Nat) (s : State) : BufOnly (inGrid base w h) s (vxorGrid base w h s) := by
  unfold vxorGrid
  split
  · exact .refl _ s
  · refine (vxRows_bufOnly base w (h - 1) 1 s).mono fun a ha => ?_
    rcases Nat.eq_zero_or_pos h with rfl | hh
    · simp only [Nat.zero_sub, Nat.add_zero, Nat.one_mul] at ha; omega
    · rw [Nat.add_sub_cancel' hh, Nat.mul_comm h w] at ha
      exact ⟨by omega, ha.2⟩

/-- R160's closed form: out[y][x] = in[0][x] xor … xor in[y][x]. -/
theorem vxorGrid_read {base w h : Nat} {s : State} {y x : Nat} (hy : y < h) (hx : x < w) :
    (vxorGrid base w h s).gridAt base w y x = columnXor (s.gridAt base w) x y := by
  rw [vxorGrid, if_neg (by omega)]
  refine vxRows_read (Nat.le_refl 1) (fun j hj x hx => ?_) (fun j _ _ x hx => rfl) y (by omega) x hx
  obtain rfl : j = 0 := by omega
  rfl

/-- A cell of a grid lies inside it. -/
theorem inGrid_cell {base w h y x : Nat} (hy : y < h) (hx : x < w) : inGrid base w h (base + y * w + x) := by
  have h1 := row_offset hy hx
  rw [Nat.mul_comm h w] at h1
  exact ⟨by omega, by omega⟩

/-! ## Chunks -/

/-- R162: chunk `k` lies inside the region iff `k` is below the count. -/
theorem chunk_inside_iff {len size stride k : Nat} (hs : 0 < stride) :
    k * stride + size ≤ len ↔ k < chunkCount len size stride := by
  unfold chunkCount
  split
  · rw [Nat.lt_succ_iff, Nat.le_div_iff_mul_le hs]; omega
  · have := Nat.zero_le (k * stride); omega

theorem chunkCount_le (len size : Nat) {stride : Nat} : chunkCount len size stride ≤ len / stride + 1 := by
  unfold chunkCount
  split
  · exact Nat.succ_le_succ (Nat.div_le_div_right (Nat.sub_le _ _))
  · exact Nat.zero_le _

/-- The loop of `n` chunks from chunk `k`, without its test. -/
def chunkRun (base w h stride : Nat) : Nat → Nat → State → State
  | 0, _, s => s
  | n + 1, k, s => chunkRun base w h stride n (k + 1) ((vxorGrid (base + k * stride) w h s).setProgress (k + 1))

/-- The loop runs exactly the chunks inside the region, whatever its bound is beyond that. -/
theorem chunkLoop_eq_run {base len w h stride : Nat} (hs : 0 < stride) {fuel k : Nat} (s : State)
    (hf : chunkCount len (w * h) stride ≤ k + fuel) :
    chunkLoop base len w h stride fuel k s = chunkRun base w h stride (chunkCount len (w * h) stride - k) k s := by
  induction fuel generalizing k s with
  | zero => rw [Nat.sub_eq_zero_of_le (by omega)]; rfl
  | succ fuel ih =>
    rw [chunkLoop]
    by_cases hk : k < chunkCount len (w * h) stride
    · rw [if_pos ((chunk_inside_iff hs).mpr hk), ih _ (by omega),
        show chunkCount len (w * h) stride - k = (chunkCount len (w * h) stride - (k + 1)) + 1 by omega]
      rfl
    · rw [if_neg (mt (chunk_inside_iff hs).mp hk), Nat.sub_eq_zero_of_le (by omega)]
      rfl

/-- A run of chunks changes BUF inside those chunks, and PROGRESS. -/
theorem chunkRun_frame (base w h stride n k : Nat) (s : State) :
    chunkRun base w h stride n k s =
      { s with
        bufMem := (chunkRun base w h stride n k s).bufMem
        progress := if n = 0 then s.progress else Word.ofNat (k + n) } := by
  induction n generalizing k s with
  | zero => rfl
  | succ n ih =>
    rw [chunkRun, ih, (vxorGrid_bufOnly (base + k * stride) w h s).frame, if_neg (Nat.succ_ne_zero n)]
    rcases n with _ | n
    · rfl
    · rw [if_neg (Nat.succ_ne_zero n), show k + 1 + (n + 1) = k + (n + 1 + 1) by omega]; rfl

theorem chunkRun_memory (base w h stride n k : Nat) (s : State) :
    BufOnly (fun a => ∃ j, k ≤ j ∧ j < k + n ∧ inGrid (base + j * stride) w h a) s
      { chunkRun base w h stride n k s with progress := s.progress } := by
  induction n generalizing k s with
  | zero => exact .refl _ s
  | succ n ih =>
    have h1 := (vxorGrid_bufOnly (base + k * stride) w h s).mono
      (Q := fun a => ∃ j, k ≤ j ∧ j < k + (n + 1) ∧ inGrid (base + j * stride) w h a)
      fun a ha => ⟨k, Nat.le_refl k, by omega, ha⟩
    have h2 := (ih (k + 1) ((vxorGrid (base + k * stride) w h s).setProgress (k + 1))).mono
      (Q := fun a => ∃ j, k ≤ j ∧ j < k + (n + 1) ∧ inGrid (base + j * stride) w h a)
      fun a ⟨j, hj, hj', ha⟩ => ⟨j, by omega, by omega, ha⟩
    exact ⟨by rw [chunkRun_frame], h2.wf ∘ h1.wf, fun cap hb hP => h2.below cap (h1.below cap hb hP) hP,
      fun a ha => (h2.outside a ha).trans (h1.outside a ha)⟩

/-- Chunks do not overlap, so each holds the running XOR of its own bytes (R162, R164). -/
theorem chunkRun_read {base w h stride n k : Nat} {s : State} (hs : w * h ≤ stride) {j : Nat} (hj : k ≤ j)
    (hj' : j < k + n) {y x : Nat} (hy : y < h) (hx : x < w) :
    (chunkRun base w h stride n k s).gridAt (base + j * stride) w y x =
      columnXor (s.gridAt (base + j * stride) w) x y := by
  have apart : ∀ {i j : Nat}, i < j → i * stride + w * h ≤ j * stride := fun {i j} hij => by
    have h1 : (i + 1) * stride ≤ j * stride := Nat.mul_le_mul_right stride hij
    have h2 : (i + 1) * stride = i * stride + stride := by ring
    omega
  have cell : ∀ {y x}, y < h → x < w → y * w + x < w * h := fun {y x} hy hx => by
    have := row_offset hy hx; rw [Nat.mul_comm h w] at this; exact this
  induction n generalizing k s with
  | zero => omega
  | succ n ih =>
    rw [chunkRun]
    by_cases hjk : j = k
    · subst hjk
      have hm := (chunkRun_memory base w h stride n (j + 1)
        ((vxorGrid (base + j * stride) w h s).setProgress (j + 1))).readBuf (a := base + j * stride + y * w + x) (by
          rintro ⟨i, hi, -, ha, -⟩
          have := apart (show j < i by omega)
          have := cell hy hx
          omega)
      exact hm.trans (vxorGrid_read hy hx)
    · rw [ih (by omega) (by omega)]
      have hcol : ∀ y', y' < h → ((vxorGrid (base + k * stride) w h s).setProgress (k + 1)).gridAt (base + j * stride) w y' x =
          s.gridAt (base + j * stride) w y' x := fun y' hy' =>
        (vxorGrid_bufOnly (base + k * stride) w h s).readBuf (by
          rintro ⟨-, ha⟩
          have := apart (show k < j by omega)
          omega)
      clear ih
      induction y with
      | zero => exact hcol 0 hy
      | succ y ihy => rw [columnXor, columnXor, ihy (by omega), hcol (y + 1) hy]

/-! ## The encoder (R163) -/

theorem columnXor_congr {g g' : Nat → Nat → Byte} {x y : Nat} (h : ∀ j ≤ y, g j x = g' j x) :
    columnXor g x y = columnXor g' x y := by
  induction y with
  | zero => exact h 0 (Nat.le_refl 0)
  | succ y ih => rw [columnXor, columnXor, ih fun j hj => h j (by omega), h (y + 1) (Nat.le_refl _)]

theorem columnXor_gridEnc (g : Nat → Nat → Byte) (x y : Nat) : columnXor (gridEnc g) x y = g y x := by
  induction y with
  | zero => rfl
  | succ y ih =>
    rw [columnXor, ih, gridEnc, if_neg (Nat.succ_ne_zero y), Nat.succ_sub_one, BitVec.xor_comm (g (y + 1) x),
      ← BitVec.xor_assoc, BitVec.xor_self, BitVec.zero_xor]

theorem gridEnc_columnXor (g : Nat → Nat → Byte) (y x : Nat) : gridEnc (fun y x => columnXor g x y) y x = g y x := by
  cases y with
  | zero => rfl
  | succ y =>
    rw [gridEnc, if_neg (Nat.succ_ne_zero y), Nat.succ_sub_one]
    simp only [columnXor]
    rw [BitVec.xor_comm, ← BitVec.xor_assoc, BitVec.xor_self, BitVec.zero_xor]

end Sys2Proof.Machine
end

