-- ==== Sys2Proof/Laws/Frames.lean ====
section
/-! SUPPORT. What every procedure of the engine may write, how far it moves IN_POS, which bytes it stores, and which faults it raises, from any state and on any stream (30_encoding.md R93; 60_exceptions.md R203). -/

namespace Sys2Proof.Machine

/-! ## IN_POS -/

/-- IN_POS rises, and stays at or below the effective end if it moves (R21, R111). -/
structure Fetches (s t : State) : Prop where
  rises : s.inPos.toNat ≤ t.inPos.toNat
  bounded : t.inPos = s.inPos ∨ t.inPos.toNat ≤ s.eosLimit

theorem Fetches.refl (s : State) : Fetches s s := ⟨Nat.le_refl _, .inl rfl⟩

theorem Fetches.of_eq {s t : State} (h : t.inPos = s.inPos) : Fetches s t := ⟨by rw [h], .inl h⟩

/-- Fetches looks at IN_POS and the effective end alone. -/
theorem Fetches.congr {s t s' t' : State} (h : Fetches s t) (hs : s'.inPos = s.inPos) (he : s'.eosLimit = s.eosLimit)
    (ht : t'.inPos = t.inPos) : Fetches s' t' :=
  ⟨by rw [hs, ht]; exact h.rises, by rw [hs, ht, he]; exact h.bounded⟩

theorem Fetches.trans {s t u : State} (h : Fetches s t) (h' : Fetches t u) (he : t.eosLimit = s.eosLimit) :
    Fetches s u where
  rises := Nat.le_trans h.rises h'.rises
  bounded := by
    rcases h'.bounded with e | hb
    · rw [e]; exact h.bounded
    · exact .inr (he ▸ hb)

theorem fetches_advanceIn {s : State} (h : s.inPos.toNat < s.eosLimit) : Fetches s s.advanceIn :=
  ⟨by rw [advanceIn_inPos_toNat h]; omega, .inr (by rw [advanceIn_inPos_toNat h]; omega)⟩

/-! ## Faults -/

/-- The EOS of InByte, as the state after it shows it (R111, R203). -/
def EosAt (c : Cause) (v : Word) (t : State) : Prop := c = .eos ∧ v = t.inPos ∧ t.eosLimit ≤ t.inPos.toNat

/-- Deser's own faults (R131, R203). -/
def TreeFault (c : Cause) (v : Word) (t : State) : Prop :=
  (c = .treeOverflow ∧ t.treeNodes.toNat = t.par.nodeCap ∧ v = Word.ofNat t.par.nodeCap) ∨
  (c = .depthOverflow ∧ v = Word.ofNat (t.par.depthCap + 1))

/-! ## The bit reader -/

/-- Only the cursor and IN_POS change. -/
structure Reads (s t : State) : Prop where
  frame : t = { s with inPos := t.inPos, cursor := t.cursor }
  fetches : Fetches s t

theorem Reads.refl (s : State) : Reads s s := ⟨rfl, .refl s⟩

theorem Reads.eosLimit {s t : State} (h : Reads s t) : t.eosLimit = s.eosLimit := by rw [h.frame]; rfl

theorem Reads.trans {s t u : State} (h : Reads s t) (h' : Reads t u) : Reads s u where
  frame := by rw [h'.frame, h.frame]
  fetches := h.fetches.trans h'.fetches h.eosLimit

theorem readBit_post (s : State) : (readBit s).Post (Reads s) EosAt := by
  rcases readBit_cases s with ⟨-, h⟩ | ⟨-, hp, h⟩ | ⟨-, hp, h⟩ <;> rw [h]
  · exact ⟨rfl, .of_eq rfl⟩
  · exact ⟨rfl, (fetches_advanceIn hp).congr rfl rfl rfl⟩
  · exact ⟨.refl s, rfl, rfl, hp⟩

theorem readBits_post (n : Nat) (v : Byte) (s : State) : (readBits n v s).Post (Reads s) EosAt := by
  induction n generalizing v s with
  | zero => exact .refl s
  | succ n ih =>
    exact (readBit_post s).bind (fun _ h => h) fun b t _ h => (ih _ t).imp (fun _ h' => h.trans h') fun _ _ _ h => h

theorem readByte_post (s : State) : (readByte s).Post (Reads s) EosAt := readBits_post 8 0 s

/-! ## Huffman -/

theorem walkTree_post (fuel n : Nat) (s : State) : (walkTree fuel n s).Post (Reads s) EosAt := by
  induction fuel generalizing n s with
  | zero => trivial
  | succ fuel ih =>
    rw [walkTree]
    split
    · exact .refl s
    · exact (readBit_post s).bind (fun _ h => h) fun b t _ h => (ih _ t).imp (fun _ h' => h.trans h') fun _ _ _ h => h
    · trivial
    · trivial

theorem decodeSym_post (s : State) : (decodeSym s).Post (Reads s) EosAt := walkTree_post _ _ s

/-- Only the cursor, IN_POS and the arena with its count change. -/
structure Builds (s t : State) : Prop where
  frame : t = { s with inPos := t.inPos, cursor := t.cursor, arena := t.arena, treeNodes := t.treeNodes }
  fetches : Fetches s t

theorem Builds.eosLimit {s t : State} (h : Builds s t) : t.eosLimit = s.eosLimit := by rw [h.frame]; rfl

theorem Builds.trans {s t u : State} (h : Builds s t) (h' : Builds t u) : Builds s u where
  frame := by rw [h'.frame, h.frame]
  fetches := h.fetches.trans h'.fetches h.eosLimit

theorem Reads.builds {s t : State} (h : Reads s t) : Builds s t := ⟨by rw [h.frame], h.fetches⟩

theorem deser_post_any {cap : Nat} (levels d : Nat) (s : State) (hl : d + levels = cap + 1)
    (hc : s.par.depthCap = cap) : (deser levels d s).Post (Builds s) fun c v t => EosAt c v t ∨ TreeFault c v t := by
  have lift : ∀ {u v : State}, Builds u v → v.par.depthCap = u.par.depthCap := fun h => by rw [h.frame]
  induction levels generalizing d s with
  | zero =>
    rw [deser]
    exact ⟨(Reads.refl s).builds, .inr (.inr ⟨rfl, by rw [hc]; congr 1⟩)⟩
  | succ levels ih =>
    rw [deser]
    refine ((readBit_post s).imp (fun _ h => h.builds) fun _ _ _ h => .inl h).bind (fun _ h => h) fun b t _ h => ?_
    have hct : t.par.depthCap = cap := by rw [lift h, hc]
    split
    · exact ⟨h, .inr (.inl ⟨rfl, ‹_›, rfl⟩)⟩
    · have ha : Builds s t.allocNode := h.trans ⟨rfl, .of_eq rfl⟩
      cases b with
      | true =>
        refine ((readByte_post t.allocNode).imp (fun _ h => h.builds) fun _ _ _ h => .inl h).bind
          (fun _ h' => ha.trans h') fun v u _ h' => ?_
        exact ha.trans (h'.trans ⟨rfl, .of_eq rfl⟩)
      | false =>
        refine (ih (d + 1) t.allocNode (by omega) hct).bind (fun _ h' => ha.trans h') fun l u _ h1 => ?_
        have hu := ha.trans h1
        refine ((readBit_post u).imp (fun _ h => hu.trans h.builds) fun _ _ _ h => .inl h).bind (fun _ h => h)
          fun _ w _ h2 => ?_
        refine (ih (d + 1) w (by omega) (by rw [lift h2, hc])).bind (fun _ h' => h2.trans h') fun r x _ h3 => ?_
        exact h2.trans (h3.trans ⟨rfl, .of_eq rfl⟩)

theorem loadTree_post (s : State) :
    (loadTree s).Post
      (fun t => t = { s with
        status := { s.status with treeValid := t.status.treeValid }, inPos := t.inPos, cursor := t.cursor
        arena := t.arena, treeNodes := t.treeNodes } ∧ Fetches s t)
      fun c v t => EosAt c v t ∨ TreeFault c v t := by
  refine (deser_post_any (cap := s.par.depthCap) (s.par.depthCap + 1) 0 s.dropTree (Nat.zero_add _) rfl).bind
    (fun t h => ?_) fun _ t _ h => ?_
  · exact ⟨by rw [h.frame]; rfl, h.fetches.congr rfl rfl rfl⟩
  · refine ⟨?_, h.fetches.congr rfl rfl rfl⟩
    show t.validateTree = _
    rw [h.frame]; rfl

/-- Output bytes from position `i` up to at most `n` of them: the cursor and IN_POS may move, BUF changes in a prefix of
the range, and PROGRESS counts it (R38, R143). -/
structure Emits (i n : Nat) (s t : State) : Prop where
  frame : t = { s with inPos := t.inPos, cursor := t.cursor, bufMem := t.bufMem, progress := t.progress }
  fetches : Fetches s t
  range : ∃ j, i ≤ j ∧ j ≤ i + n ∧ t.progress = (if j = i then s.progress else Word.ofNat j) ∧
    ∀ a, a < s.outBase.toNat + i ∨ s.outBase.toNat + j ≤ a → t.readBuf a = s.readBuf a

theorem Reads.emits {s t : State} (h : Reads s t) (i n : Nat) : Emits i n s t :=
  ⟨by rw [h.frame], h.fetches, i, Nat.le_refl i, by omega, by rw [h.frame, if_pos rfl], fun a _ => by rw [h.frame]; rfl⟩

/-- One byte stored at position `i`, then output from `i + 1`. -/
theorem Emits.cons {i n : Nat} {s t u : State} (h : Reads s t) (v : Byte)
    (h' : Emits (i + 1) n ((t.storeBuf (t.outBase.toNat + i) v).setProgress (i + 1)) u) : Emits i (n + 1) s u := by
  have hob : t.outBase = s.outBase := by rw [h.frame]
  have hr : ∀ a, t.readBuf a = s.readBuf a := fun a => by rw [h.frame]; rfl
  refine ⟨by rw [h'.frame, h.frame]; rfl, ?_, ?_⟩
  · exact h.fetches.trans (h'.fetches.congr rfl rfl rfl) h.eosLimit
  · obtain ⟨j, h1, h2, h3, h4⟩ := h'.range
    refine ⟨j, by omega, by omega, ?_, fun a ha => ?_⟩
    · rw [h3, if_neg (by omega : ¬j = i)]
      split
      · subst j; rfl
      · rfl
    · have ho : ((t.storeBuf (t.outBase.toNat + i) v).setProgress (i + 1)).outBase = s.outBase := hob
      rw [h4 a (by rw [ho]; omega)]
      show (t.storeBuf (t.outBase.toNat + i) v).readBuf a = _
      rw [readBuf_storeBuf, if_neg (by rw [hob]; omega), hr]

theorem decodeLoop_post (n i : Nat) (s : State) : (decodeLoop n i s).Post (Emits i n s) EosAt := by
  induction n generalizing i s with
  | zero => exact (Reads.refl s).emits i 0
  | succ n ih =>
    rw [decodeLoop]
    exact (decodeSym_post s).bind (fun t h => h.emits i (n + 1)) fun v t _ h =>
      (ih (i + 1) _).imp (fun u h' => Emits.cons h v h') fun _ _ _ h => h

/-! ## Rolling XOR -/

theorem rxResult_frame (s : State) (k n : Nat) :
    s.rxResult k n = { s with
      inPos := (s.rxResult k n).inPos, seed := (s.rxResult k n).seed, key := (s.rxResult k n).key
      checksum := (s.rxResult k n).checksum, chkTarget := (s.rxResult k n).chkTarget
      rxCount := (s.rxResult k n).rxCount, bufMem := (s.rxResult k n).bufMem
      progress := (s.rxResult k n).progress } := rfl

/-- RxCore writes the registers of R93, moves IN_POS inside the input, stores a prefix of the output range and counts it,
and raises EOS alone. -/
structure RxEnds (s t : State) : Prop where
  frame : t = { s with
    status := { s.status with rxStop := t.status.rxStop }, inPos := t.inPos, seed := t.seed, key := t.key
    checksum := t.checksum, chkTarget := t.chkTarget, rxCount := t.rxCount, bufMem := t.bufMem, progress := t.progress }
  fetches : Fetches s t
  range : ∃ j, j ≤ s.outSize.toNat ∧ t.progress = (if j = 0 then s.progress else Word.ofNat j) ∧
    ∀ a, a < s.outBase.toNat ∨ s.outBase.toNat + j ≤ a → t.readBuf a = s.readBuf a

theorem rxEnds_result {s : State} {k n : Nat} (hk : k ≤ n) (hn : n ≤ s.outSize.toNat)
    (h : s.inPos.toNat + 2 + n ≤ s.eosLimit) (stop : Bool) :
    RxEnds s { s.rxResult k n with status := { s.status with rxStop := stop } } := by
  have h2 : (s.inPos + 2).toNat = s.inPos.toNat + 2 := rxSeeded_inPos_toNat (by omega)
  have hlt := eosLimit_lt s
  have hpos : (s.inPos + 2 + Word.ofNat n).toNat = s.inPos.toNat + 2 + n := by rw [add_ofNat_toNat (by omega), h2]
  refine ⟨rfl, ⟨?_, .inr ?_⟩, n, hn, rfl, fun a ha => rxResult_readBuf_outside s hk ha⟩
  · show _ ≤ (s.inPos + 2 + Word.ofNat n).toNat; omega
  · show (s.inPos + 2 + Word.ofNat n).toNat ≤ _; omega

theorem rxCore_post (mode : RxMode) (s : State) : (rxCore mode s).Post (RxEnds s) EosAt := by
  by_cases h : s.inPos.toNat + 2 ≤ s.eosLimit
  · obtain ⟨k, stop, hd, h1, h2⟩ := rxCore_total mode h
    have hlim : s.rxLimit ≤ s.outSize.toNat := Nat.min_le_right _ _
    have hk := hd.le
    by_cases hfit : s.inPos.toNat + 2 + s.outSize.toNat ≤ s.eosLimit
    · rw [h1 hfit]; exact rxEnds_result (by omega) (Nat.le_refl _) hfit stop
    · rw [h2 (s.eosLimit - (s.inPos.toNat + 2)) (by omega) (by omega)]
      refine ⟨rxEnds_result (by omega) (by omega) (by omega) stop, rfl, rfl, ?_⟩
      have h2 : (s.inPos + 2).toNat = s.inPos.toNat + 2 := rxSeeded_inPos_toNat h
      have hlt := eosLimit_lt s
      show s.eosLimit ≤ (s.inPos + 2 + Word.ofNat _).toNat
      rw [add_ofNat_toNat (by omega), h2]; omega
  · rw [rxCore_noSeeds mode (by omega)]
    split
    · exact ⟨⟨rfl, .of_eq rfl, 0, Nat.zero_le _, rfl, fun _ _ => rfl⟩, rfl, rfl, ‹_›⟩
    · have hp : s.inPos.toNat < s.eosLimit := by omega
      have hpos := advanceIn_inPos_toNat hp
      refine ⟨⟨rfl, (fetches_advanceIn hp).congr rfl rfl rfl, 0, Nat.zero_le _, rfl, fun _ _ => rfl⟩, rfl, rfl, ?_⟩
      show s.eosLimit ≤ s.advanceIn.inPos.toNat; omega

/-! ## The commands' rules, before completion or fault entry -/

/-- What BR_READ_BIT, BR_READ_BYTE and HT_DECODE may write. -/
structure Takes (s t : State) : Prop where
  frame : t = { s with cursor := t.cursor, inPos := t.inPos, result := t.result }
  fetches : Fetches s t

theorem Reads.takes {s t : State} (h : Reads s t) : Takes s t := ⟨by rw [h.frame], h.fetches⟩

theorem Reads.takes_result {s t : State} (h : Reads s t) (v : Byte) : Takes s (t.setResult v) :=
  ⟨by rw [h.frame]; rfl, h.fetches.congr rfl rfl rfl⟩

theorem brReadBit_post (s : State) :
    ((readBit s).bind fun b s => .ok () (s.setResult (if b then 1 else 0))).Post (Takes s) EosAt :=
  (readBit_post s).bind (fun _ h => h.takes) fun _ _ _ h => h.takes_result _

theorem brReadByte_post (s : State) : ((readByte s).bind fun v s => .ok () (s.setResult v)).Post (Takes s) EosAt :=
  (readByte_post s).bind (fun _ h => h.takes) fun _ _ _ h => h.takes_result _

/-- NO_TREE (R203). -/
def NoTreeFault (s : State) (c : Cause) (v : Word) : Prop := c = .noTree ∧ s.status.treeValid = false ∧ v = 0

/-- CheckOut's BUF_RANGE (R203, R206). -/
def RangeFault (s : State) (c : Cause) (v : Word) : Prop :=
  c = .bufRange ∧ s.par.bufCap < s.outBase.toNat + s.outSize.toNat ∧ v = 0

theorem checkTree_post (s : State) : (checkTree s).Post (fun t => t = s) fun c v _ => NoTreeFault s c v := by
  unfold checkTree
  split
  · rfl
  · exact ⟨rfl, rfl, by simp_all, rfl⟩

theorem checkOut_post (s : State) : (checkOut s).Post (fun t => t = s) fun c v _ => RangeFault s c v := by
  rcases checkOut_cases s with ⟨-, h⟩ | ⟨hf, h⟩ <;> rw [h]
  · rfl
  · exact ⟨rfl, rfl, by unfold State.outFits at hf; omega, rfl⟩

theorem htDecode_post (s : State) :
    ((checkTree s).bind fun _ s => (decodeSym s).bind fun v s => .ok () (s.setResult v)).Post (Takes s)
      fun c v t => NoTreeFault s c v ∨ EosAt c v t := by
  refine ((checkTree_post s).imp (fun _ h => h) fun _ _ _ h => .inl h).bind
    (fun t h => by subst h; exact (Reads.refl _).takes) ?_
  rintro _ t - rfl
  exact ((decodeSym_post t).imp (fun _ h => h) fun _ _ _ h => .inr h).bind (fun _ h => h.takes)
    fun _ _ _ h => h.takes_result _

theorem htDecodeN_post (s : State) :
    ((checkTree s).bind fun _ s => (checkOut s).bind fun _ s => decodeLoop s.outSize.toNat 0 s).Post
      (Emits 0 s.outSize.toNat s) fun c v t => NoTreeFault s c v ∨ RangeFault s c v ∨ EosAt c v t := by
  refine ((checkTree_post s).imp (fun _ h => h) fun _ _ _ h => .inl h).bind
    (fun t h => by subst h; exact (Reads.refl _).emits _ _) ?_
  rintro _ t - rfl
  refine ((checkOut_post t).imp (fun _ h => h) fun _ _ _ h => .inr (.inl h)).bind
    (fun t h => by subst h; exact (Reads.refl _).emits _ _) ?_
  rintro _ t - rfl
  exact (decodeLoop_post _ _ t).imp (fun _ h => h) fun _ _ _ h => .inr (.inr h)

/-- What HT_BLOCK may write, and the prefix of its output range that it stores. -/
structure BlockEnds (s t : State) : Prop where
  frame : t = { s with
    status := { s.status with treeValid := t.status.treeValid }, cursor := t.cursor, inPos := t.inPos
    arena := t.arena, treeNodes := t.treeNodes, bufMem := t.bufMem, progress := t.progress }
  fetches : Fetches s t
  range : ∃ j, j ≤ s.outSize.toNat ∧ t.progress = (if j = 0 then s.progress else Word.ofNat j) ∧
    ∀ a, a < s.outBase.toNat ∨ s.outBase.toNat + j ≤ a → t.readBuf a = s.readBuf a

theorem BlockEnds.of_load {s t : State}
    (h : t = { s with
      status := { s.status with treeValid := t.status.treeValid }, cursor := t.cursor, inPos := t.inPos
      arena := t.arena, treeNodes := t.treeNodes }) (hf : Fetches s t) : BlockEnds s t :=
  ⟨by rw [h], hf, 0, Nat.zero_le _, by rw [h]; rfl, fun a _ => by rw [h]; rfl⟩

theorem htBlock_post (s : State) :
    ((checkOut s).bind fun _ s => (loadTree (s.setCursor ⟨0, 0⟩)).bind fun _ s =>
      (decodeLoop s.outSize.toNat 0 s).bind fun _ s => .ok () s.dropTree).Post
      (BlockEnds s) fun c v t => RangeFault s c v ∨ EosAt c v t ∨ TreeFault c v t := by
  refine ((checkOut_post s).imp (fun _ h => h) fun _ _ _ h => .inl h).bind
    (fun t h => by subst h; exact .of_load rfl (.refl _)) ?_
  rintro _ t - rfl
  refine ((loadTree_post (t.setCursor ⟨0, 0⟩)).imp (fun _ h => h) fun _ _ _ h => .inr h).bind
    (fun u h => .of_load (by rw [h.1]; rfl) (h.2.congr rfl rfl rfl)) ?_
  rintro _ u - ⟨hu, hf⟩
  have hos : u.outSize = t.outSize := by rw [hu]; rfl
  have hob : u.outBase = t.outBase := by rw [hu]; rfl
  have hpr : u.progress = t.progress := by rw [hu]; rfl
  have hrb : ∀ a, u.readBuf a = t.readBuf a := fun a => by rw [hu]; rfl
  have heos : u.eosLimit = t.eosLimit := by rw [hu]; rfl
  have key : ∀ w, Emits 0 u.outSize.toNat u w → BlockEnds t w := by
    intro w h
    refine ⟨by rw [h.frame, hu]; rfl, (hf.congr (s' := t) rfl rfl rfl).trans h.fetches heos, ?_⟩
    obtain ⟨j, -, h2, h3, h4⟩ := h.range
    exact ⟨j, by rw [← hos]; omega, by rw [h3, hpr], fun a ha => by rw [h4 a (by rw [hob]; omega), hrb]⟩
  refine ((decodeLoop_post _ _ u).imp key fun _ _ _ h => .inr (.inl h)).bind (fun _ h => h) fun _ w _ h => ?_
  exact ⟨by show w.dropTree = _; rw [h.frame]; rfl, h.fetches.congr rfl rfl rfl, h.range⟩

/-- What VX_DECODE and VX_CHUNKS may write, and where in BUF. -/
structure VxEnds (P : Nat → Prop) (s t : State) : Prop where
  frame : t = { s with bufMem := t.bufMem, progress := t.progress }
  outside : ∀ a, ¬P a → t.readBuf a = s.readBuf a

theorem vxDecode_post (s : State) :
    (if s.gridFits then
      Eng.ok () ((vxorGrid s.vxBase.toNat s.vxWidth.toNat s.vxHeight.toNat s).setProgress s.gridSize)
    else .raise .bufRange 0 s).Post (VxEnds (inGrid s.vxBase.toNat s.vxWidth.toNat s.vxHeight.toNat) s)
      fun c v _ => c = .bufRange ∧ s.par.bufCap < s.vxBase.toNat + s.vxWidth.toNat * s.vxHeight.toNat ∧ v = 0 := by
  split
  · have h := vxorGrid_bufOnly s.vxBase.toNat s.vxWidth.toNat s.vxHeight.toNat s
    exact ⟨by rw [h.frame]; rfl, fun a ha => h.readBuf ha⟩
  · rename_i hf
    exact ⟨⟨rfl, fun _ _ => rfl⟩, rfl, by unfold State.gridFits State.gridSize at hf; omega, rfl⟩

theorem vxChunks_post (s : State) :
    (if s.regionFits then
      if s.strideOk then
        Eng.ok () (chunkLoop s.vxBase.toNat s.vxLen.toNat s.vxWidth.toNat s.vxHeight.toNat s.vxStride.toNat
          (s.vxLen.toNat / s.vxStride.toNat + 1) 0 s)
      else .raise .badParam s.vxStride s
    else .raise .bufRange 0 s).Post
      (VxEnds (fun a => ∃ k, k < chunkCount s.vxLen.toNat (s.vxWidth.toNat * s.vxHeight.toNat) s.vxStride.toNat ∧
        inGrid (s.vxBase.toNat + k * s.vxStride.toNat) s.vxWidth.toNat s.vxHeight.toNat a) s)
      fun c v _ => (c = .bufRange ∧ s.par.bufCap < s.vxBase.toNat + s.vxLen.toNat ∧ v = 0) ∨
        (c = .badParam ∧ (s.vxStride = 0 ∨ s.vxStride.toNat < s.vxWidth.toNat * s.vxHeight.toNat) ∧ v = s.vxStride) := by
  split
  · split
    · rename_i hok
      have hS : 0 < s.vxStride.toNat := Nat.pos_of_ne_zero fun h => hok.1 (BitVec.eq_of_toNat_eq h)
      rw [chunkLoop_eq_run hS s (by rw [Nat.zero_add]; exact chunkCount_le _ _)]
      refine ⟨chunkRun_frame _ _ _ _ _ _ _ ▸ rfl, fun a ha => ?_⟩
      refine (chunkRun_memory _ _ _ _ _ _ _).readBuf (a := a) fun h => ha ?_
      obtain ⟨j, -, h2, h3⟩ := h
      exact ⟨j, by omega, h3⟩
    · rename_i hok
      refine ⟨⟨rfl, fun _ _ => rfl⟩, .inr ⟨rfl, ?_, rfl⟩⟩
      unfold State.strideOk State.gridSize at hok
      by_cases h0 : s.vxStride = 0
      · exact .inl h0
      · exact .inr (Nat.lt_of_not_le fun h => hok ⟨h0, h⟩)
  · rename_i hf
    exact ⟨⟨rfl, fun _ _ => rfl⟩, .inl ⟨rfl, by unfold State.regionFits at hf; omega, rfl⟩⟩

theorem rx_post (mode : RxMode) (s : State) :
    ((checkOut s).bind fun _ s => rxCore mode s).Post (RxEnds s) fun c v t => RangeFault s c v ∨ EosAt c v t := by
  refine ((checkOut_post s).imp (fun _ h => h) fun _ _ _ h => .inl h).bind
    (fun t h => by subst h; exact ⟨rfl, .refl _, 0, Nat.zero_le _, rfl, fun _ _ => rfl⟩) ?_
  rintro _ t - rfl
  exact (rxCore_post mode t).imp (fun _ h => h) fun _ _ _ h => .inr h

end Sys2Proof.Machine
end

