-- ==== Sys2Proof/Laws/HostPort.lean ====
section
/-! SUPPORT. The host port: which register an access reaches, multi-byte accesses byte by byte, and what each act keeps (20_memory.md R61, R64; 10_state.md R23). -/

namespace Sys2Proof.Machine

/-! ## REG -/

theorem ofOffset_offset (r : Reg) : Reg.ofOffset r.offset = some r := by cases r <;> rfl

/-- No register stands at a reserved offset (R46) or at one that is not a multiple of 4 (R61). -/
theorem ofOffset_none (off : BitVec 8) (h : 0x70 ≤ off.toNat ∨ off.toNat % 4 ≠ 0) : Reg.ofOffset off = none := by
  revert off; decide

/-- A REG write reaches nothing, or is the write of one register. -/
theorem regWrite_cases (s : State) (off : BitVec 8) (wid : Width) (v : Word) :
    (∃ r, HostAct.regWrite off wid v = wr r v) ∨ (selectReg off wid = none ∧ s.hostRegWrite off wid v =
      if s.status.busy then s.setHaz else s) := by
  cases hsel : selectReg off wid with
  | none => exact .inr ⟨rfl, by simp only [State.hostRegWrite, hsel]⟩
  | some r =>
    refine .inl ⟨r, ?_⟩
    cases wid with
    | word =>
      have : r.offset = off := by
        have h : regTable.find? (fun r => r.offset == off) = some r := hsel
        simpa using List.find?_some h
      rw [wr, this]
    | byte => cases hsel
    | half => cases hsel

/-- A host write of a register. -/
theorem hostAct_wr (s : State) (r : Reg) (v : Word) :
    s.hostAct (wr r v) =
      if s.status.busy then s.setHaz else match r with | .cmd => s.cmdWrite v | r => s.writeReg r v := by
  show s.hostRegWrite r.offset .word v = _
  unfold State.hostRegWrite selectReg
  simp only [ofOffset_offset]
  cases r <;> rfl

/-- A host read of a register. -/
theorem hostAct_rd (s : State) (r : Reg) : s.hostAct (rd r) = s.hostReadOf r := by
  show s.hostRegRead r.offset .word = _
  unfold State.hostRegRead selectReg
  simp only [ofOffset_offset]

/-- A REG read changes nothing but the host's read data and the count of draws (R61). -/
theorem hostReadOf_frame (s : State) (r : Reg) :
    s.hostReadOf r = { s with rdata := (s.hostReadOf r).rdata, draws := (s.hostReadOf r).draws } := by
  unfold State.hostReadOf State.answer State.answerDraw
  repeat' split
  all_goals rfl

theorem hostRegRead_frame (s : State) (off : BitVec 8) (wid : Width) :
    s.hostRegRead off wid =
      { s with rdata := (s.hostRegRead off wid).rdata, draws := (s.hostRegRead off wid).draws } := by
  unfold State.hostRegRead
  split
  · rfl
  · exact hostReadOf_frame s _

/-! ## IN and BUF -/

theorem wordByte_shift (v : Word) (i : Nat) : wordByte (v >>> 8) i = wordByte v (i + 1) := by
  apply BitVec.eq_of_getLsbD_eq
  intro j hj
  simp only [wordByte, BitVec.getLsbD_extractLsb', BitVec.getLsbD_ushiftRight]
  congr 2; omega

/-- A multi-byte store is a little-endian sequence of byte stores (R64). -/
theorem readSpace_storeSpace (s : State) (sp sp' : Space) (a x : Nat) (v : Byte) :
    (s.storeSpace sp a v).readSpace sp' x = if sp' = sp ∧ x = a then v else s.readSpace sp' x := by
  have h1 : (s.storeIn a v).readBuf x = s.readBuf x := rfl
  have h2 : (s.storeBuf a v).readIn x = s.readIn x := rfl
  cases sp <;> cases sp' <;> simp [State.storeSpace, State.readSpace, readIn_storeIn, readBuf_storeBuf, h1, h2]

theorem readSpace_storeBytes (s : State) (sp sp' : Space) (a x : Nat) (v : Word) (n : Nat) :
    (s.storeBytes sp a v n).readSpace sp' x =
      if sp' = sp ∧ a ≤ x ∧ x < a + n then wordByte v (x - a) else s.readSpace sp' x := by
  induction n generalizing s a v with
  | zero => rw [State.storeBytes, if_neg (by omega)]
  | succ n ih =>
    rw [State.storeBytes, ih, readSpace_storeSpace, wordByte_shift]
    by_cases hsp : sp' = sp
    · by_cases hx : x = a
      · subst hx; simp [hsp, wordByte]
      · by_cases hr : a ≤ x ∧ x < a + (n + 1)
        · rw [if_pos ⟨hsp, by omega, by omega⟩, if_pos ⟨hsp, hr⟩, show x - (a + 1) + 1 = x - a by omega]
        · rw [if_neg (by omega), if_neg (by tauto), if_neg (by tauto)]
    · simp [hsp]

theorem storeBytes_frame (s : State) (sp : Space) (a : Nat) (v : Word) (n : Nat) :
    s.storeBytes sp a v n =
      { s with inMem := (s.storeBytes sp a v n).inMem, bufMem := (s.storeBytes sp a v n).bufMem } := by
  induction n generalizing s a v with
  | zero => rfl
  | succ n ih => rw [State.storeBytes, ih]; cases sp <;> rfl

/-- A store inside its space keeps the canonical form. -/
theorem storeBytes_memoryLegal {s : State} {sp : Space} {a n : Nat} (v : Word) (h : MemoryLegal s)
    (hn : a + n ≤ s.spaceCap sp) : MemoryLegal (s.storeBytes sp a v n) := by
  induction n generalizing s a v with
  | zero => exact h
  | succ n ih =>
    have hcap : (s.storeSpace sp a (v.extractLsb' 0 8)).spaceCap sp = s.spaceCap sp := by cases sp <;> rfl
    refine ih _ ?_ (by rw [hcap]; omega)
    cases sp with
    | inSpace =>
      exact ⟨Memory.write_wf _ _ h.inWf, Memory.write_below _ h.inBelow (Nat.lt_of_lt_of_le (by omega) hn), h.bufWf, h.bufBelow⟩
    | bufSpace =>
      exact ⟨h.inWf, h.inBelow, Memory.write_wf _ _ h.bufWf, Memory.write_below _ h.bufBelow (Nat.lt_of_lt_of_le (by omega) hn)⟩

theorem readBytes_succ_byte (w : Word) (b : Byte) (hw : w.toNat < 2 ^ 24) (i : Nat) :
    wordByte ((w <<< 8) ||| b.zeroExtend 32) i = if i = 0 then b else wordByte w (i - 1) := by
  apply BitVec.eq_of_getLsbD_eq
  intro j hj
  simp only [wordByte, BitVec.getLsbD_extractLsb', BitVec.getLsbD_or, BitVec.getLsbD_shiftLeft]
  by_cases h0 : i = 0
  · subst h0; simp [hj]; omega
  · rw [if_neg h0, BitVec.getLsbD_extractLsb']
    have e : 8 * i + j - 8 = 8 * (i - 1) + j := by omega
    by_cases h32 : 8 * i + j < 32
    · simp [hj, h32, e, BitVec.getLsbD_of_ge b (8 * i + j) (by omega)]; omega
    · have : w.getLsbD (8 * (i - 1) + j) = false := by
        rw [BitVec.getLsbD, Nat.testBit_lt_two_pow (Nat.lt_of_lt_of_le hw (Nat.pow_le_pow_right (by decide) (by omega)))]
      simp [h32, this, BitVec.getLsbD_of_ge b (8 * i + j) (by omega)]

theorem readBytes_toNat_lt (s : State) (sp : Space) (a : Nat) {n : Nat} (hn : n ≤ 4) :
    (s.readBytes sp a n).toNat < 256 ^ n := by
  induction n generalizing a with
  | zero => simp [State.readBytes]
  | succ n ih =>
    have h := ih (a + 1) (by omega)
    have hb := (s.readSpace sp a).isLt
    have hp : 256 ^ n * 256 ≤ 2 ^ 32 := by
      calc 256 ^ n * 256 = 256 ^ (n + 1) := (Nat.pow_succ ..).symm
        _ ≤ 256 ^ 4 := Nat.pow_le_pow_right (by decide) hn
        _ = 2 ^ 32 := by decide
    have hor : ((s.readBytes sp (a + 1) n <<< 8) ||| (s.readSpace sp a).zeroExtend 32).toNat =
        (s.readBytes sp (a + 1) n).toNat * 256 + (s.readSpace sp a).toNat := by
      rw [BitVec.toNat_or, BitVec.toNat_shiftLeft, Nat.shiftLeft_eq, Nat.mod_eq_of_lt (by omega)]
      have : ((s.readSpace sp a).zeroExtend 32).toNat = (s.readSpace sp a).toNat := by
        simp [BitVec.toNat_setWidth]; omega
      rw [this, Nat.mul_comm, ← Nat.two_pow_add_eq_or_of_lt (i := 8) (by omega)]
    rw [State.readBytes, hor, Nat.pow_succ]; omega

/-- A multi-byte read, byte by byte (R64, R67). -/
theorem wordByte_readBytes (s : State) (sp : Space) (a : Nat) {n : Nat} (hn : n ≤ 4) (i : Nat) :
    wordByte (s.readBytes sp a n) i = if i < n then s.readSpace sp (a + i) else 0 := by
  induction n generalizing a i with
  | zero => simp [State.readBytes, wordByte]
  | succ n ih =>
    have hlt : (s.readBytes sp (a + 1) n).toNat < 2 ^ 24 :=
      Nat.lt_of_lt_of_le (readBytes_toNat_lt s sp (a + 1) (by omega))
        (calc 256 ^ n ≤ 256 ^ 3 := Nat.pow_le_pow_right (by decide) (by omega)
          _ = 2 ^ 24 := by decide)
    rw [State.readBytes, readBytes_succ_byte _ _ hlt]
    cases i with
    | zero => simp
    | succ i =>
      rw [if_neg (by omega), Nat.add_sub_cancel, ih _ (by omega), show a + 1 + i = a + (i + 1) by omega]
      simp

theorem widthBytes_le (wid : Width) : widthBytes wid ≤ 4 := by cases wid <;> decide

theorem widthBytes_pos (wid : Width) : 1 ≤ widthBytes wid := by cases wid <;> decide

/-! ## STATUS under a host act -/

/-- What a host act does to the parameters and to BUSY, ERR and HAZ (R26's "set by" and "cleared by"). -/
structure HostKeeps (s : State) (a : HostAct) (t : State) : Prop where
  par : t.par = s.par
  busyStays : a ≠ .rst → s.status.busy = true → t.status.busy = true
  busySet : s.status.busy = false → t.status.busy = true →
    ∃ w, a = wr .cmd w ∧ s.status.err = false ∧ decode w = .ok t.latch
  errCleared : a ≠ .rst → s.status.err = true → t.status.err = false →
    ∃ v, a = wr .status v ∧ s.status.busy = false ∧ v.getLsbD 2 = true
  hazCleared : a ≠ .rst → s.status.haz = true → t.status.haz = false →
    ∃ v, a = wr .status v ∧ s.status.busy = false ∧ v.getLsbD 3 = true
  hazSet : s.status.haz = false → t.status.haz = true →
    s.status.busy = true ∨ s.status.err = true ∧ ∃ w, a = wr .cmd w
  errSet : s.status.err = false → t.status.err = true →
    ∃ w, a = wr .cmd w ∧ s.status.busy = false ∧ ∀ i, decode w ≠ .ok i

theorem HostKeeps.same {s t : State} {a : HostAct} (hp : t.par = s.par) (hs : t.status = s.status) : HostKeeps s a t := by
  refine ⟨hp, ?_, ?_, ?_, ?_, ?_, ?_⟩ <;> rw [hs]
  · exact fun _ => id
  · intro h h'; rw [h] at h'; exact absurd h' (by decide)
  · intro _ h h'; rw [h] at h'; exact absurd h' (by decide)
  · intro _ h h'; rw [h] at h'; exact absurd h' (by decide)
  · intro h h'; rw [h] at h'; exact absurd h' (by decide)
  · intro h h'; rw [h] at h'; exact absurd h' (by decide)

theorem HostKeeps.setsHaz {s t : State} {a : HostAct} (hc : s.status.busy = true ∨ s.status.err = true ∧ ∃ w, a = wr .cmd w)
    (hp : t.par = s.par) (hs : t.status = { s.status with haz := true }) : HostKeeps s a t := by
  refine ⟨hp, ?_, ?_, ?_, ?_, fun _ _ => hc, ?_⟩ <;> rw [hs]
  · exact fun _ => id
  · intro h h'; simp [h] at h'
  · intro _ h h'; simp [h] at h'
  · intro _ h h'; simp at h'
  · intro h h'; simp [h] at h'

theorem hostAct_keeps (s : State) (a : HostAct) : HostKeeps s a (s.hostAct a) := by
  cases a with
  | regRead off wid =>
    exact .same (by show (s.hostRegRead off wid).par = _; rw [hostRegRead_frame])
      (by show (s.hostRegRead off wid).status = _; rw [hostRegRead_frame])
  | memRead sp off wid =>
    simp only [State.hostAct, State.hostMemRead]; split
    · exact .setsHaz (.inl ‹_›) rfl rfl
    · split <;> exact .same rfl rfl
  | memWrite sp off wid v =>
    simp only [State.hostAct, State.hostMemWrite]; split
    · exact .setsHaz (.inl ‹_›) rfl rfl
    · split
      · exact .same (by rw [storeBytes_frame]) (by rw [storeBytes_frame])
      · exact .same rfl rfl
  | waitIdle =>
    simp only [State.hostAct, State.hostWait]; split
    · exact .same (by show (s.hostReadOf .status).par = _; rw [hostReadOf_frame])
        (by show (s.hostReadOf .status).status = _; rw [hostReadOf_frame])
    · exact .same (by rw [hostReadOf_frame]) (by rw [hostReadOf_frame])
  | rst =>
    exact ⟨rfl, fun h => absurd rfl h, (fun _ h => nomatch h), fun h => absurd rfl h, fun h => absurd rfl h, (fun _ h => nomatch h), (fun _ h => nomatch h)⟩
  | regWrite off wid v =>
    rcases regWrite_cases s off wid v with ⟨r, hr⟩ | ⟨-, hr⟩
    · rw [hr, hostAct_wr]
      by_cases hb : s.status.busy = true
      · rw [if_pos hb]; exact .setsHaz (.inl hb) rfl rfl
      · rw [if_neg hb]
        have hb' : s.status.busy = false := by simpa using hb
        cases r
        case cmd =>
          show HostKeeps s _ (s.cmdWrite v)
          unfold State.cmdWrite
          rw [if_neg hb]
          split
          · exact .setsHaz (.inr ⟨‹_›, _, rfl⟩) rfl rfl
          · rename_i he
            have he' : s.status.err = false := by simpa using he
            split
            · rename_i i hd
              refine ⟨rfl, fun _ _ => rfl, fun _ _ => ⟨v, rfl, he', hd⟩, fun _ h => absurd h he, fun _ h h' => ?_, fun h h' => ?_,
                fun _ h' => absurd h' he⟩
              · change s.status.haz = false at h'; rw [h] at h'; exact nomatch h'
              · change s.status.haz = true at h'; rw [h] at h'; exact nomatch h'
            · rename_i hd
              refine ⟨rfl, fun _ h => h, fun _ h => absurd h hb, fun _ h => absurd h he, fun _ h h' => ?_, fun h h' => ?_,
                fun _ _ => ⟨v, rfl, hb', fun i hi => nomatch hd.symm.trans hi⟩⟩
              · change s.status.haz = false at h'; rw [h] at h'; exact nomatch h'
              · change s.status.haz = true at h'; rw [h] at h'; exact nomatch h'
        case status =>
          show HostKeeps s _ (s.writeStatus v)
          obtain ⟨t, ht⟩ : ∃ t, s.writeStatus v = t := ⟨_, rfl⟩
          have hp : t.par = s.par := by rw [← ht]; unfold State.writeStatus; split <;> rfl
          have hb1 : t.status.busy = s.status.busy := by rw [← ht]; unfold State.writeStatus; split <;> rfl
          have he1 : t.status.err = (s.status.err && !v.getLsbD 2) := by
            rw [← ht]; unfold State.writeStatus; split <;> simp_all [State.clearErr]
          have hz1 : t.status.haz = (s.status.haz && !v.getLsbD 3) := by
            rw [← ht]; unfold State.writeStatus; split <;> simp_all [State.clearErr]
          rw [ht]
          refine ⟨hp, fun _ h => absurd h hb, fun _ h => absurd (hb1 ▸ h) hb, fun _ h h' => ⟨v, rfl, hb', ?_⟩,
            fun _ h h' => ⟨v, rfl, hb', ?_⟩, fun h h' => ?_, fun h h' => ?_⟩
          · rw [he1, h] at h'; simpa using h'
          · rw [hz1, h] at h'; simpa using h'
          · rw [hz1, h] at h'; simp at h'
          · rw [he1, h] at h'; simp at h'
        all_goals exact .same rfl rfl
    · show HostKeeps s _ (s.hostRegWrite off wid v)
      rw [hr]; split
      · exact .setsHaz (.inl ‹_›) rfl rfl
      · exact .same rfl rfl

end Sys2Proof.Machine
end

