-- ==== Sys2Proof/Laws/Legality.lean ====
section
/-! SUPPORT. Every rule of a command, run in a legal state, ends in a legal state and never stops (10_state.md R33 to R35; 20_memory.md R62, R63; 60_exceptions.md R203). -/

namespace Sys2Proof.Machine

/-- The part of legality that a command's rule keeps: everything but STATUS and FAULT_INFO. -/
structure Legal (s : State) : Prop where
  params : s.par.valid = true
  mask : s.cursor.mask ∈ legalMasks
  tree : TreeLegal s
  memory : MemoryLegal s

theorem Inv.legal {s : State} (h : Inv s) : Legal s := ⟨h.params, h.mask, h.tree, h.memory⟩

theorem Legal.inv {s : State} (h : Legal s) (hs : StatusLegal s) : Inv s := ⟨h.params, hs, h.mask, h.tree, h.memory⟩

/-- Legality looks at these fields alone. -/
theorem Legal.congr {s t : State} (h : Legal s) (hp : t.par = s.par) (hm : t.cursor.mask ∈ legalMasks)
    (ha : t.arena = s.arena) (hn : t.treeNodes = s.treeNodes)
    (hv : t.status.treeValid = true → s.status.treeValid = true) (hi : t.inMem = s.inMem) (hb : t.bufMem = s.bufMem) :
    Legal t where
  params := by rw [hp]; exact h.params
  mask := hm
  tree := ⟨by rw [ha, hn]; exact h.tree.counted, by rw [hn, hp]; exact h.tree.bounded,
    fun hv' => by rw [ha, hp]; exact h.tree.valid (hv hv')⟩
  memory := ⟨by rw [hi]; exact h.memory.inWf, by rw [hi, hp]; exact h.memory.inBelow, by rw [hb]; exact h.memory.bufWf,
    by rw [hb, hp]; exact h.memory.bufBelow⟩

/-- Storing bytes inside BUF keeps legality. -/
theorem Legal.stores {s t : State} (h : Legal s) {a : Nat} {vs : List Byte} (ha : a + vs.length ≤ s.par.bufCap)
    (hp : t.par = s.par) (hm : t.cursor.mask ∈ legalMasks) (hA : t.arena = s.arena) (hn : t.treeNodes = s.treeNodes)
    (hv : t.status.treeValid = true → s.status.treeValid = true) (hi : t.inMem = s.inMem)
    (hb : t.bufMem = Memory.writeAll s.bufMem a vs) : Legal t where
  params := by rw [hp]; exact h.params
  mask := hm
  tree := ⟨by rw [hA, hn]; exact h.tree.counted, by rw [hn, hp]; exact h.tree.bounded,
    fun hv' => by rw [hA, hp]; exact h.tree.valid (hv hv')⟩
  memory := ⟨by rw [hi]; exact h.memory.inWf, by rw [hi, hp]; exact h.memory.inBelow,
    by rw [hb]; exact Memory.writeAll_wf _ _ h.memory.bufWf,
    by rw [hb, hp]; exact Memory.writeAll_below _ _ h.memory.bufBelow ha⟩

theorem valid_nodeCap_lt {p : Params} (h : p.valid = true) : p.nodeCap < 2 ^ 32 := by
  simp only [Params.valid, Bool.and_eq_true, decide_eq_true_eq] at h; omega

theorem Legal.nodeCap_lt {s : State} (h : Legal s) : s.par.nodeCap < 2 ^ 32 := valid_nodeCap_lt h.params

theorem Legal.afterBits {s : State} (h : Legal s) (n : Nat) : Legal (s.afterBits n) := by
  have hf := afterBits_frame s n
  exact h.congr (by rw [hf]) (afterBits_mask_legal h.mask n) (by rw [hf]) (by rw [hf]) (fun hv => by rw [hf] at hv; exact hv)
    (by rw [hf]) (by rw [hf])

theorem Legal.dropTree {s : State} (h : Legal s) : Legal s.dropTree :=
  ⟨h.params, h.mask, ⟨rfl, Nat.zero_le _, fun hv => nomatch hv⟩, h.memory.inWf, h.memory.inBelow, h.memory.bufWf, h.memory.bufBelow⟩

/-- Every end of a procedure satisfies `Q`, and it does not stop. -/
def Eng.Ends {α : Type} (Q : State → Prop) (x : Eng α) : Prop :=
  match x with
  | .ok _ t => Q t
  | .raise _ _ t => Q t
  | .stuck _ => False

theorem Eng.Ends.bind {α β : Type} {Q : State → Prop} {x : Eng α} {f : α → State → Eng β} (hx : x.Ends Q)
    (hf : ∀ a t, x = .ok a t → Q t → (f a t).Ends Q) : (x.bind f).Ends Q := by
  cases x with
  | ok a t => exact hf a t rfl hx
  | raise c v t => exact hx
  | stuck e => exact hx

/-- The command ends, completed or faulted, and `Q` held at its end. -/
theorem Eng.Ends.finish {α : Type} {Q : State → Prop} {x : Eng α} (hx : x.Ends Q) :
    ∃ u, Q u ∧ ((∃ a, x = .ok a u) ∧ x.finish = .next u.complete ∨
      ∃ c v, x = .raise c v u ∧ x.finish = .next (u.takeFault c v)) := by
  cases x with
  | ok a u => exact ⟨u, hx, .inl ⟨⟨a, rfl⟩, rfl⟩⟩
  | raise c v u => exact ⟨u, hx, .inr ⟨c, v, rfl, rfl⟩⟩
  | stuck e => exact hx.elim

theorem checkOut_ends {s : State} (h : Legal s) : (checkOut s).Ends Legal := by
  rcases checkOut_cases s with ⟨-, e⟩ | ⟨-, e⟩ <;> rw [e] <;> exact h

theorem checkTree_ends {s : State} (h : Legal s) : (checkTree s).Ends Legal := by
  unfold checkTree; split <;> exact h

theorem checkTree_ok {s t : State} (h : checkTree s = .ok () t) : t = s ∧ s.status.treeValid = true := by
  unfold checkTree at h
  split at h
  · cases h; exact ⟨rfl, ‹_›⟩
  · cases h

theorem checkOut_ok {s t : State} (h : checkOut s = .ok () t) : t = s ∧ s.outFits := by
  rcases checkOut_cases s with ⟨hf, e⟩ | ⟨-, e⟩
  · rw [e] at h; cases h; exact ⟨rfl, hf⟩
  · rw [e] at h; cases h

theorem brReadBit_ends {s : State} (h : Legal s) :
    ((readBit s).bind fun b s => .ok () (s.setResult (if b then 1 else 0))).Ends Legal := by
  have fin : ∀ n v, Legal ((s.afterBits n).setResult v) := fun n v =>
    (h.afterBits n).congr rfl (h.afterBits n).mask rfl rfl id rfl rfl
  rcases readBit_total h.mask with ⟨b, _, -, e, -⟩ | ⟨-, -, e⟩ <;> rw [e]
  · exact fin 1 _
  · exact h

theorem brReadByte_ends {s : State} (h : Legal s) :
    ((readByte s).bind fun v s => .ok () (s.setResult v)).Ends Legal := by
  rcases readByte_total h.mask with ⟨bs, _, -, -, e, -⟩ | ⟨-, e⟩ <;> rw [e]
  · exact (h.afterBits 8).congr rfl (h.afterBits 8).mask rfl rfl id rfl rfl
  · exact h.afterBits _

theorem htDecode_ends {s : State} (h : Legal s) :
    ((checkTree s).bind fun _ s => (decodeSym s).bind fun v s => .ok () (s.setResult v)).Ends Legal := by
  refine (checkTree_ends h).bind fun _ t e _ => ?_
  obtain ⟨rfl, hv⟩ := checkTree_ok e
  obtain ⟨T, hT, -⟩ := Loaded.of_treeLegal h.tree hv
  rcases decodeSym_total h.mask hT with ⟨c, v, _, -, -, e⟩ | ⟨-, -, e⟩ <;> rw [e]
  · exact (h.afterBits _).congr rfl (h.afterBits _).mask rfl rfl id rfl rfl
  · exact h.afterBits _

/-- The data phase in a legal state with a tree. -/
theorem decodeLoop_ends {s : State} (h : Legal s) (hv : s.status.treeValid = true) (hf : s.outFits) :
    (decodeLoop s.outSize.toNat 0 s).Ends fun t => Legal t ∧ t.status = s.status := by
  obtain ⟨T, hT, -⟩ := Loaded.of_treeLegal h.tree hv
  have fin : ∀ (n : Nat) (vs : List Byte), vs.length ≤ s.outSize.toNat → Legal ((s.afterBits n).stored 0 vs) ∧
      ((s.afterBits n).stored 0 vs).status = s.status := fun n vs hvs => by
    have hl := h.afterBits n
    have hob : (s.afterBits n).outBase = s.outBase := by rw [afterBits_frame]
    have hpar : (s.afterBits n).par = s.par := by rw [afterBits_frame]
    refine ⟨hl.stores (a := (s.afterBits n).outBase.toNat + 0) (vs := vs) ?_ rfl hl.mask rfl rfl id rfl rfl, ?_⟩
    · rw [hob, hpar]; unfold State.outFits at hf; omega
    · show (s.afterBits n).status = _; rw [afterBits_frame]
  rcases decodeLoop_total s.outSize.toNat h.mask hT 0 with ⟨bs, vs, _, hl, -, -, e⟩ | ⟨bs, vs, _, hl, -, -, -, e⟩ <;> rw [e]
  · exact fin _ _ (by omega)
  · exact fin _ _ (by omega)

theorem htDecodeN_ends {s : State} (h : Legal s) :
    ((checkTree s).bind fun _ s => (checkOut s).bind fun _ s => decodeLoop s.outSize.toNat 0 s).Ends Legal := by
  refine (checkTree_ends h).bind fun _ t e _ => ?_
  obtain ⟨rfl, hv⟩ := checkTree_ok e
  refine (checkOut_ends h).bind fun _ u e _ => ?_
  obtain ⟨rfl, hf⟩ := checkOut_ok e
  have := decodeLoop_ends h hv hf
  revert this
  cases decodeLoop u.outSize.toNat 0 u with
  | ok a w => exact fun h => h.1
  | raise c v w => exact fun h => h.1
  | stuck e => exact fun h => h

/-- The load phase keeps legality, and ends with TREE_VALID = 1 exactly if it does not fault. -/
theorem loadTree_ends {s : State} (h : Legal s) : (loadTree s).Ends Legal := by
  rcases loadTree_total h.mask h.nodeCap_lt with ⟨T, bs, _, -, -, hd, hsz, e⟩ | ⟨m, a, k, c, v, -, hlen, hk, -, e⟩ <;> rw [e]
  · have hl := h.afterBits bs.length
    have hpar : (s.afterBits bs.length).par = s.par := by rw [afterBits_frame]
    have hcap := h.nodeCap_lt
    have hn : (Word.ofNat T.size).toNat = T.size := by simp [Word.ofNat]; omega
    exact ⟨hl.params, hl.mask, ⟨by rw [hn]; exact T.layout_length 0, by rw [hn, hpar]; exact hsz,
      fun _ => ⟨T, rfl, by rw [hpar]; exact hd⟩⟩, hl.memory.inWf, hl.memory.inBelow, hl.memory.bufWf, hl.memory.bufBelow⟩
  · have hl := h.afterBits m
    have hpar : (s.afterBits m).par = s.par := by rw [afterBits_frame]
    exact ⟨hl.params, hl.mask, ⟨hlen, by rw [hpar]; exact hk, fun hv => nomatch hv⟩, hl.memory.inWf, hl.memory.inBelow,
      hl.memory.bufWf, hl.memory.bufBelow⟩

theorem loadTree_ok_valid {s t : State} (h : loadTree s = .ok () t) : t.status.treeValid = true := by
  obtain ⟨_, u, -, h⟩ := Eng.bind_eq_ok h
  cases h; rfl

theorem htBlock_ends {s : State} (h : Legal s) :
    ((checkOut s).bind fun _ s => (loadTree (s.setCursor ⟨0, 0⟩)).bind fun _ s =>
      (decodeLoop s.outSize.toNat 0 s).bind fun _ s => .ok () s.dropTree).Ends Legal := by
  refine (checkOut_ends h).bind fun _ t e _ => ?_
  obtain ⟨rfl, hf⟩ := checkOut_ok e
  have h0 : Legal (t.setCursor ⟨0, 0⟩) := h.congr rfl (show (0 : Byte) ∈ legalMasks by decide) rfl rfl id rfl rfl
  refine (loadTree_ends h0).bind fun _ u e hu => ?_
  have hfr := (loadTree_post (t.setCursor ⟨0, 0⟩))
  rw [e] at hfr
  have hfu : u.outFits := by rw [State.outFits, hfr.1]; exact hf
  have := decodeLoop_ends hu (loadTree_ok_valid e) hfu
  revert this
  cases decodeLoop u.outSize.toNat 0 u with
  | ok a w => exact fun h => h.1.dropTree
  | raise c v w => exact fun h => h.1
  | stuck e => exact fun h => h

/-- A BUF-only change inside BUF keeps legality. -/
theorem Legal.bufOnly {s t : State} {P : Nat → Prop} (h : Legal s) (hb : BufOnly P s t) (hP : ∀ a, P a → a < s.par.bufCap)
    (n : Word) : Legal { t with progress := n } := by
  have hf := hb.frame
  exact ⟨by rw [hf]; exact h.params, by rw [hf]; exact h.mask,
    ⟨by rw [hf]; exact h.tree.counted, by rw [hf]; exact h.tree.bounded, by rw [hf]; exact h.tree.valid⟩,
    by rw [hf]; exact h.memory.inWf, by rw [hf]; exact h.memory.inBelow, hb.wf h.memory.bufWf,
    by have := hb.below _ h.memory.bufBelow hP; rw [show ({ t with progress := n } : State).par = s.par by rw [hf]]; exact this⟩

theorem vxDecode_ends {s : State} (h : Legal s) :
    (if s.gridFits then
      Eng.ok () ((vxorGrid s.vxBase.toNat s.vxWidth.toNat s.vxHeight.toNat s).setProgress s.gridSize)
    else .raise .bufRange 0 s).Ends Legal := by
  split
  · rename_i hf
    unfold State.gridFits State.gridSize at hf
    exact h.bufOnly (vxorGrid_bufOnly _ _ _ s) (fun a ha => by have := ha.2; omega) _
  · exact h

theorem vxChunks_ends {s : State} (h : Legal s) :
    (if s.regionFits then
      if s.strideOk then
        Eng.ok () (chunkLoop s.vxBase.toNat s.vxLen.toNat s.vxWidth.toNat s.vxHeight.toNat s.vxStride.toNat
          (s.vxLen.toNat / s.vxStride.toNat + 1) 0 s)
      else .raise .badParam s.vxStride s
    else .raise .bufRange 0 s).Ends Legal := by
  split
  · rename_i hf
    split
    · rename_i hok
      have hS : 0 < s.vxStride.toNat := Nat.pos_of_ne_zero fun h => hok.1 (BitVec.eq_of_toNat_eq h)
      rw [chunkLoop_eq_run hS s (by rw [Nat.zero_add]; exact chunkCount_le _ _)]
      refine h.bufOnly (chunkRun_memory _ _ _ _ _ _ s) (fun a ha => ?_)
        (chunkRun s.vxBase.toNat s.vxWidth.toNat s.vxHeight.toNat s.vxStride.toNat _ 0 s).progress
      obtain ⟨j, -, hj, ha⟩ := ha
      have := (chunk_inside_iff (len := s.vxLen.toNat) (size := s.vxWidth.toNat * s.vxHeight.toNat) (k := j) hS).mpr (by omega)
      have := ha.2
      unfold State.regionFits at hf
      omega
    · exact h
  · exact h

theorem rxCore_ends (mode : RxMode) {s : State} (h : Legal s) (hf : s.outFits) : (rxCore mode s).Ends Legal := by
  have res : ∀ k n stop, k ≤ n → n ≤ s.outSize.toNat →
      Legal { s.rxResult k n with status := { s.status with rxStop := stop } } := fun k n stop hk hn =>
    h.stores (a := s.outBase.toNat) (vs := s.rxOutput k n) (by
      rw [rxOutput_length s hk]; unfold State.outFits at hf; omega) rfl h.mask rfl rfl id rfl rfl
  by_cases h2 : s.inPos.toNat + 2 ≤ s.eosLimit
  · obtain ⟨k, stop, hd, h1, h1'⟩ := rxCore_total mode h2
    have hk := hd.le
    have hlim : s.rxLimit ≤ s.outSize.toNat := Nat.min_le_right _ _
    by_cases hfit : s.inPos.toNat + 2 + s.outSize.toNat ≤ s.eosLimit
    · rw [h1 hfit]; exact res _ _ _ (by omega) (Nat.le_refl _)
    · rw [h1' (s.eosLimit - (s.inPos.toNat + 2)) (by omega) (by omega)]
      exact res _ _ _ (by omega) (by omega)
  · rw [rxCore_noSeeds mode (by omega)]
    split <;> exact h.congr rfl h.mask rfl rfl id rfl rfl

theorem rx_ends (mode : RxMode) {s : State} (h : Legal s) : ((checkOut s).bind fun _ s => rxCore mode s).Ends Legal := by
  refine (checkOut_ends h).bind fun _ t e _ => ?_
  obtain ⟨rfl, hf⟩ := checkOut_ok e
  exact rxCore_ends mode h hf

end Sys2Proof.Machine
end

