-- ==== Sys2Proof/Laws/PerInstr.lean ====
section
/-! SUPPORT. What holds of every instruction as syntax, one lemma per constructor (30_encoding.md R90, R91, R94). -/

namespace Sys2Proof.Laws.Rsv

/-- The instruction's word is a valid CMD word: RSV = 0, OPC one of the twelve; and the instruction is well formed. -/
def Statement (i : Instr) : Prop :=
  (encode i).extractLsb' 8 24 = 0 ∧ (encode i).extractLsb' 0 8 = i.opcode ∧ cmdWordValid (encode i) = true ∧
  Instr.wf i = true

theorem brInit : Statement .brInit := by unfold Statement; decide
theorem brReadBit : Statement .brReadBit := by unfold Statement; decide
theorem brReadByte : Statement .brReadByte := by unfold Statement; decide
theorem htLoad : Statement .htLoad := by unfold Statement; decide
theorem htDecode : Statement .htDecode := by unfold Statement; decide
theorem htDecodeN : Statement .htDecodeN := by unfold Statement; decide
theorem htDiscard : Statement .htDiscard := by unfold Statement; decide
theorem htBlock : Statement .htBlock := by unfold Statement; decide
theorem vxDecode : Statement .vxDecode := by unfold Statement; decide
theorem vxChunks : Statement .vxChunks := by unfold Statement; decide
theorem rxFixed : Statement .rxFixed := by unfold Statement; decide
theorem rxChecksum : Statement .rxChecksum := by unfold Statement; decide

end Sys2Proof.Laws.Rsv
end

