-- ==== Sys2Proof/Laws/StatusFree.lean ====
section
/-! SUPPORT. The procedures of the Huffman commands neither read nor write STATUS: run from a state with another STATUS, each does the same (41_huffman.md R131, R132; 40_bitreader.md R112, R113). -/

namespace Sys2Proof.Machine

/-- A state with its STATUS mapped. -/
def State.mapStatus (f : Status → Status) (s : State) : State := { s with status := f s.status }

/-- A result with the state in it mapped. -/
def Eng.mapStatus {α : Type} (f : Status → Status) : Eng α → Eng α
  | .ok a s => .ok a (s.mapStatus f)
  | .raise c v s => .raise c v (s.mapStatus f)
  | .stuck e => .stuck e

theorem Eng.mapStatus_bind {α β : Type} (f : Status → Status) (x : Eng α) (g h : α → State → Eng β)
    (hg : ∀ a s, h a (s.mapStatus f) = (g a s).mapStatus f) : (x.mapStatus f).bind h = (x.bind g).mapStatus f := by
  cases x with
  | ok a s => exact hg a s
  | raise => rfl
  | stuck => rfl

theorem readBit_mapStatus (f : Status → Status) (s : State) : readBit (s.mapStatus f) = (readBit s).mapStatus f := by
  rcases readBit_cases s with ⟨h, e⟩ | ⟨h, hp, e⟩ | ⟨h, hp, e⟩ <;> rw [e]
  · rw [readBit_held (s := s.mapStatus f) h]; rfl
  · rw [readBit_refill (s := s.mapStatus f) h hp]; rfl
  · rw [readBit_eos (s := s.mapStatus f) h hp]; rfl

theorem readBits_mapStatus (f : Status → Status) (n : Nat) (v : Byte) (s : State) :
    readBits n v (s.mapStatus f) = (readBits n v s).mapStatus f := by
  induction n generalizing v s with
  | zero => rfl
  | succ n ih => rw [readBits, readBits, readBit_mapStatus]; exact Eng.mapStatus_bind f _ _ _ fun _ _ => ih _ _

theorem deser_mapStatus (f : Status → Status) (levels d : Nat) (s : State) :
    deser levels d (s.mapStatus f) = (deser levels d s).mapStatus f := by
  induction levels generalizing d s with
  | zero => rfl
  | succ levels ih =>
    rw [deser, deser, readBit_mapStatus]
    refine Eng.mapStatus_bind f _ _ _ fun t s => ?_
    show (if s.treeNodes.toNat = s.par.nodeCap then _ else _) = _
    split
    · rfl
    · dsimp only
      split
      · show (readByte (s.allocNode.mapStatus f)).bind _ = _
        rw [readByte, readBits_mapStatus]
        exact Eng.mapStatus_bind f _ _ _ fun _ _ => rfl
      · show (deser levels (d + 1) (s.allocNode.mapStatus f)).bind _ = _
        rw [ih]
        refine Eng.mapStatus_bind f _ _ _ fun _ s => ?_
        rw [readBit_mapStatus]
        refine Eng.mapStatus_bind f _ _ _ fun _ s => ?_
        rw [ih]
        exact Eng.mapStatus_bind f _ _ _ fun _ _ => rfl

theorem walkTree_mapStatus (f : Status → Status) (fuel n : Nat) (s : State) :
    walkTree fuel n (s.mapStatus f) = (walkTree fuel n s).mapStatus f := by
  induction fuel generalizing n s with
  | zero => rfl
  | succ fuel ih =>
    rw [walkTree, walkTree, show (s.mapStatus f).arena = s.arena from rfl, readBit_mapStatus]
    rcases s.arena[n]? with _ | ⟨v⟩ | ⟨l, r⟩ | _
    · rfl
    · rfl
    · exact Eng.mapStatus_bind f _ _ _ fun _ _ => ih _ _
    · rfl

theorem decodeLoop_mapStatus (f : Status → Status) (n i : Nat) (s : State) :
    decodeLoop n i (s.mapStatus f) = (decodeLoop n i s).mapStatus f := by
  induction n generalizing i s with
  | zero => rfl
  | succ n ih =>
    rw [decodeLoop, decodeLoop, decodeSym, show (s.mapStatus f).treeNodes = s.treeNodes from rfl, walkTree_mapStatus]
    exact Eng.mapStatus_bind f _ _ _ fun v s => ih (i + 1) ((s.storeBuf (s.outBase.toNat + i) v).setProgress (i + 1))

end Sys2Proof.Machine
end

