-- ==== Sys2Proof/Laws/Step.lean ====
section
/-! SUPPORT. One step, said once: what it can be, what an engine step leaves of STATUS, and what a host act keeps (20_memory.md R71 to R73; 60_exceptions.md R200 to R209). -/

namespace Sys2Proof.Machine

/-- What a step can be: idle, the engine's run of the latched command, or one host act. -/
theorem step_cases (s : State) :
    (s.status.busy = false ∧ s.hostQ = [] ∧ step s = .next s) ∨
    (s.status.busy = true ∧ ∃ l, step s = exec s.latch { s with sched := l }) ∨
    (∃ a rest l, s.hostQ = a :: rest ∧ step s = .next (State.hostAct { s with hostQ := rest, sched := l } a)) := by
  obtain hq | ⟨a, rest, hq⟩ : s.hostQ = [] ∨ ∃ a rest, s.hostQ = a :: rest := by cases s.hostQ <;> simp
  · by_cases hb : s.status.busy = true
    · have : step s = exec s.latch s := by simp [step, State.nextMove, hq, hb]
      exact .inr (.inl ⟨hb, s.sched, this⟩)
    · exact .inl ⟨by simpa using hb, hq, by simp [step, State.nextMove, hq, hb]⟩
  · by_cases hb : s.status.busy = true
    · obtain hs | ⟨g, l, hs⟩ : s.sched = [] ∨ ∃ g l, s.sched = g :: l := by cases s.sched <;> simp
      · have : step s = exec s.latch s := by simp [step, State.nextMove, hq, hb, hs]
        exact .inr (.inl ⟨hb, s.sched, this⟩)
      · cases g with
        | engine => exact .inr (.inl ⟨hb, l, by simp [step, State.nextMove, hq, hb, hs]⟩)
        | host => exact .inr (.inr ⟨a, rest, l, hq, by simp [step, State.nextMove, hq, hb, hs]⟩)
    · have : step s = .next (State.hostAct { s with hostQ := rest } a) := by simp [step, State.nextMove, hq, hb]
      exact .inr (.inr ⟨a, rest, s.sched, hq, this⟩)

/-- What an engine step leaves of the parameters, STATUS and FAULT_INFO: BUSY falls; the rest is as at completion (R204)
or at fault entry (R205). -/
structure Ended (s t : State) : Prop where
  par : t.par = s.par
  haz : t.status.haz = s.status.haz
  busy : t.status.busy = false
  ended : (t.status.done = true ∧ t.status.err = s.status.err ∧ t.status.cause = s.status.cause ∧
      t.faultInfo = s.faultInfo) ∨
    (t.status.done = false ∧ t.status.err = true)

theorem Ended.of_post {α : Type} {x : Eng α} {Q : State → Prop} {R : Cause → Word → State → Prop} {s t : State}
    (hx : x.Post Q R) (h : x.finish = .next t)
    (hQ : ∀ u, Q u → u.par = s.par ∧ u.status.haz = s.status.haz ∧ u.status.err = s.status.err ∧
      u.status.cause = s.status.cause ∧ u.faultInfo = s.faultInfo) : Ended s t := by
  rcases hx.finish h with ⟨u, hu, rfl⟩ | ⟨c, v, u, hu, -, rfl⟩ <;> obtain ⟨h1, h2, h3⟩ := hQ u hu
  · exact ⟨h1, h2, rfl, .inl ⟨rfl, h3⟩⟩
  · exact ⟨h1, h2, rfl, .inr ⟨rfl, rfl⟩⟩

theorem exec_ended {s t : State} {i : Instr} (he : exec i s = .next t) : Ended s t := by
  cases i with
  | brInit => cases he; exact ⟨rfl, rfl, rfl, .inl ⟨rfl, rfl, rfl, rfl⟩⟩
  | brReadBit => exact .of_post (brReadBit_post s) he fun u h => by rw [h.frame]; exact ⟨rfl, rfl, rfl, rfl, rfl⟩
  | brReadByte => exact .of_post (brReadByte_post s) he fun u h => by rw [h.frame]; exact ⟨rfl, rfl, rfl, rfl, rfl⟩
  | htLoad => exact .of_post (loadTree_post s) he fun u h => by rw [h.1]; exact ⟨rfl, rfl, rfl, rfl, rfl⟩
  | htDecode => exact .of_post (htDecode_post s) he fun u h => by rw [h.frame]; exact ⟨rfl, rfl, rfl, rfl, rfl⟩
  | htDecodeN => exact .of_post (htDecodeN_post s) he fun u h => by rw [h.frame]; exact ⟨rfl, rfl, rfl, rfl, rfl⟩
  | htDiscard => cases he; exact ⟨rfl, rfl, rfl, .inl ⟨rfl, rfl, rfl, rfl⟩⟩
  | htBlock => exact .of_post (htBlock_post s) he fun u h => by rw [h.frame]; exact ⟨rfl, rfl, rfl, rfl, rfl⟩
  | vxDecode => exact .of_post (vxDecode_post s) he fun u h => by rw [h.frame]; exact ⟨rfl, rfl, rfl, rfl, rfl⟩
  | vxChunks => exact .of_post (vxChunks_post s) he fun u h => by rw [h.frame]; exact ⟨rfl, rfl, rfl, rfl, rfl⟩
  | rxFixed => exact .of_post (rx_post .fixed s) he fun u h => by rw [h.frame]; exact ⟨rfl, rfl, rfl, rfl, rfl⟩
  | rxChecksum => exact .of_post (rx_post .checksum s) he fun u h => by rw [h.frame]; exact ⟨rfl, rfl, rfl, rfl, rfl⟩

/-- A command run in a legal state ends, and every fault it enters has a cause. -/
theorem exec_ends {s : State} (h : Legal s) (i : Instr) :
    ∃ u, Legal u ∧ (exec i s = .next u.complete ∨ ∃ c v, c ≠ .none ∧ exec i s = .next (u.takeFault c v)) := by
  have eos : ∀ {c v t}, EosAt c v t → c ≠ Cause.none := fun h => by rw [h.1]; decide
  have tree : ∀ {c v t}, TreeFault c v t → c ≠ Cause.none := fun h => by rcases h with h | h <;> rw [h.1] <;> decide
  have range : ∀ {s c v}, RangeFault s c v → c ≠ Cause.none := fun h => by rw [h.1]; decide
  have noTree : ∀ {s c v}, NoTreeFault s c v → c ≠ Cause.none := fun h => by rw [h.1]; decide
  have fin : ∀ {α : Type} {x : Eng α} {Q : State → Prop} {R : Cause → Word → State → Prop}, x.Ends Legal → x.Post Q R →
      (∀ c v t, R c v t → c ≠ Cause.none) →
      ∃ u, Legal u ∧ (x.finish = .next u.complete ∨ ∃ c v, c ≠ .none ∧ x.finish = .next (u.takeFault c v)) := by
    intro α x Q R h1 h2 h3
    obtain ⟨u, hu, ⟨-, e⟩ | ⟨c, v, e1, e⟩⟩ := h1.finish
    · exact ⟨u, hu, .inl e⟩
    · rw [e1] at h2; exact ⟨u, hu, .inr ⟨c, v, h3 _ _ _ h2.2, e⟩⟩
  cases i with
  | brInit =>
    exact ⟨s.setCursor ⟨0, 0⟩, h.congr rfl (show (0 : Byte) ∈ legalMasks by decide) rfl rfl id rfl rfl, .inl rfl⟩
  | brReadBit => exact fin (brReadBit_ends h) (brReadBit_post s) fun _ _ _ => eos
  | brReadByte => exact fin (brReadByte_ends h) (brReadByte_post s) fun _ _ _ => eos
  | htLoad => exact fin (loadTree_ends h) (loadTree_post s) fun _ _ _ h => h.elim eos tree
  | htDecode => exact fin (htDecode_ends h) (htDecode_post s) fun _ _ _ h => h.elim noTree eos
  | htDecodeN => exact fin (htDecodeN_ends h) (htDecodeN_post s) fun _ _ _ h => h.elim noTree (·.elim range eos)
  | htDiscard => exact ⟨_, h.dropTree, .inl rfl⟩
  | htBlock => exact fin (htBlock_ends h) (htBlock_post s) fun _ _ _ h => h.elim range (·.elim eos tree)
  | vxDecode => exact fin (vxDecode_ends h) (vxDecode_post s) fun _ _ _ h => by rw [h.1]; decide
  | vxChunks =>
    exact fin (vxChunks_ends h) (vxChunks_post s) fun _ _ _ h => by rcases h with h | h <;> rw [h.1] <;> decide
  | rxFixed => exact fin (rx_ends .fixed h) (rx_post .fixed s) fun _ _ _ h => h.elim range eos
  | rxChecksum => exact fin (rx_ends .checksum h) (rx_post .checksum s) fun _ _ _ h => h.elim range eos

end Sys2Proof.Machine
end

