-- ==== Sys2Proof/Tests/Slice0.lean ====
section
/-! SUPPORT. Tests: well-formedness, decoding, the spec's own vectors (95_test_vectors.md) one step at a time, and for each statement a state that meets its hypotheses. -/

namespace Sys2Proof.Tests

open Sys2Proof.Machine

/-! ## Small states -/

/-- A byte list laid out from an address. -/
def bytesAt : Nat → List Byte → Memory
  | _, [] => []
  | a, b :: bs => (a, b) :: bytesAt (a + 1) bs

/-- The vectors' parameters: BUF_CAP = 64. -/
def par64 : Params := { Params.thisHardware with bufCap := 64 }

/-- After reset, with the listed bytes in IN from offset 0 and IN_END their count. -/
def withIn (bs : List Byte) : State :=
  { State.reset with par := par64, inMem := bytesAt 0 bs, inEnd := Word.ofNat bs.length }

/-- The same with an output range. -/
def withOut (bs : List Byte) (base size : Word) : State := { withIn bs with outBase := base, outSize := size }

/-- Operands of the VX commands, the listed bytes in BUF from offset 0. -/
def withVx (bs : List Byte) (b w h len stride : Word) : State :=
  { State.reset with
    par := par64, bufMem := bytesAt 0 bs, vxBase := b, vxWidth := w, vxHeight := h, vxLen := len, vxStride := stride }

/-- A command accepted and not yet executed. -/
def busyState : State := { withIn [0xA5] with status := ⟨true, false, false, false, false, false, .none⟩ }

/-- A fault and a hazard recorded. -/
def errState : State :=
  { withIn [] with status := ⟨false, false, true, true, false, false, .badCmd⟩, faultInfo := 0x100 }

/-- The tree of W1, and its arena. -/
def w1Tree : CodeTree := .node (.leaf 0x41) (.node (.leaf 0x42) (.leaf 0x43))

/-- W1's stream. -/
def w1In : List Byte := [0x50, 0x4A, 0x12, 0x86, 0xB0]

/-- W1 after HT_LOAD: the tree loaded, bits 0 10 11 0 to come. -/
def w1Loaded : State :=
  { withIn w1In with
    inPos := 4, cursor := ⟨0x86, 0x01⟩, treeNodes := 5, arena := w1Tree.layout 0
    status := ⟨false, false, false, false, true, false, .none⟩ }

/-- A root leaf loaded, with no bit left. -/
def leafLoaded : State :=
  { withIn [] with
    treeNodes := 1, arena := [.leaf 0x5A], status := ⟨false, false, false, false, true, false, .none⟩ }

/-- The stream S of 2.4. -/
def rxIn : List Byte := [0x00, 0xFF, 0x7F, 0x9E, 0xAA, 0xBB, 0xCC, 0xDD]

/-- Operands of the RX commands. -/
def withRx (bs : List Byte) (size enc : Word) : State := { withOut bs 0 size with encLimit := enc }

/-- A view of the state after a command, if it goes on. -/
def after {α : Type} (i : Instr) (s : State) (f : State → α) : Option α :=
  match exec i s with
  | .next t => some (f t)
  | .fault _ => none
  | .refused _ => none

/-- A view of the state after a step, if it goes on. -/
def stepTo {α : Type} (s : State) (f : State → α) : Option α :=
  match step s with
  | .next t => some (f t)
  | .fault _ => none
  | .refused _ => none

/-- STATUS, FAULT_INFO, IN_POS and CURSOR. -/
def ends (t : State) : Word × Word × Word × Word := (t.status.toWord, t.faultInfo, t.inPos, t.cursor.toWord)

/-- The listed bytes of BUF. -/
def bufBytes (t : State) : List Byte := t.bufMem.map Prod.snd

/-! ## Well-formedness and decoding -/

/-- R91: a reserved bit, and an opcode beside the map. -/
theorem test_cmd_word_refused :
    cmdWordValid 0x00000100 = false ∧ cmdWordValid 0x00000004 = false ∧ cmdWordValid 0x80000001 = false ∧
    cmdWordValid 0x00000001 = true := by decide

/-- R5: each bound on the parameters, just broken. -/
theorem test_params_refused :
    par64.valid = true ∧
    ([{ par64 with bufCap := 0 }, { par64 with bufCap := 2 ^ 31 + 1 }, { par64 with inCap := 0 },
      { par64 with inCap := 2 ^ 31 + 1 }, { par64 with nodeCap := 0, depthCap := 0 }, { par64 with nodeCap := 2 ^ 16 + 1 },
      { par64 with depthCap := 512 }] : List Params).all (fun p => !p.valid) = true := by decide

/-- R92: each command's word, from the OPC column. -/
theorem test_decode_words :
    decode 0b00000000000000000000000000000001#32 = .ok .brInit ∧
    decode 0b00000000000000000000000000000010#32 = .ok .brReadBit ∧
    decode 0b00000000000000000000000000000011#32 = .ok .brReadByte ∧
    decode 0b00000000000000000000000000010000#32 = .ok .htLoad ∧
    decode 0b00000000000000000000000000010001#32 = .ok .htDecode ∧
    decode 0b00000000000000000000000000010010#32 = .ok .htDecodeN ∧
    decode 0b00000000000000000000000000010011#32 = .ok .htDiscard ∧
    decode 0b00000000000000000000000000010100#32 = .ok .htBlock ∧
    decode 0b00000000000000000000000000100000#32 = .ok .vxDecode ∧
    decode 0b00000000000000000000000000100001#32 = .ok .vxChunks ∧
    decode 0b00000000000000000000000000110000#32 = .ok .rxFixed ∧
    decode 0b00000000000000000000000000110001#32 = .ok .rxChecksum := ⟨rfl, rfl, rfl, rfl, rfl, rfl, rfl, rfl, rfl, rfl, rfl, rfl⟩

/-- R65: the bytes of a command in memory order. -/
theorem test_decode_bytes :
    decodeBytes [0x14, 0x00, 0x00, 0x00, 0x77] = .ok (.htBlock, [0x77]) ∧
    decodeBytes [0x00, 0x00, 0x00, 0x14] = .error (.reservedBits 0x14000000) ∧
    decodeBytes [0x14, 0x00, 0x00] = .error .truncated := ⟨rfl, rfl, rfl⟩

/-- R92: no word matches two rows. -/
theorem test_opcode_rows_disjoint :
    opcodeTable.Pairwise (fun x y => x.pattern &&& y.mask ≠ y.pattern &&& x.mask) := by decide

/-- R23: every register's offset decodes back to it, and 0x70 to none. -/
theorem test_reg_offsets :
    regTable.all (fun r => Reg.ofOffset r.offset == some r) = true ∧ Reg.ofOffset 0x70 = none ∧ Reg.ofOffset 0x6D = none := by
  decide

/-- The words placed for a step: 0x30 is accepted and run, 0x100 is a CMD write whose rejection the next step is. -/
theorem test_place_word :
    stepTo (State.reset.withFetchWord 32 0x01) (fun t => t.status.toWord) = some 0x00000002 ∧
    stepTo (State.reset.withFetchWord 32 0x100) ends = some (0x00000104, 0x100, 0, 0) := by decide

/-! ## Commands, one step each (95_test_vectors.md) -/

/-- B7 -/
theorem test_brInit :
    after .brInit { withIn [0xA5, 0x3C] with inPos := 1, cursor := ⟨0xA5, 0x10⟩ } ends = some (0x2, 0, 1, 0) := by decide

/-- B1, first read -/
theorem test_brReadBit :
    after .brReadBit (withIn [0xA5, 0x3C]) (fun t => (t.result, ends t)) = some (1, 0x2, 0, 1, 0x40A5) := by decide

/-- B6, last read: the end is IN_CAP -/
theorem test_brReadBit_eos :
    after .brReadBit { withIn [0xA5, 0x3C] with inEnd := 100, inPos := 2, par := { par64 with inCap := 2 } } ends =
      some (0x204, 2, 2, 0) := by decide

/-- B1b -/
theorem test_brReadByte_straddles :
    after .brReadByte { withIn [0xA5, 0x3C] with inPos := 1, cursor := ⟨0xA5, 0x10⟩ } (fun t => (t.result, ends t)) =
      some (0x29, 0x2, 0, 2, 0x103C) := by decide

/-- B2, the byte read: the four bits left are taken -/
theorem test_brReadByte_eos :
    after .brReadByte { withIn [0xFF] with inPos := 1, cursor := ⟨0xFF, 0x08⟩, result := 1 } (fun t => (t.result, ends t)) =
      some (1, 0x204, 1, 1, 0x00FF) := by decide

/-- W1, HT_LOAD -/
theorem test_htLoad :
    after .htLoad (withIn w1In) (fun t => (t.arena, t.treeNodes, ends t)) =
      some ([.internal 1 2, .leaf 0x41, .internal 3 4, .leaf 0x42, .leaf 0x43], 5, 0x12, 0, 4, 0x0186) := by decide

/-- H4 -/
theorem test_htLoad_eos :
    after .htLoad (withIn [0x00]) (fun t => (t.treeNodes, ends t)) = some (8, 0x204, 1, 1, 0) := by decide

/-- W1, first HT_DECODE -/
theorem test_htDecode :
    after .htDecode w1Loaded (fun t => (t.result, ends t)) = some (0x41, 0x12, 0, 4, 0x0086) := by decide

/-- H11 -/
theorem test_htDecode_noTree : after .htDecode (withIn []) ends = some (0x504, 0, 0, 0) := by decide

/-- H18 -/
theorem test_htDecodeN :
    after .htDecodeN { w1Loaded with outSize := 4 } (fun t => (bufBytes t, t.progress, ends t)) =
      some ([0x41, 0x42, 0x43, 0x41], 4, 0x12, 0, 5, 0x04B0) := by decide

/-- H16 -/
theorem test_htDecodeN_range :
    after .htDecodeN { leafLoaded with outBase := 64, outSize := 1 } ends = some (0x614, 0, 0, 0) := by decide

/-- H17 -/
theorem test_htDiscard : after .htDiscard w1Loaded (fun t => (t.treeNodes, ends t)) = some (0, 0x2, 0, 4, 0x0186) := by decide

/-- W1 -/
theorem test_htBlock :
    after .htBlock (withOut w1In 60 4) (fun t => (t.bufMem, t.progress, ends t)) =
      some ([(60, 0x41), (61, 0x42), (62, 0x43), (63, 0x41)], 4, 0x2, 0, 5, 0x04B0) := by decide

/-- H6 -/
theorem test_htBlock_eos :
    after .htBlock (withOut [0x50, 0x4A, 0x12, 0x86] 0 4) (fun t => (bufBytes t, [t.progress, t.treeNodes], ends t)) =
      some ([0x41], [1, 5], 0x214, 4, 4, 0x0086) := by decide

/-- V1 -/
theorem test_vxDecode :
    after .vxDecode (withVx [1, 2, 3, 1, 2, 3, 0, 0, 0xFF] 0 3 3 0 0) (fun t => (bufBytes t, t.progress)) =
      some ([1, 2, 3, 0, 0, 0, 0, 0, 0xFF], 9) := by decide

/-- V14 -/
theorem test_vxDecode_range : after .vxDecode (withVx [] 62 2 2 0 0) ends = some (0x604, 0, 0, 0) := by decide

/-- V6 -/
theorem test_vxChunks :
    after .vxChunks (withVx [1, 2, 3, 4, 0xEE, 5, 6, 7, 8, 0xEE, 0x99] 0 2 2 11 5) (fun t => (bufBytes t, t.progress)) =
      some ([1, 2, 2, 6, 0xEE, 5, 6, 2, 0x0E, 0xEE, 0x99], 2) := by decide

/-- V9 -/
theorem test_vxChunks_stride :
    after .vxChunks (withVx [1, 2, 3, 4, 5, 6, 7, 8] 0 2 2 8 3) ends = some (0x704, 3, 0, 0) := by decide

/-- The registers of 2.4, in the order of its columns. -/
def rxRow (t : State) : List Byte × List Nat :=
  (bufBytes t, [t.key.toNat, t.checksum.toNat, t.chkTarget.toNat, t.rxCount.toNat, t.status.rxStop.toNat, t.inPos.toNat,
    t.progress.toNat])

/-- X5 -/
theorem test_rxFixed :
    after .rxFixed (withRx rxIn 5 2) rxRow =
      some ([0x80, 0x80, 0xAA, 0xBB, 0xCC], [0x3D, 0xFF00, 0xFF00, 2, 0, 7, 5]) := by decide

/-- X7 -/
theorem test_rxFixed_eos :
    after .rxFixed (withRx [0x05] 3 3) (fun t => (rxRow t, ends t)) =
      some (([], [0, 0, 0, 0, 0, 1, 0]), 0x204, 1, 1, 0) := by decide

/-- X2 -/
theorem test_rxChecksum :
    after .rxChecksum (withRx rxIn 5 5) rxRow =
      some ([0x80, 0x80, 0xAA, 0xBB, 0xCC], [0x3D, 0xFF00, 0xFF00, 2, 1, 7, 5]) := by decide

/-- X3 -/
theorem test_rxChecksum_swapped :
    after .rxChecksum { withRx rxIn 5 5 with par := { par64 with chkOrder := .seedSwapped } } rxRow =
      some ([0x80, 0x80, 0x97, 0xE7, 0xB7], [0x9A, 0xFCCB, 0x00FF, 5, 0, 7, 5]) := by decide

/-! ## The host's side -/

/-- E1 and E4 -/
theorem test_badCmd_then_dropped :
    ((withIn []).hostAct (wr .cmd 0x100)).status.toWord = 0x104 ∧
    (((withIn []).hostAct (wr .cmd 0x100)).hostAct (cmd .brInit)).status.toWord = 0x10C := by decide

/-- E5 and E9 -/
theorem test_clear_err :
    (errState.hostAct (wr .status 0x4)).status.toWord = 0x8 ∧ (errState.hostAct (wr .status 0x4)).faultInfo = 0 ∧
    State.irq { errState with ctrl := ⟨false, true, false⟩ } = true := by decide

/-- E12 -/
theorem test_status_write_w1c :
    (State.hostAct { w1Loaded with status := { w1Loaded.status with done := true } } (wr .status 0x13)).status.toWord =
      0x10 := by decide

/-- R64: a word of IN, little-endian. -/
theorem test_host_memory :
    ((withIn [0x01, 0x02, 0x03, 0x04]).hostAct (.memRead .inSpace 0 .word)).rdata = 0x04030201 ∧
    ((withIn []).hostAct (.memWrite .inSpace 2 .half 0xBBAA)).inMem = [(2, 0xAA), (3, 0xBB)] := by decide

/-- P1's pseudo-operations as bus transactions (R97). -/
theorem test_huffBlock_acts :
    huffBlock 0 5 0 4 =
      [.regWrite 0x10 .word 0, .regWrite 0x14 .word 5, .regWrite 0x18 .word 0, .regWrite 0x1C .word 4,
       .regWrite 0x0C .word 0x14, .waitIdle] ∧
    (rx 3 11 0 5 none).getLast? = some .waitIdle ∧ (rx 3 11 0 5 none)[4]? = some (.regWrite 0x20 .word 0xFFFFFFFF) ∧
    (vxChunksProg 0x10 8 2 2 4)[5]? = some (.regWrite 0x0C .word 0x21) := by decide

/-! ## Witnesses: a state and operands that meet the hypotheses of each statement, clause by clause -/

theorem inv_reset : Inv State.reset where
  params := by decide
  status := ⟨by decide, by decide, by decide, by decide⟩
  mask := by decide
  tree := ⟨rfl, by decide, fun h => absurd h (by decide)⟩
  memory := ⟨.nil, by decide, .nil, by decide⟩

theorem inv_busy : Inv busyState where
  params := by decide
  status := ⟨by decide, by decide, by decide, by decide⟩
  mask := by decide
  tree := ⟨rfl, by decide, fun h => absurd h (by decide)⟩
  memory := ⟨by decide, by decide, .nil, by decide⟩

theorem inv_w1Loaded : Inv w1Loaded where
  params := by decide
  status := ⟨by decide, by decide, by decide, by decide⟩
  mask := by decide
  tree := ⟨rfl, by decide, fun _ => ⟨w1Tree, rfl, by decide⟩⟩
  memory := ⟨by decide, by decide, .nil, by decide⟩

theorem inv_leafLoaded : Inv leafLoaded where
  params := by decide
  status := ⟨by decide, by decide, by decide, by decide⟩
  mask := by decide
  tree := ⟨rfl, by decide, fun _ => ⟨.leaf 0x5A, rfl, by decide⟩⟩
  memory := ⟨.nil, by decide, .nil, by decide⟩

theorem notCommand {w : Word} {e : DecodeError} (h : decode w = .error e) : ∀ i, decode w ≠ .ok i := fun i hi => by
  rw [h] at hi; cases hi

theorem witness_WordsDecodeIffValid :
    (withIn []).status.busy = false ∧ (withIn []).status.err = false ∧ (∀ i, decode 0x00000100 ≠ .ok i) ∧
    decode 0x00000031 = .ok .rxChecksum := ⟨rfl, rfl, notCommand rfl, rfl⟩

theorem witness_StepRunsLatchedCommandOrHostAct :
    ((withIn []).status.busy = false ∧ (withIn []).hostQ = []) ∧
    (∃ s : State, s.status.busy = false ∧ s.hostQ = [rd .id]) ∧
    (busyState.status.busy = true ∧ busyState.hostQ = []) ∧
    (∃ s : State, s.status.busy = true ∧ s.hostQ = [rd .id] ∧ s.sched = []) ∧
    (∃ s : State, s.status.busy = true ∧ s.hostQ = [rd .id] ∧ s.sched = [.engine]) ∧
    (∃ s : State, s.status.busy = true ∧ s.hostQ = [rd .id] ∧ s.sched = [.host]) :=
  ⟨⟨rfl, rfl⟩, ⟨{ withIn [] with hostQ := [rd .id] }, rfl, rfl⟩, ⟨rfl, rfl⟩,
    ⟨{ busyState with hostQ := [rd .id] }, rfl, rfl, rfl⟩,
    ⟨{ busyState with hostQ := [rd .id], sched := [.engine] }, rfl, rfl, rfl⟩,
    ⟨{ busyState with hostQ := [rd .id], sched := [.host] }, rfl, rfl, rfl⟩⟩

theorem witness_CmdWriteThenStepExecutesIt :
    ∃ s : State, s.status.busy = false ∧ s.status.err = false ∧ s.hostQ = [wr .cmd 0x01] ∧ decode 0x01 = .ok .brInit :=
  ⟨{ withIn [] with hostQ := [wr .cmd 0x01] }, rfl, rfl, rfl, rfl⟩

theorem witness_PlacedWordRunsNext : decodeTableWord 32 0x14 = some .htBlock ∧ decodeTableWord 8 0x31 = some .rxChecksum :=
  ⟨rfl, rfl⟩

theorem witness_CmdWriteHandledOneOfFourWays :
    busyState.status.busy = true ∧ (errState.status.busy = false ∧ errState.status.err = true) ∧
    ((withIn []).status.busy = false ∧ (withIn []).status.err = false ∧ (∀ i, decode 0x80000001 ≠ .ok i)) ∧
    decode 0x01 = .ok .brInit := ⟨rfl, ⟨rfl, rfl⟩, ⟨rfl, rfl, notCommand rfl⟩, rfl⟩

theorem witness_AcceptedCommandEndsInDoneOrErr : Inv busyState ∧ busyState.status.busy = true := ⟨inv_busy, rfl⟩

/-- With NODE_CAP = DEPTH_CAP = 1, and with DEPTH_CAP = 0. -/
def tiny (nodes depth : Nat) : State := { withIn [0x00] with par := { par64 with nodeCap := nodes, depthCap := depth } }

/-- A command run from a state with no fault pending ends in a fault. -/
abbrev Faults (i : Instr) (s : State) (c : Cause) : Prop :=
  s.status.err = false ∧ ∃ t, exec i s = .next t ∧ t.status.err = true ∧ t.status.cause = c

theorem witness_FaultCausesAsTabled :
    Faults .brReadBit (withIn []) .eos ∧ Faults .brReadByte (withIn []) .eos ∧
    Faults .htLoad (withIn []) .eos ∧ Faults .htLoad (tiny 1 1) .treeOverflow ∧ Faults .htLoad (tiny 1 0) .depthOverflow ∧
    Faults .htDecode (withIn []) .noTree ∧ Faults .htDecode { w1Loaded with inEnd := 4, cursor := ⟨0, 0⟩ } .eos ∧
    Faults .htDecodeN (withIn []) .noTree ∧ Faults .htDecodeN { w1Loaded with outBase := 61, outSize := 4 } .bufRange ∧
    Faults .htDecodeN { w1Loaded with outSize := 5, inEnd := 4 } .eos ∧
    Faults .htBlock (withOut w1In 61 4) .bufRange ∧ Faults .htBlock (withIn []) .eos ∧
    Faults .htBlock (tiny 1 1) .treeOverflow ∧ Faults .htBlock (tiny 1 0) .depthOverflow ∧
    Faults .vxDecode (withVx [] 65 0 0 0 0) .bufRange ∧ Faults .vxChunks (withVx [] 65 0 0 0 0) .bufRange ∧
    Faults .vxChunks (withVx [] 64 0 0 0 0) .badParam ∧ Faults .vxChunks (withVx [] 0 2 2 4 3) .badParam ∧
    Faults .rxFixed (withOut [] 65 0) .bufRange ∧ Faults .rxFixed (withIn [0x05]) .eos ∧
    Faults .rxChecksum (withOut [] 65 0) .bufRange ∧ Faults .rxChecksum (withIn [0x05]) .eos ∧
    ((withIn []).status.err = false ∧ ((withIn []).hostAct (wr .cmd 0x100)).status.err = true) := by
  refine ⟨?_, ?_, ?_, ?_, ?_, ?_, ?_, ?_, ?_, ?_, ?_, ?_, ?_, ?_, ?_, ?_, ?_, ?_, ?_, ?_, ?_, ?_, ?_⟩
  all_goals first | exact ⟨rfl, _, rfl, rfl, rfl⟩ | exact ⟨rfl, rfl⟩

theorem witness_StaticChecksPrecedeEveryEffect :
    (withIn []).status.treeValid = false ∧
    (∃ s : State, s.status.treeValid = true ∧ s.par.bufCap + 1 = s.outBase.toNat + s.outSize.toNat) ∧
    (∃ s : State, s.par.bufCap + 1 = s.outBase.toNat + s.outSize.toNat) ∧
    (∃ s : State, s.par.bufCap + 1 = s.vxBase.toNat + s.vxWidth.toNat * s.vxHeight.toNat) ∧
    (∃ s : State, s.par.bufCap + 1 = s.vxBase.toNat + s.vxLen.toNat) ∧
    (∃ s : State, s.vxBase.toNat + s.vxLen.toNat = s.par.bufCap ∧ s.vxStride = 0) ∧
    (∃ s : State, s.vxBase.toNat + s.vxLen.toNat = s.par.bufCap ∧ s.vxStride.toNat + 1 = s.vxWidth.toNat * s.vxHeight.toNat) :=
  ⟨rfl, ⟨{ w1Loaded with outBase := 61, outSize := 4 }, rfl, by decide⟩, ⟨withOut [] 61 4, by decide⟩,
    ⟨withVx [] 61 2 2 0 0, by decide⟩, ⟨withVx [] 61 2 2 4 4, by decide⟩, ⟨withVx [] 60 0 0 4 0, by decide⟩,
    ⟨withVx [] 60 2 2 4 3, by decide⟩⟩

theorem witness_StatusWriteClearsFault : errState.status.busy = false ∧ errState.status.err = true := ⟨rfl, rfl⟩

/-- Each of the listed changes happens on some step. -/
theorem witness_StatusFieldsChangeOnlyAsListed :
    (∃ s t, step s = .next t ∧ s.status.busy = false ∧ t.status.busy = true) ∧
    (∃ s t, step s = .next t ∧ s.status.busy = true ∧ t.status.busy = false) ∧
    (∃ s t, step s = .next t ∧ s.status.busy = true ∧ s.status.err = false ∧ t.status.err = true) ∧
    (∃ s t, step s = .next t ∧ s.status.busy = false ∧ s.status.err = false ∧ t.status.err = true) ∧
    (∃ s t, step s = .next t ∧ s.status.err = true ∧ t.status.err = false) ∧
    (∃ s t, step s = .next t ∧ s.status.haz = true ∧ t.status.haz = false) ∧
    (∃ s t, step s = .next t ∧ s.status.haz = false ∧ t.status.haz = true) :=
  ⟨⟨{ withIn [] with hostQ := [wr .cmd 1] }, _, rfl, rfl, rfl⟩, ⟨busyState, _, rfl, rfl, rfl⟩,
    ⟨{ busyState with latch := .htDecode }, _, rfl, rfl, rfl, rfl⟩,
    ⟨{ withIn [] with hostQ := [wr .cmd 0x100] }, _, rfl, rfl, rfl, rfl⟩,
    ⟨{ errState with hostQ := [wr .status 4] }, _, rfl, rfl, rfl⟩, ⟨{ errState with hostQ := [.rst] }, _, rfl, rfl, rfl⟩,
    ⟨{ busyState with hostQ := [wr .ctrl 1], sched := [.host] }, _, rfl, rfl, rfl⟩⟩

theorem witness_RwRegisterReadsLastWrite : (withIn []).status.busy = false ∧ Reg.outSize ≠ Reg.inPos := by decide

theorem witness_RoRegistersIgnoreWrites : w1Loaded.status.busy = false := rfl

theorem witness_ReservedSlotsAndBitsReadZero :
    0x70 ≤ (0x70 : BitVec 8).toNat ∧ (0x70 : BitVec 8).toNat % 4 = 0 ∧ 0x70 ≤ (0xFC : BitVec 8).toNat ∧
    (0xFC : BitVec 8).toNat % 4 = 0 := by decide

theorem witness_IdAndCapabilitiesAreConstant :
    busyState.par.valid = true ∧ ∃ t, step busyState = .next t := ⟨by decide, _, rfl⟩

theorem witness_IllFormedRegAccessIsIgnored :
    (withIn []).status.busy = false ∧ Width.half ≠ .word ∧ (0x6D : BitVec 8).toNat % 4 ≠ 0 := by decide

/-- The last word of BUF; a misaligned one; one that ends beyond BUF. -/
theorem witness_HostMemoryWriteIsLittleEndian :
    (withIn []).status.busy = false ∧ 60 % widthBytes .word = 0 ∧ 60 + widthBytes .word = (withIn []).par.bufCap ∧
    62 % widthBytes .word ≠ 0 ∧ (withIn []).par.bufCap < 64 + widthBytes .byte := by decide

theorem witness_HostMemoryReadIsLittleEndian :
    (withIn []).status.busy = false ∧ 2 % widthBytes .half = 0 ∧ (withIn []).par.inCap < 65535 + widthBytes .half := by decide

theorem witness_BusyLocksOutHostAccesses : busyState.status.busy = true := rfl

theorem witness_WaitEndsOnlyWhenIdle : busyState.status.busy = true ∧ (withIn []).status.busy = false := ⟨rfl, rfl⟩

theorem witness_ResetForgetsStorage : 63 + 1 = (withIn []).par.bufCap ∧ 62 ≠ 63 := by decide

theorem witness_EveryStepKeepsLegality : Inv busyState ∧ ∃ t, step busyState = .next t := ⟨inv_busy, _, rfl⟩

theorem witness_NoLegalStateStops : Inv State.reset ∧ Inv busyState ∧ Inv w1Loaded := ⟨inv_reset, inv_busy, inv_w1Loaded⟩

theorem witness_ValidTreeIsStrictlyBinary :
    Inv w1Loaded ∧ w1Loaded.status.treeValid = true ∧ w1Loaded.arena[0]? = some (.internal 1 2) ∧
    Inv leafLoaded ∧ leafLoaded.status.treeValid = true := ⟨inv_w1Loaded, rfl, rfl, inv_leafLoaded, rfl⟩

/-- Every command has a next state. -/
theorem witness_CommandsWriteOnlyTheirOwnState : ∀ i : Instr, ∃ t, exec i w1Loaded = .next t := by
  intro i; cases i <;> exact ⟨_, rfl⟩

theorem witness_CommandsStoreOnlyInTheirRange :
    w1Loaded.progress = 0 ∧ (∃ t, exec .htDecodeN { w1Loaded with outSize := 4 } = .next t ∧ t.progress = 4) ∧
    (∃ t, exec .htBlock (withOut w1In 60 4) = .next t) ∧ (∃ t, exec .rxFixed (withRx rxIn 5 5) = .next t) ∧
    (∃ t, exec .vxDecode (withVx [1, 2, 3, 4] 0 2 2 0 0) = .next t) ∧
    (∃ t, exec .vxChunks (withVx [1, 2, 3, 4] 0 2 2 4 4) = .next t) := by
  refine ⟨rfl, ⟨_, rfl, rfl⟩, ⟨_, rfl⟩, ⟨_, rfl⟩, ⟨_, rfl⟩, ⟨_, rfl⟩⟩

theorem witness_InputPositionRisesToTheEnd :
    ∃ t, exec .htLoad (withIn w1In) = .next t ∧ t.inPos = 4 := ⟨_, rfl, rfl⟩

theorem witness_BrReadBitTakesNextBit :
    w1Loaded.cursor.mask ≠ 0 ∧
    ((withIn [0xA5]).cursor.mask = 0 ∧ (withIn [0xA5]).inPos.toNat + 1 = (withIn [0xA5]).eosLimit) ∧
    ((withIn []).cursor.mask = 0 ∧ (withIn []).eosLimit = (withIn []).inPos.toNat) := by decide

/-- A cursor over a byte, one byte left in IN. -/
def cursorAt (m : Byte) : State := { withIn [0xA5, 0x3C] with inPos := 1, cursor := ⟨0xA5, m⟩ }

theorem witness_BrReadByteAssemblesEightBits :
    (cursorAt 0x80).cursor.mask = 0x80 ∧
    ((cursorAt 0).cursor.mask = 0 ∧ (cursorAt 0).inPos.toNat + 1 = (cursorAt 0).eosLimit) ∧
    ((cursorAt 0x01).cursor.mask = (0x80 : Byte) >>> (8 - 1) ∧ (cursorAt 0x01).inPos.toNat < (cursorAt 0x01).eosLimit) ∧
    ((cursorAt 0x40).cursor.mask = (0x80 : Byte) >>> (8 - 7) ∧ (cursorAt 0x40).inPos.toNat < (cursorAt 0x40).eosLimit) ∧
    ((withIn []).cursor.mask ∈ legalMasks ∧ (withIn []).cursor.mask ≠ 0x80 ∧ (withIn []).eosLimit ≤ (withIn []).inPos.toNat) := by
  decide

/-- The state after `k` reads of a bit, as long as each goes on. -/
def afterReads : Nat → State
  | 0 => withIn [0xA5, 0x3C]
  | k + 1 => (after .brReadBit (afterReads k) id).getD (afterReads k)

/-- Nine bits, the last the first of a second byte: both conditions of R117's arithmetic at their bounds. -/
theorem witness_BitReadsConsumeBytesMsbFirst :
    (∀ k, k < 9 → exec .brReadBit (afterReads k) = .next (afterReads (k + 1))) ∧ (afterReads 0).cursor.mask = 0 ∧
    (afterReads 0).inPos.toNat + (9 + 7) / 8 = (afterReads 0).eosLimit := by
  refine ⟨fun k h => ?_, rfl, by decide⟩
  interval_cases k <;> rfl

theorem serial_w1 : CodeTree.Serial w1Tree w1Tree.ser := CodeTree.ser_serial _

/-- W1's tree, with the sizes its parameters allow just met. -/
theorem witness_HtLoadBuildsSerializedTree :
    ∃ s : State, s.par.valid = true ∧ s.cursor.mask ∈ legalMasks ∧ CodeTree.Serial w1Tree w1Tree.ser ∧
      s.pendingBits = w1Tree.ser ++ [false, true, false, true, true, false, false, false, false] ∧
      w1Tree.depth = s.par.depthCap ∧ w1Tree.size = s.par.nodeCap :=
  ⟨{ withIn w1In with par := { par64 with nodeCap := 5, depthCap := 2 } }, by decide, by decide, serial_w1, by decide,
    by decide, by decide⟩

theorem witness_HtLoadLoadsOrFaults : Inv State.reset := inv_reset

theorem witness_ZeroRunOverflowsAtTheGuards :
    (∃ s : State, s.par.valid = true ∧ s.cursor.mask ∈ legalMasks ∧ s.par.depthCap < s.par.nodeCap ∧
      s.pendingBits = List.replicate (s.par.depthCap + 1) false ++ List.replicate 7 false) ∧
    (∃ s : State, s.par.valid = true ∧ s.cursor.mask ∈ legalMasks ∧ s.par.depthCap = s.par.nodeCap ∧
      s.pendingBits = List.replicate (s.par.depthCap + 1) false ++ List.replicate 6 false) :=
  ⟨⟨tiny 1 0, by decide⟩, ⟨tiny 1 1, by decide⟩⟩

theorem codes_w1 :
    CodeTree.Code w1Tree [false] 0x41 ∧ CodeTree.Code w1Tree [true, false] 0x42 ∧ CodeTree.Code w1Tree [true, true] 0x43 :=
  ⟨.left (.leaf _), .right (.left (.leaf _)), .right (.right (.leaf _))⟩

theorem witness_CodesFormCompletePrefixCode :
    ∃ c v, CodeTree.Code w1Tree c v ∧ c = (List.range c.length).map fun _ => true := ⟨_, _, codes_w1.2.2, rfl⟩

/-- Three bits, 0 10, then the input ends inside 11. -/
theorem witness_HtDecodeReturnsTheCodesLeaf :
    (withIn []).status.treeValid = false ∧
    (w1Loaded.status.treeValid = true ∧ w1Loaded.arena = w1Tree.layout 0 ∧ w1Loaded.treeNodes.toNat = w1Tree.size ∧
      w1Loaded.cursor.mask ∈ legalMasks ∧
      (CodeTree.Code w1Tree [false] 0x41 ∧
        w1Loaded.pendingBits = [false] ++ [true, false, true, true, false, false, false, false])) ∧
    (∃ s : State, s.status.treeValid = true ∧ s.arena = w1Tree.layout 0 ∧ s.treeNodes.toNat = w1Tree.size ∧
      s.cursor.mask ∈ legalMasks ∧ CodeTree.Code w1Tree [true, true] 0x43 ∧ [true, true] = s.pendingBits ++ true :: []) :=
  ⟨rfl, ⟨rfl, rfl, rfl, by decide, codes_w1.1, by decide⟩,
    ⟨{ w1Loaded with inEnd := 4, cursor := ⟨0x87, 0x01⟩ }, rfl, rfl, rfl, by decide, codes_w1.2.2, by decide⟩⟩

theorem witness_HtDecodeCompletesOnEnoughBits :
    Inv leafLoaded ∧ leafLoaded.status.treeValid = true ∧
    leafLoaded.treeNodes.toNat = leafLoaded.pendingBits.length + 1 := ⟨inv_leafLoaded, rfl, by decide⟩

theorem w1_data :
    CodeTree.Codes w1Tree [false, true, false, true, true, false] [0x41, 0x42, 0x43, 0x41] :=
  .cons (c := [false]) codes_w1.1 (.cons (c := [true, false]) codes_w1.2.1 (.cons (c := [true, true]) codes_w1.2.2
    (.cons (c := [false]) codes_w1.1 .nil)))

theorem witness_HtDecodeNStoresTheSymbols :
    ∃ s : State, s.status.treeValid = true ∧ s.arena = w1Tree.layout 0 ∧ s.treeNodes.toNat = w1Tree.size ∧
      s.cursor.mask ∈ legalMasks ∧ s.outBase.toNat + s.outSize.toNat = s.par.bufCap ∧
      CodeTree.Codes w1Tree [false, true, false, true, true, false] [0x41, 0x42, 0x43, 0x41] ∧ 4 = s.outSize.toNat ∧
      s.pendingBits = [false, true, false, true, true, false] ++ [false, false, false] :=
  ⟨{ w1Loaded with outBase := 60, outSize := 4 }, rfl, rfl, rfl, by decide, by decide, w1_data, by decide, by decide⟩

/-- H6's data phase: one symbol, then the end of the input. -/
theorem witness_HtDecodeNStoresSymbolsBeforeEos :
    ∃ s : State, s.status.treeValid = true ∧ s.arena = w1Tree.layout 0 ∧ s.treeNodes.toNat = w1Tree.size ∧
      s.cursor.mask ∈ legalMasks ∧ s.outBase.toNat + s.outSize.toNat ≤ s.par.bufCap ∧
      CodeTree.Codes w1Tree [false] [0x41] ∧ 1 < s.outSize.toNat ∧ s.pendingBits = [false] ++ [] ∧
      (CodeTree.Code w1Tree [false] 0x41 ∧ [false] = [] ++ false :: []) :=
  ⟨{ w1Loaded with inEnd := 4, outSize := 4 }, rfl, rfl, rfl, by decide, by decide, .cons (c := [false]) codes_w1.1 .nil,
    by decide, by decide, codes_w1.1, rfl⟩

/-- W1: 31 tree bits and 6 data bits in five bytes. -/
theorem witness_HtBlockDecodesThePackedStream :
    let s := withOut w1In 60 4
    s.par.valid = true ∧ s.outBase.toNat + s.outSize.toNat = s.par.bufCap ∧ w1Tree.depth ≤ s.par.depthCap ∧
    w1Tree.size ≤ s.par.nodeCap ∧ CodeTree.Serial w1Tree w1Tree.ser ∧
    CodeTree.Codes w1Tree [false, true, false, true, true, false] [0x41, 0x42, 0x43, 0x41] ∧
    s.streamHolds s.inPos.toNat (w1Tree.ser ++ [false, true, false, true, true, false]) := by
  refine ⟨by decide, by decide, by decide, by decide, serial_w1, w1_data, by decide, fun j b h => ?_⟩
  have hj : j < 37 := (List.getElem?_eq_some_iff.mp h).1
  have hb : ∀ j < 37, (w1Tree.ser ++ [false, true, false, true, true, false])[j]? =
      some (((withOut w1In 60 4).readIn (0 + j / 8)).getLsbD (7 - j % 8)) := by decide
  exact Option.some.inj ((hb j hj).symm.trans h)

/-- W1's four commands one after another; and H6's, which end in a fault. -/
theorem witness_HtBlockIsThePrimitiveSequence :
    (∃ s s1 s2 s3 s4 : State, s.status.err = false ∧ s.outBase.toNat + s.outSize.toNat ≤ s.par.bufCap ∧
      exec .brInit s = .next s1 ∧ exec .htLoad s1 = .next s2 ∧ s2.status.err = false ∧ exec .htDecodeN s2 = .next s3 ∧
      s3.status.err = false ∧ exec .htDiscard s3 = .next s4) ∧
    (∃ s s1 s2 s3 : State, s.status.err = false ∧ s.outBase.toNat + s.outSize.toNat ≤ s.par.bufCap ∧
      exec .brInit s = .next s1 ∧ exec .htLoad s1 = .next s2 ∧ s2.status.err = false ∧ exec .htDecodeN s2 = .next s3 ∧
      s3.status.err = true) ∧
    (∃ s s1 s2 : State, s.status.err = false ∧ s.outBase.toNat + s.outSize.toNat ≤ s.par.bufCap ∧
      exec .brInit s = .next s1 ∧ exec .htLoad s1 = .next s2 ∧ s2.status.err = true) := by
  refine ⟨⟨withOut w1In 60 4, _, _, _, _, rfl, by decide, rfl, rfl, rfl, rfl, rfl, rfl⟩,
    ⟨withOut [0x50, 0x4A, 0x12, 0x86] 0 4, _, _, _, rfl, by decide, rfl, rfl, rfl, rfl, rfl⟩,
    ⟨withOut [0x00] 0 4, _, _, rfl, by decide, rfl, rfl, rfl⟩⟩

/-- V15's bound, and V14 beyond it. -/
theorem witness_VxDecodeIsRunningXor :
    (let s := withVx [] 60 2 2 0 0
     s.vxBase.toNat + s.vxWidth.toNat * s.vxHeight.toNat = s.par.bufCap ∧ inGrid 60 2 2 63 ∧ ¬inGrid 60 2 2 64) ∧
    (let s := withVx [] 61 2 2 0 0
     s.par.bufCap < s.vxBase.toNat + s.vxWidth.toNat * s.vxHeight.toNat) := by decide

/-- V3 -/
theorem witness_VxDecodeInvertsTheEncoder :
    ∃ s t u : State, s.vxWidth = 1 ∧ s.vxHeight = 3 ∧ s.vxBase.toNat + 3 ≤ s.par.bufCap ∧
      s.readBuf s.vxBase.toNat = 0x01 ∧ s.readBuf (s.vxBase.toNat + 1) = 0x00 ∧ s.readBuf (s.vxBase.toNat + 2) = 0x00 ∧
      exec .vxDecode s = .next t ∧ exec .vxDecode t = .next u :=
  ⟨withVx [0x01, 0x00, 0x00] 0 1 3 0 0, _, _, rfl, rfl, by decide, rfl, rfl, rfl, rfl, rfl⟩

/-- V8: two whole chunks and a tail; V12: none; V13, V10 and V9: the faults. -/
theorem witness_VxChunksDecodesEveryWholeChunk :
    (let s := withVx [] 54 2 2 10 4
     s.vxBase.toNat + s.vxLen.toNat = s.par.bufCap ∧ s.vxStride ≠ 0 ∧
      s.vxWidth.toNat * s.vxHeight.toNat = s.vxStride.toNat ∧ chunkCount s.vxLen.toNat 4 4 = 2) ∧
    (let s := withVx [] 0 2 2 3 4
     s.vxBase.toNat + s.vxLen.toNat ≤ s.par.bufCap ∧ s.vxStride ≠ 0 ∧
      s.vxWidth.toNat * s.vxHeight.toNat ≤ s.vxStride.toNat ∧ chunkCount s.vxLen.toNat 4 4 = 0) ∧
    (let s := withVx [] 57 2 2 8 3
     s.par.bufCap < s.vxBase.toNat + s.vxLen.toNat) ∧
    (let s := withVx [] 56 0 0 8 0
     s.vxBase.toNat + s.vxLen.toNat = s.par.bufCap ∧ s.vxStride = 0) ∧
    (let s := withVx [] 56 2 2 8 3
     s.vxBase.toNat + s.vxLen.toNat = s.par.bufCap ∧ s.vxStride.toNat + 1 = s.vxWidth.toNat * s.vxHeight.toNat) := by decide

/-- The state after VX_DECODE of `k` chunks of V7's. -/
def afterChunks : Nat → State
  | 0 => withVx [1, 2, 3, 4, 5, 6, 7, 8] 0 2 2 8 4
  | k + 1 => (after .vxDecode { afterChunks k with vxBase := 0 + Word.ofNat (k * 4) } id).getD (afterChunks k)

theorem witness_VxChunksIsVxDecodePerChunk :
    (afterChunks 0).par.valid = true ∧ (∃ t, exec .vxChunks (afterChunks 0) = .next t) ∧
    (∀ k, k < 2 → exec .vxDecode { afterChunks k with vxBase := 0 + Word.ofNat (k * 4) } = .next (afterChunks (k + 1))) ∧
    (∃ s' t' : State, s'.par = (afterChunks 0).par ∧ s'.bufMem ≠ (afterChunks 0).bufMem ∧ exec .vxChunks s' = .next t' ∧
      ∀ a, inGrid 4 2 2 a → s'.readBuf a = (afterChunks 0).readBuf a) := by
  refine ⟨by decide, ⟨_, rfl⟩, fun k h => ?_, ⟨withVx [9, 9, 9, 9, 5, 6, 7, 8] 0 2 2 8 4, _, rfl, by decide, rfl, fun a h => ?_⟩⟩
  · interval_cases k <;> rfl
  · obtain ⟨h1, h2⟩ := h
    interval_cases a <;> rfl

/-- X4's stream, its last byte just before the end. -/
theorem witness_RxFixedDecodesTheLimit :
    let s := withRx (rxIn.take 7) 5 2
    s.outBase.toNat + s.outSize.toNat ≤ s.par.bufCap ∧ s.inPos.toNat + 2 + s.outSize.toNat = s.eosLimit := by decide

/-- X2 stops at K = 2; X9, with a limit of 1, does not stop. -/
theorem witness_RxChecksumStopsAtFirstMatch :
    (let s := withRx rxIn 5 5
     s.inPos.toNat + 2 + s.outSize.toNat ≤ s.eosLimit ∧ s.rxMatches 2 ∧ ∀ j, 1 ≤ j → j < 2 → ¬s.rxMatches j) ∧
    (let s := withRx rxIn 5 1
     s.inPos.toNat + 2 + s.outSize.toNat ≤ s.eosLimit ∧
      ∀ j, 1 ≤ j → j ≤ min s.encLimit.toNat s.outSize.toNat → ¬s.rxMatches j) := by
  refine ⟨⟨by decide, by unfold State.rxMatches; decide, fun j h1 h2 => ?_⟩, by decide, fun j h1 h2 => ?_⟩
  · obtain rfl : j = 1 := by omega
    unfold State.rxMatches; decide
  · have h3 : j ≤ 1 := h2
    obtain rfl : j = 1 := by omega
    unfold State.rxMatches; decide

/-- X11 and X12, and X7 with fewer than two bytes. -/
theorem witness_RxRaisesEosAtTheEnd :
    (let s := withRx [0x12, 0x34, 0x34] 2 2
     s.eosLimit < s.inPos.toNat + 2 + s.outSize.toNat ∧ s.inPos.toNat + 2 ≤ s.eosLimit ∧
      1 = min (min s.encLimit.toNat s.outSize.toNat) (s.eosLimit - (s.inPos.toNat + 2))) ∧
    (let s := withRx (rxIn.take 6) 5 5
     s.eosLimit < s.inPos.toNat + 2 + s.outSize.toNat ∧ s.rxMatches 2 ∧ ∀ j, 1 ≤ j → j < 2 → ¬s.rxMatches j) ∧
    (let s := withRx [0x05] 3 3
     s.eosLimit < s.inPos.toNat + 2 + s.outSize.toNat ∧ s.eosLimit < s.inPos.toNat + 2 ∧
      0 = min (min s.encLimit.toNat s.outSize.toNat) (s.eosLimit - (s.inPos.toNat + 2))) := by
  refine ⟨by decide, ⟨by decide, by unfold State.rxMatches; decide, fun j h1 h2 => ?_⟩, by decide⟩
  obtain rfl : j = 1 := by omega
  unfold State.rxMatches; decide

theorem witness_RxDependsOnlyOnItsBytes :
    ∃ s s' t t' : State, s'.par = s.par ∧ s'.inPos = s.inPos ∧ s'.inEnd = s.inEnd ∧ s'.outBase = s.outBase ∧
      s'.outSize = s.outSize ∧ s'.encLimit = s.encLimit ∧ s.outBase.toNat + s.outSize.toNat ≤ s.par.bufCap ∧
      s.inPos.toNat + 2 + s.outSize.toNat ≤ s.eosLimit ∧
      (∀ a, s.inPos.toNat ≤ a → a < s.inPos.toNat + 2 + s.outSize.toNat → s'.readIn a = s.readIn a) ∧
      exec .rxFixed s = .next t ∧ exec .rxFixed s' = .next t' ∧ s'.cursor ≠ s.cursor ∧ s'.key ≠ s.key :=
  ⟨withRx rxIn 5 5, { withRx rxIn 5 5 with cursor := ⟨0xA5, 0x10⟩, key := 0x77 }, _, _, rfl, rfl, rfl, rfl, rfl, rfl,
    by decide, by decide, fun _ _ _ => rfl, rfl, rfl, by decide, by decide⟩

end Sys2Proof.Tests
end

-- Proofs of family 00_scope.md: legality of a state whose registers hold their reset values
section

namespace Sys2Proof.Machine

/-- R26: STATUS and FAULT_INFO at their reset values are a legal combination. -/
theorem statusLegal_of_reset {s : State} (hs : s.status = State.reset.status) (hf : s.faultInfo = 0) : StatusLegal s where
  busy := by rw [hs]; decide
  doneErr := by rw [hs]; decide
  noFault _ := ⟨by rw [hs]; rfl, hf⟩
  fault := by rw [hs]; decide

/-- R34: with TREE_NODES = 0 and TREE_VALID = 0 the empty arena is legal, whatever the capacities are. -/
theorem treeLegal_of_empty {s : State} (ha : s.arena = []) (hn : s.treeNodes = 0) (hv : s.status.treeValid = false) :
    TreeLegal s where
  counted := by rw [ha, hn]; rfl
  bounded := by rw [hn]; exact Nat.zero_le _
  valid h := by rw [hv] at h; cases h

/-- R241: spaces nothing has written since reset are legal, whatever their sizes are. -/
theorem memoryLegal_of_unwritten {s : State} (hi : s.inMem = []) (hb : s.bufMem = []) : MemoryLegal s where
  inWf := by rw [hi]; exact .nil
  inBelow := by rw [hi]; exact List.forall_mem_nil _
  bufWf := by rw [hb]; exact .nil
  bufBelow := by rw [hb]; exact List.forall_mem_nil _

/-- R5: the values this hardware takes are within the bounds of the parameters. -/
theorem thisHardware_valid : Params.thisHardware.valid = true := by decide

/-- R33: CUR_MASK = 0, the exhausted cursor, is a legal mask. -/
theorem zero_mem_legalMasks : (0 : Byte) ∈ legalMasks := by decide

/-- Settles O25: part by part, from the values R240 gives the registers and from the storage nothing has written. -/
theorem resetStateIsLegal : Obligations.ResetStateIsLegal where
  params := thisHardware_valid
  status := statusLegal_of_reset rfl rfl
  mask := zero_mem_legalMasks
  tree := treeLegal_of_empty rfl rfl rfl
  memory := memoryLegal_of_unwritten rfl rfl

end Sys2Proof.Machine
end

-- Proofs of family 10_state.md: legality of every step, the frames of the commands, and the registers at the host port
section

namespace Sys2Proof.Machine

/-! ## Legality of every step (R26, R33 to R35, R62, R63) -/

/-- The legal combinations look at STATUS and FAULT_INFO alone, and of STATUS not at HAZ, TREE_VALID or RX_STOP. -/
theorem StatusLegal.congr {s t : State} (h : StatusLegal s) (hb : t.status.busy = s.status.busy)
    (hd : t.status.done = s.status.done) (he : t.status.err = s.status.err) (hc : t.status.cause = s.status.cause)
    (hf : t.faultInfo = s.faultInfo) : StatusLegal t where
  busy := by rw [hb, hd, he]; exact h.busy
  doneErr := by rw [hd, he]; exact h.doneErr
  noFault := by rw [he, hc, hf]; exact h.noFault
  fault := by rw [he, hc]; exact h.fault

/-- Legality is kept by a change of HAZ, and of any register or host field it does not look at. -/
theorem Inv.congr {s t : State} (h : Inv s) (hp : t.par = s.par) (hs : t.status = { s.status with haz := t.status.haz })
    (hf : t.faultInfo = s.faultInfo) (hm : t.cursor = s.cursor) (ha : t.arena = s.arena) (hn : t.treeNodes = s.treeNodes)
    (hi : t.inMem = s.inMem) (hb : t.bufMem = s.bufMem) : Inv t :=
  (h.legal.congr hp (by rw [hm]; exact h.mask) ha hn (fun hv => by rw [hs] at hv; exact hv) hi hb).inv
    (h.status.congr (by rw [hs]) (by rw [hs]) (by rw [hs]) (by rw [hs]) hf)

theorem Inv.setHaz {s : State} (h : Inv s) : Inv s.setHaz := h.congr rfl rfl rfl rfl rfl rfl rfl rfl

theorem Inv.answer {s : State} (h : Inv s) (v : Word) : Inv (s.answer v) := h.congr rfl rfl rfl rfl rfl rfl rfl rfl

theorem Inv.answerDraw {s : State} (h : Inv s) (f : Word → Word) : Inv (s.answerDraw f) :=
  h.congr rfl rfl rfl rfl rfl rfl rfl rfl

theorem Inv.hostReadOf {s : State} (h : Inv s) (r : Reg) : Inv (s.hostReadOf r) := by
  rw [hostReadOf_frame]; exact h.congr rfl rfl rfl rfl rfl rfl rfl rfl

/-- R201: acceptance with no fault pending starts a command with DONE = 0 and ERR = 0. -/
theorem Inv.accept {s : State} (h : Inv s) (he : s.status.err = false) (i : Instr) : Inv (s.accept i) :=
  Legal.inv (h.legal.congr rfl h.mask rfl rfl id rfl rfl)
    { busy := fun _ => ⟨rfl, he⟩
      doneErr := fun hde => Bool.false_ne_true hde.1
      noFault := h.status.noFault
      fault := h.status.fault }

/-- R202: an invalid word leaves an idle block with ERR = 1, DONE = 0 and the cause BAD_CMD. -/
theorem Inv.badCmd {s : State} (h : Inv s) (hb : s.status.busy = false) (w : Word) : Inv (s.badCmd w) :=
  Legal.inv (h.legal.congr rfl h.mask rfl rfl id rfl rfl)
    { busy := fun hb' => nomatch hb.symm.trans hb'
      doneErr := fun hde => Bool.false_ne_true hde.1
      noFault := fun he => nomatch he
      fault := fun _ => nofun }

/-- R209: the return from a fault drops ERR together with its cause and information. -/
theorem Inv.clearErr {s : State} (h : Inv s) : Inv s.clearErr :=
  Legal.inv (h.legal.congr rfl h.mask rfl rfl id rfl rfl)
    { busy := fun hb => ⟨(h.status.busy hb).1, rfl⟩
      doneErr := fun hde => Bool.false_ne_true hde.2
      noFault := fun _ => ⟨rfl, rfl⟩
      fault := fun he => nomatch he }

/-- R26: clearing DONE, and changing HAZ, keeps a legal combination legal. -/
theorem Inv.clearDone {s : State} (h : Inv s) {d z : Bool} (hd : d = true → s.status.done = true) :
    Inv { s with status := { s.status with done := d, haz := z } } :=
  Legal.inv (h.legal.congr rfl h.mask rfl rfl id rfl rfl)
    { busy := fun hb =>
        ⟨Bool.eq_false_iff.mpr fun h' => (nomatch (h.status.busy hb).1.symm.trans (hd h')), (h.status.busy hb).2⟩
      doneErr := fun hde => h.status.doneErr ⟨hd hde.1, hde.2⟩
      noFault := h.status.noFault
      fault := h.status.fault }

theorem Inv.writeStatus {s : State} (h : Inv s) (v : Word) : Inv (s.writeStatus v) := by
  unfold State.writeStatus
  split
  · exact h.clearErr.clearDone fun hd => (Bool.and_eq_true_iff.mp hd).1
  · exact h.clearDone fun hd => (Bool.and_eq_true_iff.mp hd).1

/-- R200: each of the four ways a CMD write is handled ends in a legal state. -/
theorem Inv.cmdWrite {s : State} (h : Inv s) (w : Word) : Inv (s.cmdWrite w) := by
  unfold State.cmdWrite
  by_cases hb : s.status.busy = true
  · rw [if_pos hb]; exact h.setHaz
  by_cases he : s.status.err = true
  · rw [if_neg hb, if_pos he]; exact h.setHaz
  rw [if_neg hb, if_neg he]
  split
  · exact h.accept (Bool.eq_false_iff.mpr he) _
  · exact h.badCmd (Bool.eq_false_iff.mpr hb) _

/-- R23: a host store to a register keeps legality; of the registers it can change, legality looks at STATUS alone. -/
theorem Inv.writeReg {s : State} (h : Inv s) (r : Reg) (v : Word) : Inv (s.writeReg r v) := by
  cases r
  case status => exact h.writeStatus v
  all_goals exact h.congr rfl rfl rfl rfl rfl rfl rfl rfl

/-- R240: reset leaves a legal state under any legal parameters. -/
theorem Inv.assertReset {s : State} (h : Inv s) : Inv s.assertReset where
  params := h.params
  status := statusLegal_of_reset rfl rfl
  mask := zero_mem_legalMasks
  tree := treeLegal_of_empty rfl rfl rfl
  memory := memoryLegal_of_unwritten rfl rfl

/-- R64: a host store of bytes inside its space keeps legality. -/
theorem Inv.storeBytes {s : State} (h : Inv s) {sp : Space} {a n : Nat} (v : Word) (hn : a + n ≤ s.spaceCap sp) :
    Inv (s.storeBytes sp a v n) := by
  have hf := storeBytes_frame s sp a v n
  exact
    { params := by rw [hf]; exact h.params
      status := h.status.congr (by rw [hf]) (by rw [hf]) (by rw [hf]) (by rw [hf]) (by rw [hf])
      mask := by rw [hf]; exact h.mask
      tree := by rw [hf]; exact ⟨h.tree.counted, h.tree.bounded, h.tree.valid⟩
      memory := storeBytes_memoryLegal v h.memory hn }

/-- A performed access lies inside its space (R64). -/
theorem le_spaceCap_of_accessFits {s : State} {sp : Space} {off : Nat} {wid : Width}
    (h : s.accessFits sp off wid = true) : off + widthBytes wid ≤ s.spaceCap sp :=
  of_decide_eq_true (Bool.and_eq_true_iff.mp h).2

theorem Inv.regWrite {s : State} (h : Inv s) (off : BitVec 8) (wid : Width) (v : Word) :
    Inv (s.hostAct (.regWrite off wid v)) := by
  rcases regWrite_cases s off wid v with ⟨r, hr⟩ | ⟨-, hr⟩
  · rw [hr, hostAct_wr]
    split
    · exact h.setHaz
    · split
      · exact h.cmdWrite v
      · exact h.writeReg _ v
  · show Inv (s.hostRegWrite off wid v)
    rw [hr]
    split
    · exact h.setHaz
    · exact h

/-- Every act of the host's side leads from a legal state to a legal state. -/
theorem Inv.hostAct {s : State} (h : Inv s) (a : HostAct) : Inv (s.hostAct a) := by
  cases a with
  | regRead off wid =>
    simp only [State.hostAct, State.hostRegRead]
    split
    · exact h.answer 0
    · exact h.hostReadOf _
  | regWrite off wid v => exact h.regWrite off wid v
  | memRead sp off wid =>
    simp only [State.hostAct, State.hostMemRead]
    split
    · exact h.setHaz.answerDraw _
    · split <;> exact h.answer _
  | memWrite sp off wid v =>
    simp only [State.hostAct, State.hostMemWrite]
    split
    · exact h.setHaz
    · split
      · exact h.storeBytes v (le_spaceCap_of_accessFits ‹_›)
      · exact h
  | waitIdle =>
    simp only [State.hostAct, State.hostWait]
    split
    · exact (h.hostReadOf .status).congr rfl rfl rfl rfl rfl rfl rfl rfl
    · exact h.hostReadOf .status
  | rst => exact h.assertReset

/-- A command run from a legal busy state ends in a legal state, completed (R204) or faulted (R205). -/
theorem Inv.exec {s t : State} (h : Inv s) (hb : s.status.busy = true) {i : Instr} (he : exec i s = .next t) : Inv t := by
  obtain ⟨-, herr⟩ := h.status.busy hb
  obtain ⟨hcause, hinfo⟩ := h.status.noFault herr
  have hend := exec_ended he
  obtain ⟨u, hu, e | ⟨c, v, hc, e⟩⟩ := exec_ends h.legal i
  · obtain rfl := Host.Outcome.next.inj (he.symm.trans e)
    obtain ⟨-, hterr, htcause, htinfo⟩ | ⟨hdone, -⟩ := hend.ended
    · rw [herr] at hterr
      rw [hcause] at htcause
      rw [hinfo] at htinfo
      exact Legal.inv (hu.congr rfl hu.mask rfl rfl id rfl rfl)
        { busy := fun hb' => nomatch hend.busy.symm.trans hb'
          doneErr := fun hde => nomatch hterr.symm.trans hde.2
          noFault := fun _ => ⟨htcause, htinfo⟩
          fault := fun he' => nomatch hterr.symm.trans he' }
    · exact nomatch hdone
  · obtain rfl := Host.Outcome.next.inj (he.symm.trans e)
    exact Legal.inv (hu.congr rfl hu.mask rfl rfl id rfl rfl)
      { busy := fun hb' => nomatch hb'
        doneErr := fun hde => Bool.false_ne_true hde.1
        noFault := fun he' => nomatch he'
        fault := fun _ => hc }

/-- Settles O26: an idle step changes nothing; an engine step and a host act each keep legality. -/
theorem everyStepKeepsLegality : Obligations.EveryStepKeepsLegality := by
  unfold Obligations.EveryStepKeepsLegality
  intro s t h ht
  rcases step_cases s with ⟨-, -, e⟩ | ⟨hb, l, e⟩ | ⟨a, rest, l, -, e⟩ <;> rw [e] at ht
  · cases ht; exact h
  · have hl : Inv { s with sched := l } := h.congr rfl rfl rfl rfl rfl rfl rfl rfl
    exact hl.exec hb ht
  · have hl : Inv { s with hostQ := rest, sched := l } := h.congr rfl rfl rfl rfl rfl rfl rfl rfl
    cases ht; exact hl.hostAct a

/-! ## BUSY, ERR and HAZ over every step (R26) -/

/-- Settles O12: an idle step changes no field; the engine's step ends BUSY, may set ERR and leaves HAZ (`exec_ended`); a
host act does as `hostAct_keeps` says, but for RST. -/
theorem statusFieldsChangeOnlyAsListed : Obligations.StatusFieldsChangeOnlyAsListed := by
  unfold Obligations.StatusFieldsChangeOnlyAsListed
  intro s t h
  have never : ∀ {b : Bool} {P : Prop}, b = false → b = true → P := fun h h' => nomatch h.symm.trans h'
  rcases step_cases s with ⟨-, -, e⟩ | ⟨hb, l, e⟩ | ⟨a, rest, l, hq, e⟩ <;> rw [e] at h
  · cases h
    exact ⟨never, fun h h' => never h' h, never, fun h h' => never h' h, fun h h' => never h' h, never⟩
  · have hend := exec_ended h
    refine ⟨fun hb' => never hb' hb, fun _ _ => .inl ⟨l, h, ?_⟩, fun _ _ => .inl ⟨hb, l, h⟩, fun he he' => ?_,
      fun hz hz' => never hz' (hend.haz.trans hz), fun hz hz' => never hz (hend.haz.symm.trans hz')⟩
    · exact hend.ended.imp (fun hc => hc.1) fun hf => hf.2
    · obtain ⟨-, hterr, -⟩ | ⟨-, hterr⟩ := hend.ended
      · exact never he' (hterr.trans he)
      · exact never he' hterr
  · cases h
    have k := hostAct_keeps { s with hostQ := rest, sched := l } a
    refine ⟨fun hb hb' => ?_, fun hb hb' => ?_, fun he he' => .inr ?_, fun he he' => ?_, fun hz hz' => ?_,
      fun hz hz' => ⟨a, rest, hq, k.hazSet hz hz'⟩⟩
    · obtain ⟨w, rfl, he, hd⟩ := k.busySet hb hb'
      exact ⟨w, rest, hq, he, hd⟩
    · by_cases ha : a = .rst
      · exact .inr ⟨rest, ha ▸ hq⟩
      · exact never hb' (k.busyStays ha hb)
    · obtain ⟨w, rfl, hb, hd⟩ := k.errSet he he'
      exact ⟨w, rest, hq, hb, hd⟩
    · by_cases ha : a = .rst
      · exact .inr ⟨rest, ha ▸ hq⟩
      · obtain ⟨v, rfl, hb, hv⟩ := k.errCleared ha he he'
        exact .inl ⟨v, rest, hq, hb, hv⟩
    · by_cases ha : a = .rst
      · exact .inr ⟨rest, ha ▸ hq⟩
      · obtain ⟨v, rfl, hb, hv⟩ := k.hazCleared ha hz hz'
        exact .inl ⟨v, rest, hq, hb, hv⟩

/-! ## The tree arena (R34, R35) -/

/-- Settles O28: the arena is the layout of a tree, whose entries and children the layout lemmas give. -/
theorem validTreeIsStrictlyBinary : Obligations.ValidTreeIsStrictlyBinary := by
  unfold Obligations.ValidTreeIsStrictlyBinary
  intro s h hv
  obtain ⟨T, hT, -⟩ := Loaded.of_treeLegal h.tree hv
  have hlen : s.arena.length = T.size := by rw [hT.arena, T.layout_length]
  have hpos := T.size_pos
  refine ⟨h.tree.counted, hlen ▸ hpos, h.tree.counted ▸ h.tree.bounded, fun n hn => ?_, fun n l r hn => ?_,
    fun k hk hk' => ?_⟩
  · rw [hT.arena] at hn
    exact (layout_getElem? T hn).1 rfl
  · rw [hT.arena] at hn
    have hlr := (layout_getElem? T hn).2 l r rfl
    omega
  · rw [hT.arena, (layout_children T 0).count_eq]
    exact List.count_eq_one_of_mem (List.nodup_range' (step := 1)) (List.mem_range'_1.mpr (by omega))

/-! ## IN_POS over a command (R21, R28, R111) -/

/-- Completion and fault entry leave IN_POS and the effective end alone. -/
theorem Fetches.of_post {α : Type} {x : Eng α} {Q : State → Prop} {R : Cause → Word → State → Prop} {s t : State}
    (hx : x.Post Q R) (h : x.finish = .next t) (hQ : ∀ u, Q u → Fetches s u) : Fetches s t := by
  rcases hx.finish h with ⟨u, hu, rfl⟩ | ⟨c, v, u, hu, -, rfl⟩ <;> exact (hQ u hu).congr rfl rfl rfl

theorem VxEnds.fetches {P : Nat → Prop} {s t : State} (h : VxEnds P s t) : Fetches s t := .of_eq (by rw [h.frame])

/-- Every command moves IN_POS only up, and not beyond the effective end. -/
theorem exec_fetches {s t : State} {i : Instr} (he : exec i s = .next t) : Fetches s t := by
  cases i with
  | brInit => cases he; exact .of_eq rfl
  | brReadBit => exact .of_post (brReadBit_post s) he fun _ h => h.fetches
  | brReadByte => exact .of_post (brReadByte_post s) he fun _ h => h.fetches
  | htLoad => exact .of_post (loadTree_post s) he fun _ h => h.2
  | htDecode => exact .of_post (htDecode_post s) he fun _ h => h.fetches
  | htDecodeN => exact .of_post (htDecodeN_post s) he fun _ h => h.fetches
  | htDiscard => cases he; exact .of_eq rfl
  | htBlock => exact .of_post (htBlock_post s) he fun _ h => h.fetches
  | vxDecode => exact .of_post (vxDecode_post s) he fun _ h => h.fetches
  | vxChunks => exact .of_post (vxChunks_post s) he fun _ h => h.fetches
  | rxFixed => exact .of_post (rx_post .fixed s) he fun _ h => h.fetches
  | rxChecksum => exact .of_post (rx_post .checksum s) he fun _ h => h.fetches

/-- Settles O31: `exec_fetches`, with the effective end written out (R29). -/
theorem inputPositionRisesToTheEnd : Obligations.InputPositionRisesToTheEnd := by
  unfold Obligations.InputPositionRisesToTheEnd
  intro s t i he
  obtain ⟨hrises, hbounded⟩ := exec_fetches he
  exact ⟨hrises, hbounded⟩

/-! ## The bytes of BUF a command changes (R38, R63, R79) -/

/-- The first bytes of the output range are stored, and PROGRESS counts them; BUF is as before elsewhere. -/
def StoresCounted (s t : State) : Prop :=
  ∃ j, j ≤ s.outSize.toNat ∧ t.progress = (if j = 0 then s.progress else Word.ofNat j) ∧
    ∀ a, a < s.outBase.toNat ∨ s.outBase.toNat + j ≤ a → t.readBuf a = s.readBuf a

theorem StoresCounted.outside {s t : State} (h : StoresCounted s t) {a : Nat}
    (ha : a < s.outBase.toNat ∨ s.outBase.toNat + s.outSize.toNat ≤ a) : t.readBuf a = s.readBuf a := by
  obtain ⟨j, hj, -, hkeep⟩ := h
  exact hkeep a (by omega)

/-- From acceptance, where PROGRESS is 0, it is the number of bytes stored. -/
theorem StoresCounted.progress {s t : State} (h : StoresCounted s t) (h0 : s.progress = 0) :
    t.progress.toNat ≤ s.outSize.toNat ∧ ∀ a, s.outBase.toNat + t.progress.toNat ≤ a → t.readBuf a = s.readBuf a := by
  obtain ⟨j, hj, hp, hkeep⟩ := h
  have hjp : t.progress = Word.ofNat j := by
    rw [hp, h0]
    split
    · next hz => rw [hz]; rfl
    · rfl
  have hval : t.progress.toNat = j := by
    rw [hjp, BitVec.toNat_ofNat, Nat.mod_eq_of_lt (Nat.lt_of_le_of_lt hj s.outSize.isLt)]
  exact ⟨by omega, fun a ha => hkeep a (by omega)⟩

/-- Completion and fault entry leave PROGRESS and BUF alone. -/
theorem StoresCounted.of_post {α : Type} {x : Eng α} {Q : State → Prop} {R : Cause → Word → State → Prop} {s t : State}
    (hx : x.Post Q R) (h : x.finish = .next t) (hQ : ∀ u, Q u → StoresCounted s u) : StoresCounted s t := by
  rcases hx.finish h with ⟨u, hu, rfl⟩ | ⟨c, v, u, hu, -, rfl⟩ <;> exact hQ u hu

theorem Emits.storesCounted {s t : State} (h : Emits 0 s.outSize.toNat s t) : StoresCounted s t := by
  obtain ⟨j, -, hj, hp, hkeep⟩ := h.range
  exact ⟨j, by omega, hp, hkeep⟩

/-- R38: each of the four output commands stores its range from OUT_BASE on, as far as it gets. -/
theorem exec_storesCounted {s t : State} {i : Instr} (hi : i ∈ [Instr.htDecodeN, .htBlock, .rxFixed, .rxChecksum])
    (he : exec i s = .next t) : StoresCounted s t := by
  simp only [List.mem_cons, List.not_mem_nil, or_false] at hi
  rcases hi with rfl | rfl | rfl | rfl
  · exact .of_post (htDecodeN_post s) he fun _ h => h.storesCounted
  · exact .of_post (htBlock_post s) he fun _ h => h.range
  · exact .of_post (rx_post .fixed s) he fun _ h => h.range
  · exact .of_post (rx_post .checksum s) he fun _ h => h.range

/-- Completion and fault entry leave BUF alone. -/
theorem VxEnds.readBuf_of_post {α : Type} {x : Eng α} {P : Nat → Prop} {R : Cause → Word → State → Prop} {s t : State}
    (hx : x.Post (VxEnds P s) R) (h : x.finish = .next t) {a : Nat} (ha : ¬P a) : t.readBuf a = s.readBuf a := by
  rcases hx.finish h with ⟨u, hu, rfl⟩ | ⟨c, v, u, hu, -, rfl⟩ <;> exact hu.outside a ha

/-- R162: every counted chunk ends inside the region; with the stride 0, which VX_CHUNKS rejects, one is counted. -/
theorem chunk_end_le {len size stride k : Nat} (h : k < chunkCount len size stride) : k * stride + size ≤ len := by
  obtain rfl | hs := Nat.eq_zero_or_pos stride
  · unfold chunkCount at h
    split at h <;> omega
  · exact (chunk_inside_iff hs).mpr h

/-- Settles O30: the output commands store the first bytes of their range, VX_DECODE stores in its grid, and VX_CHUNKS in
chunks that end inside its region. -/
theorem commandsStoreOnlyInTheirRange : Obligations.CommandsStoreOnlyInTheirRange := by
  unfold Obligations.CommandsStoreOnlyInTheirRange
  intro s t
  refine ⟨fun i hi he => ?_, fun he a ha => ?_, fun he a ha => ?_⟩
  · have h := exec_storesCounted hi he
    exact ⟨fun a => h.outside, h.progress⟩
  · exact VxEnds.readBuf_of_post (vxDecode_post s) he ha
  · refine VxEnds.readBuf_of_post (vxChunks_post s) he ?_
    rintro ⟨k, hk, hlow, hhigh⟩
    have hend := chunk_end_le hk
    omega

/-! ## Bits of the register words (R23, R25, R26, R46) -/

/-- A flag read from its own position of a word is that bit of the word. -/
theorem flagAt_getLsbD (v : Word) (pos : Nat) : flagAt (v.getLsbD pos) pos = v &&& (1#32 <<< pos) := by
  rw [← BitVec.twoPow_eq, BitVec.and_twoPow, BitVec.twoPow_eq]
  rfl

/-- R25: CTRL reads back the three bits written. -/
theorem ctrl_toWord_ofWord (v : Word) : (Ctrl.ofWord v).toWord = v &&& 7 := by
  simp only [Ctrl.toWord, Ctrl.ofWord, flagAt_getLsbD, ← BitVec.and_or_distrib_left]
  rfl

/-- R46: CTRL ignores the reserved bits of a write. -/
theorem ctrl_ofWord_and_seven (v : Word) : Ctrl.ofWord (v &&& 7) = Ctrl.ofWord v := by
  simp [Ctrl.ofWord]

/-- R46: STATUS ignores the bits of a write that clear nothing (R26). -/
theorem writeStatus_and_w1c (s : State) (v : Word) : s.writeStatus (v &&& 0xE) = s.writeStatus v := by
  simp [State.writeStatus]

theorem flagAt_and_eq_zero {m : Word} (b : Bool) {pos : Nat} (hm : 1#32 <<< pos &&& m = 0) : flagAt b pos &&& m = 0 := by
  cases b
  · exact BitVec.zero_and
  · exact hm

/-- A field of `w` bits from position `k` of a word is 0 under a mask that has no bit of the field. -/
theorem field_and_eq_zero {w : Nat} (x : BitVec w) (k : Nat) {m : Word} (hm : ∀ i < w, m.getLsbD (k + i) = false) :
    (x.zeroExtend 32 <<< k) &&& m = 0 := by
  apply BitVec.eq_of_getLsbD_eq
  intro i hi
  obtain hlow | ⟨j, rfl⟩ : i < k ∨ ∃ j, i = k + j := (Nat.lt_or_ge i k).imp_right Nat.exists_eq_add_of_le
  · simp [hlow]
  · obtain hj | hj := Nat.lt_or_ge j w
    · simp [hm j hj]
    · simp [BitVec.getLsbD_of_ge x j hj]

theorem zeroExtend_and_eq_zero {w : Nat} (x : BitVec w) {m : Word} (hm : ∀ i < w, m.getLsbD i = false) :
    x.zeroExtend 32 &&& m = 0 := by
  rw [← BitVec.shiftLeft_zero (x.zeroExtend 32)]
  exact field_and_eq_zero x 0 fun i hi => by rw [Nat.zero_add]; exact hm i hi

theorem or_and_eq_zero {x y m : Word} (hx : x &&& m = 0) (hy : y &&& m = 0) : (x ||| y) &&& m = 0 := by
  rw [BitVec.and_or_distrib_right, hx, hy]
  rfl

/-- R25, R46: bits 31:3 of CTRL read 0. -/
theorem ctrl_toWord_reserved (c : Ctrl) : c.toWord &&& 0xFFFFFFF8 = 0 :=
  or_and_eq_zero (or_and_eq_zero (flagAt_and_eq_zero _ (by decide)) (flagAt_and_eq_zero _ (by decide)))
    (flagAt_and_eq_zero _ (by decide))

/-- R26, R46: bits 7:6 and 31:16 of STATUS read 0. -/
theorem status_toWord_reserved (t : Status) : t.toWord &&& 0xFFFF00C0 = 0 := by
  unfold Status.toWord
  refine or_and_eq_zero ?_ (field_and_eq_zero _ 8 (by decide))
  repeat' apply or_and_eq_zero
  all_goals exact flagAt_and_eq_zero _ (by decide)

/-- R33, R46: bits 31:16 of CURSOR read 0. -/
theorem cursor_toWord_reserved (c : Cursor) : c.toWord &&& 0xFFFF0000 = 0 :=
  or_and_eq_zero (zeroExtend_and_eq_zero _ (by decide)) (field_and_eq_zero _ 8 (by decide))

theorem byte_reserved (b : Byte) : b.zeroExtend 32 &&& (0xFFFFFF00 : Word) = 0 := zeroExtend_and_eq_zero b (by decide)

theorem half_reserved (x : Half) : x.zeroExtend 32 &&& (0xFFFF0000 : Word) = 0 := zeroExtend_and_eq_zero x (by decide)

/-! ## Registers at the host port (R23, R24, R44, R46) -/

/-- While BUSY = 0 a host write of any register but CMD is its store. -/
theorem hostAct_wr_ready {s : State} (hb : s.status.busy = false) {r : Reg} (hr : r ≠ .cmd) (v : Word) :
    s.hostAct (wr r v) = s.writeReg r v := by
  rw [hostAct_wr, hb, if_neg Bool.false_ne_true]
  cases r <;> trivial

/-- A host read of a register that is not drawn answers its value: while BUSY = 0 every one (R23), and while BUSY = 1
those R71 does not list, but STATUS. -/
theorem hostAct_rd_value {s : State} {r : Reg}
    (h : s.status.busy = false ∨ r ≠ .status ∧ regDrawnWhileBusy r = false) :
    s.hostAct (rd r) = s.answer (s.readReg r) := by
  rw [hostAct_rd]
  unfold State.hostReadOf
  split
  · next hb =>
    obtain ⟨hne, hdrawn⟩ := h.resolve_left fun hb' => nomatch hb'.symm.trans hb
    cases r
    case status => exact absurd rfl hne
    all_goals exact if_neg (ne_true_of_eq_false hdrawn)
  · rfl

/-- A host store to a register other than STATUS changes no other register. -/
theorem readReg_writeReg_ne (s : State) {r r' : Reg} (v : Word) (hr : r ≠ .status) (hne : r' ≠ r) :
    (s.writeReg r v).readReg r' = s.readReg r' := by
  cases r
  case status => exact absurd rfl hr
  all_goals cases r' <;> trivial

/-- A host store to a register other than STATUS changes no state but the RW registers. -/
theorem writeReg_frame (s : State) {r : Reg} (v : Word) (hr : r ≠ .status) :
    s.writeReg r v = { s with
      ctrl := (s.writeReg r v).ctrl, inPos := (s.writeReg r v).inPos, inEnd := (s.writeReg r v).inEnd
      outBase := (s.writeReg r v).outBase, outSize := (s.writeReg r v).outSize, encLimit := (s.writeReg r v).encLimit
      vxBase := (s.writeReg r v).vxBase, vxWidth := (s.writeReg r v).vxWidth, vxHeight := (s.writeReg r v).vxHeight
      vxStride := (s.writeReg r v).vxStride, vxLen := (s.writeReg r v).vxLen } := by
  cases r <;> trivial

/-- R23: the RW registers of full width. -/
def fullWidthRwRegs : List Reg :=
  [.inPos, .inEnd, .outBase, .outSize, .encLimit, .vxBase, .vxWidth, .vxHeight, .vxStride, .vxLen]

/-- R23: the RO registers. -/
def roRegs : List Reg :=
  [.id, .result, .progress, .cursor, .key, .checksum, .chkTarget, .seed, .rxCount, .treeNodes, .faultInfo, .bufCapR,
   .inCapR, .nodeCapR, .depthCapR]

/-- R24, R44: the registers that hold constants. -/
def constantRegs : List Reg := [.id, .bufCapR, .inCapR, .nodeCapR, .depthCapR]

theorem readReg_writeReg_same (s : State) (v : Word) : ∀ r ∈ fullWidthRwRegs, (s.writeReg r v).readReg r = v := by
  simp only [fullWidthRwRegs, List.forall_mem_cons]
  exact ⟨rfl, rfl, rfl, rfl, rfl, rfl, rfl, rfl, rfl, rfl, List.forall_mem_nil _⟩

theorem writeReg_ro (s : State) (v : Word) : ∀ r ∈ roRegs, s.writeReg r v = s := by
  simp only [roRegs, List.forall_mem_cons]
  exact ⟨rfl, rfl, rfl, rfl, rfl, rfl, rfl, rfl, rfl, rfl, rfl, rfl, rfl, rfl, rfl, List.forall_mem_nil _⟩

/-- The constant registers look at the parameters alone. -/
theorem readReg_constant {s t : State} (hp : t.par = s.par) : ∀ r ∈ constantRegs, t.readReg r = s.readReg r := by
  simp only [constantRegs, List.forall_mem_cons, State.readReg, hp, true_and]
  exact List.forall_mem_nil _

/-- R48: no step changes the parameters. -/
theorem step_par {s t : State} (h : step s = .next t) : t.par = s.par := by
  rcases step_cases s with ⟨-, -, e⟩ | ⟨-, l, e⟩ | ⟨a, rest, l, -, e⟩ <;> rw [e] at h
  · cases h; rfl
  · exact (exec_ended h).par
  · cases h; exact (hostAct_keeps _ a).par

/-- R5: each capacity fits in its 32-bit register. -/
theorem ofNat_toNat_of_le {n k : Nat} (h : n ≤ k) (hk : k < 2 ^ 32) : (Word.ofNat n).toNat = n := by
  rw [BitVec.toNat_ofNat, Nat.mod_eq_of_lt (Nat.lt_of_le_of_lt h hk)]

/-- Settles O14: the write is the store of `writeReg`, read back by `readReg_writeReg_same` and, of CTRL, by
`ctrl_toWord_ofWord`. -/
theorem rwRegisterReadsLastWrite : Obligations.RwRegisterReadsLastWrite := by
  unfold Obligations.RwRegisterReadsLastWrite
  intro s v hb
  have plain : ∀ r ∈ Reg.ctrl :: fullWidthRwRegs, r ≠ .cmd ∧ r ≠ .status := by decide
  refine ⟨fun r hr => ?_, ?_, fun r' hne => ?_, fun r => hostAct_rd_value (.inl hb), fun r hr => ?_⟩
  · obtain ⟨hcmd, hstatus⟩ := plain r (List.mem_cons_of_mem _ hr)
    rw [hostAct_wr_ready hb hcmd]
    exact ⟨readReg_writeReg_same s v r hr, fun r' => readReg_writeReg_ne s v hstatus⟩
  · rw [hostAct_wr_ready hb (by decide)]
    exact ctrl_toWord_ofWord v
  · rw [hostAct_wr_ready hb (by decide)]
    exact readReg_writeReg_ne s v (by decide) hne
  · obtain ⟨hcmd, hstatus⟩ := plain r hr
    rw [hostAct_wr_ready hb hcmd]
    exact writeReg_frame s v hstatus

/-- Settles O15: the store to an RO register is none (`writeReg_ro`). -/
theorem roRegistersIgnoreWrites : Obligations.RoRegistersIgnoreWrites := by
  unfold Obligations.RoRegistersIgnoreWrites
  intro s v hb
  have notCmd : ∀ r ∈ roRegs, r ≠ .cmd := by decide
  exact ⟨fun r hr => (hostAct_wr_ready hb (notCmd r hr) v).trans (writeReg_ro s v r hr), rfl⟩

/-- R46: no register stands at a reserved offset, so a read there answers 0 and a write there reaches none. -/
theorem reserved_offset_access (s : State) (v : Word) {off : BitVec 8} (h : 0x70 ≤ off.toNat) :
    s.hostAct (.regRead off .word) = s.answer 0 ∧
    s.hostAct (.regWrite off .word v) = if s.status.busy then s.setHaz else s := by
  have hsel : selectReg off .word = none := ofOffset_none off (.inl h)
  constructor
  · simp only [State.hostAct, State.hostRegRead, hsel]
  · simp only [State.hostAct, State.hostRegWrite, hsel]

/-- Settles O16: the reserved offsets by `reserved_offset_access`, the reserved bits register by register; writes of CTRL
and STATUS look at the defined bits alone, and the six other registers are RO. -/
theorem reservedSlotsAndBitsReadZero : Obligations.ReservedSlotsAndBitsReadZero := by
  unfold Obligations.ReservedSlotsAndBitsReadZero
  intro s v
  have isRo : ∀ r ∈ [Reg.result, .cursor, .key, .checksum, .chkTarget, .seed], r ∈ roRegs := by decide
  refine ⟨fun off h _ => reserved_offset_access s v h,
    ⟨ctrl_toWord_reserved _, status_toWord_reserved _, byte_reserved _, cursor_toWord_reserved _, byte_reserved _,
      half_reserved _, half_reserved _, half_reserved _⟩, ?_, ?_, fun hb r hr => ?_⟩
  · simp only [hostAct_wr, State.writeReg, ctrl_ofWord_and_seven]
  · simp only [hostAct_wr, State.writeReg, writeStatus_and_w1c]
  · exact (roRegistersIgnoreWrites s v hb).1 r (isRo r hr)

/-- Settles O17: the constant registers are not drawn while BUSY = 1, and look at parameters that no step changes. -/
theorem idAndCapabilitiesAreConstant : Obligations.IdAndCapabilitiesAreConstant := by
  unfold Obligations.IdAndCapabilitiesAreConstant
  have notDrawn : ∀ r ∈ constantRegs, r ≠ .status ∧ regDrawnWhileBusy r = false := by decide
  refine ⟨fun s => ⟨rfl, fun r hr => hostAct_rd_value (.inr (notDrawn r hr))⟩, fun s hv => ?_, fun s t h =>
    ⟨step_par h, readReg_constant (step_par h)⟩⟩
  simp only [Params.valid, Bool.and_eq_true, decide_eq_true_eq] at hv
  obtain ⟨⟨⟨⟨⟨⟨-, hbuf⟩, -⟩, hin⟩, -⟩, hnode⟩, hdepth⟩ := hv
  exact ⟨ofNat_toNat_of_le hbuf (by decide), ofNat_toNat_of_le hin (by decide), ofNat_toNat_of_le hnode (by decide),
    ofNat_toNat_of_le (hdepth.trans hnode) (by decide)⟩

end Sys2Proof.Machine
end

-- Proofs of family 20_memory.md: which agent a step moves, the memory spaces at the host port, and the lock-out while BUSY = 1
section

namespace Sys2Proof.Machine

/-! ## Accesses of IN and BUF while BUSY = 0 (R64) -/

theorem accessFits_iff (s : State) (sp : Space) (a : Nat) (wid : Width) :
    s.accessFits sp a wid = true ↔ a % widthBytes wid = 0 ∧ a + widthBytes wid ≤ s.spaceCap sp := by
  rw [State.accessFits, Bool.and_eq_true, beq_iff_eq, decide_eq_true_iff]

theorem not_accessFits_iff (s : State) (sp : Space) (a : Nat) (wid : Width) :
    ¬ s.accessFits sp a wid = true ↔ a % widthBytes wid ≠ 0 ∨ s.spaceCap sp < a + widthBytes wid := by
  rw [accessFits_iff, not_and_or, Nat.not_le]

theorem hostAct_memWrite_ready {s : State} (hb : s.status.busy = false) (sp : Space) (a : Nat) (wid : Width) (v : Word) :
    s.hostAct (.memWrite sp a wid v) = if s.accessFits sp a wid then s.storeBytes sp a v (widthBytes wid) else s := by
  rw [State.hostAct, State.hostMemWrite, hb, if_neg Bool.false_ne_true]

theorem hostAct_memRead_ready {s : State} (hb : s.status.busy = false) (sp : Space) (a : Nat) (wid : Width) :
    s.hostAct (.memRead sp a wid) =
      s.answer (if s.accessFits sp a wid then s.readBytes sp a (widthBytes wid) else 0) := by
  rw [State.hostAct, State.hostMemRead, hb, if_neg Bool.false_ne_true]
  split <;> rfl

/-- One byte is always aligned. -/
theorem accessFits_byte {s : State} {sp : Space} {a : Nat} (ha : a < s.spaceCap sp) : s.accessFits sp a .byte = true :=
  (accessFits_iff ..).mpr ⟨Nat.mod_one a, ha⟩

theorem readBytes_one (s : State) (sp : Space) (a : Nat) : s.readBytes sp a 1 = (s.readSpace sp a).zeroExtend 32 := by
  simp [State.readBytes]

/-- `rdb` inside a space answers the byte, zero-extended (R67). -/
theorem hostAct_rdb {s : State} (hb : s.status.busy = false) {sp : Space} {a : Nat} (ha : a < s.spaceCap sp) :
    s.hostAct (rdb sp a) = s.answer ((s.readSpace sp a).zeroExtend 32) := by
  rw [rdb, hostAct_memRead_ready hb, if_pos (accessFits_byte ha)]
  exact congrArg s.answer (readBytes_one s sp a)

theorem extractLsb'_zeroExtend_byte (v : Byte) : (v.zeroExtend 32).extractLsb' 0 8 = v :=
  (BitVec.extractLsb'_setWidth_of_le (by decide)).trans BitVec.extractLsb'_eq_self

/-- `wrb` inside a space is the store of its byte. -/
theorem hostAct_wrb {s : State} (hb : s.status.busy = false) {sp : Space} {a : Nat} (ha : a < s.spaceCap sp) (v : Byte) :
    s.hostAct (wrb sp a v) = s.storeSpace sp a v := by
  rw [wrb, hostAct_memWrite_ready hb, if_pos (accessFits_byte ha)]
  exact congrArg (s.storeSpace sp a) (extractLsb'_zeroExtend_byte v)

/-- Settles O19: a performed write is `storeBytes`, which `storeBytes_frame` and `readSpace_storeBytes` describe; any other
write does nothing. -/
theorem hostMemoryWriteIsLittleEndian : Obligations.HostMemoryWriteIsLittleEndian := by
  unfold Obligations.HostMemoryWriteIsLittleEndian
  intro s sp a wid v hb n cap t
  have ht : t = if s.accessFits sp a wid then s.storeBytes sp a v n else s := hostAct_memWrite_ready hb sp a wid v
  refine ⟨fun ha hcap => ?_, fun hill => ?_⟩
  · rw [ht, if_pos ((accessFits_iff ..).mpr ⟨ha, hcap⟩)]
    exact ⟨storeBytes_frame s sp a v n, fun sp' x => readSpace_storeBytes s sp sp' a x v n⟩
  · rw [ht, if_neg ((not_accessFits_iff ..).mpr hill)]

/-- Settles O20: a performed read answers `readBytes`, byte by byte what `rdb` answers; any other read answers 0. -/
theorem hostMemoryReadIsLittleEndian : Obligations.HostMemoryReadIsLittleEndian := by
  unfold Obligations.HostMemoryReadIsLittleEndian
  intro s sp a wid hb n cap t
  have ht : t = s.answer (if s.accessFits sp a wid then s.readBytes sp a n else 0) := hostAct_memRead_ready hb sp a wid
  have hn : n ≤ 4 := widthBytes_le wid
  refine ⟨by rw [ht]; rfl, fun ha hcap => ?_, fun hill => ?_⟩
  · rw [if_pos ((accessFits_iff ..).mpr ⟨ha, hcap⟩)] at ht
    rw [ht]
    refine ⟨fun i hi => ⟨?_, ?_⟩, readBytes_toNat_lt s sp a hn⟩
    · exact (wordByte_readBytes s sp a hn i).trans (if_pos hi)
    · have hin : a + i < s.spaceCap sp := Nat.lt_of_lt_of_le (Nat.add_lt_add_left hi a) hcap
      rw [hostAct_rdb hb hin]
      rfl
  · rw [ht, if_neg ((not_accessFits_iff ..).mpr hill)]
    rfl

/-! ## Which agent moves (R72, R73, R201, R217) -/

theorem step_idle {s : State} (hb : s.status.busy = false) (hq : s.hostQ = []) : step s = .next s := by
  simp [step, State.nextMove, hq, hb]

/-- While BUSY = 0 a waiting host act is served (R72). -/
theorem step_hostAct_ready {s : State} {a : HostAct} {rest : List HostAct} (hb : s.status.busy = false)
    (hq : s.hostQ = a :: rest) : step s = .next ({ s with hostQ := rest }.hostAct a) := by
  simp [step, State.nextMove, hq, hb]

/-- While BUSY = 1 the engine moves if no host act waits, or if the schedule is empty (log 3). -/
theorem step_engine_unscheduled {s : State} (hb : s.status.busy = true) (h : s.hostQ = [] ∨ s.sched = []) :
    step s = exec s.latch s := by
  cases hq : s.hostQ with
  | nil => simp [step, State.nextMove, hq, hb]
  | cons a rest =>
    have hs : s.sched = [] := h.resolve_left (by simp [hq])
    simp [step, State.nextMove, hq, hb, hs]

theorem step_engine_scheduled {s : State} {a : HostAct} {rest : List HostAct} {later : List Agent}
    (hb : s.status.busy = true) (hq : s.hostQ = a :: rest) (hs : s.sched = .engine :: later) :
    step s = exec s.latch { s with sched := later } := by
  simp [step, State.nextMove, hq, hb, hs]

theorem step_host_scheduled {s : State} {a : HostAct} {rest : List HostAct} {later : List Agent}
    (hb : s.status.busy = true) (hq : s.hostQ = a :: rest) (hs : s.sched = .host :: later) :
    step s = .next ({ s with hostQ := rest, sched := later }.hostAct a) := by
  simp [step, State.nextMove, hq, hb, hs]

/-- Settles O4, one lemma per branch of the schedule. -/
theorem stepRunsLatchedCommandOrHostAct : Obligations.StepRunsLatchedCommandOrHostAct := fun _ =>
  ⟨step_idle, fun _ _ => step_hostAct_ready, step_engine_unscheduled, fun _ _ _ => step_engine_scheduled,
    fun _ _ _ => step_host_scheduled⟩

/-- A CMD write of a valid word to a ready block is its acceptance (R200, R201). -/
theorem hostAct_wr_cmd_accepted {s : State} {w : Word} {i : Instr} (hb : s.status.busy = false)
    (he : s.status.err = false) (hd : decode w = .ok i) : s.hostAct (wr .cmd w) = s.accept i := by
  simp [hostAct_wr, State.cmdWrite, hb, he, hd]

/-- Settles O5: the first step serves the write, which is accepted; the second is the engine's, as no host act waits. -/
theorem cmdWriteThenStepExecutesIt : Obligations.CmdWriteThenStepExecutesIt := by
  unfold Obligations.CmdWriteThenStepExecutesIt
  intro s w i hb he hq hd
  have hserve : step s = .next (State.accept { s with hostQ := [] } i) := by
    rw [step_hostAct_ready hb hq]
    exact congrArg _ (hostAct_wr_cmd_accepted hb he hd)
  exact ⟨_, hserve, rfl, step_engine_unscheduled rfl (.inl rfl)⟩

/-! ## REG accesses that reach no register (R61) -/

theorem selectReg_of_illFormed {off : BitVec 8} {wid : Width} (h : wid ≠ .word ∨ off.toNat % 4 ≠ 0) :
    selectReg off wid = none := by
  cases wid with
  | word => exact ofOffset_none off (.inr (h.resolve_left (absurd rfl)))
  | byte => rfl
  | half => rfl

/-- Settles O18: an ill-formed access selects no register. -/
theorem illFormedRegAccessIsIgnored : Obligations.IllFormedRegAccessIsIgnored := by
  unfold Obligations.IllFormedRegAccessIsIgnored
  intro s off wid v hb hill
  have hsel := selectReg_of_illFormed hill
  constructor
  · simp only [State.hostAct, State.hostRegWrite, hsel, hb, if_neg Bool.false_ne_true]
  · simp only [State.hostAct, State.hostRegRead, hsel, State.answer]

/-! ## The lock-out while BUSY = 1 (R71) -/

section Busy
variable {s : State} (hb : s.status.busy = true)
include hb

theorem hostAct_regWrite_busy (off : BitVec 8) (wid : Width) (v : Word) : s.hostAct (.regWrite off wid v) = s.setHaz :=
  if_pos hb

theorem hostAct_memWrite_busy (sp : Space) (a : Nat) (wid : Width) (v : Word) :
    s.hostAct (.memWrite sp a wid v) = s.setHaz :=
  if_pos hb

theorem hostAct_memRead_busy (sp : Space) (a : Nat) (wid : Width) :
    s.hostAct (.memRead sp a wid) = s.setHaz.answerDraw (fun v => v &&& widthMask wid) :=
  if_pos hb

theorem hostAct_rd_status_busy : s.hostAct (rd .status) = s.answerDraw s.status.busyWord :=
  (hostAct_rd s .status).trans (if_pos hb)

/-- IN_POS and the engine-written registers answer a free value. -/
theorem hostAct_rd_drawn {r : Reg} (hr : regDrawnWhileBusy r = true) : s.hostAct (rd r) = s.answerDraw id := by
  rw [hostAct_rd]
  refine (if_pos hb).trans ?_
  cases r
  case status => cases hr
  all_goals exact if_pos hr

end Busy

theorem flagAt_getLsbD_eq (b : Bool) {pos : Nat} (hp : pos < 32) (j : Nat) :
    (flagAt b pos).getLsbD j = (b && decide (j = pos)) := by
  cases b
  · exact BitVec.getLsbD_zero
  · show (1#32 <<< pos).getLsbD j = _
    rw [← BitVec.twoPow_eq, BitVec.getLsbD_twoPow]
    simp [hp, eq_comm]

/-- The bits of what STATUS reads while BUSY = 1. -/
theorem busyWord_getLsbD (t : Status) (free : Word) (j : Nat) :
    (t.busyWord free).getLsbD j = (decide (j = 0) || (t.haz && decide (j = 3)) || (free.getLsbD 4 && decide (j = 4)) ||
      (free.getLsbD 5 && decide (j = 5))) := by
  simp only [Status.busyWord, BitVec.getLsbD_or, flagAt_getLsbD_eq, Nat.reduceLT, Bool.true_and]

theorem busyWord_high (t : Status) (free : Word) : (t.busyWord free).extractLsb' 6 26 = 0 := by
  apply BitVec.eq_of_getLsbD_eq
  intro j _
  have above : ∀ k ≤ 5, 6 + j ≠ k := by omega
  simp [BitVec.getLsbD_extractLsb', busyWord_getLsbD, above]

/-- Settles O21, access by access: writes and memory reads set HAZ, STATUS answers `busyWord`, and every other register
either its value or a draw. -/
theorem busyLocksOutHostAccesses : Obligations.BusyLocksOutHostAccesses := by
  unfold Obligations.BusyLocksOutHostAccesses
  intro s hb
  refine ⟨hostAct_regWrite_busy hb, hostAct_memWrite_busy hb, hostAct_memRead_busy hb,
    ⟨s.status.busyWord (Config.freeWord s.draws), hostAct_rd_status_busy hb, ?_⟩,
    fun r _ => hostAct_rd_value (.inr (by revert r; decide)), fun r _ => hostAct_rd_drawn hb (by revert r; decide)⟩
  simp only [busyWord_getLsbD, busyWord_high]
  simp

/-! ## Storage after reset (R241, R242) -/

theorem readIn_assertReset (s : State) (a : Nat) : s.assertReset.readIn a = Config.unwrittenIn (s.epoch + 1) a := rfl

theorem readBuf_assertReset (s : State) (a : Nat) : s.assertReset.readBuf a = Config.unwrittenBuf (s.epoch + 1) a := rfl

/-- Settles O24: reset leaves no byte written, and a `wrb` of BUF is one store. -/
theorem resetForgetsStorage : Obligations.ResetForgetsStorage := by
  unfold Obligations.ResetForgetsStorage
  intro s a v t
  refine ⟨⟨readIn_assertReset s a, readBuf_assertReset s a⟩, fun ha => ?_⟩
  have hstore : t.hostAct (wrb .bufSpace a v) = t.storeBuf a v := hostAct_wrb rfl ha v
  rw [hstore]
  refine ⟨?_, fun a' hne => ?_⟩
  · rw [readBuf_storeBuf, if_pos rfl]
  · rw [readBuf_storeBuf, if_neg hne]
    exact readBuf_assertReset s a'

end Sys2Proof.Machine
end

-- Proofs of family 30_encoding.md: the words of the commands, what each command may write, and the wait pseudo-operation
section

namespace Sys2Proof.Machine

/-! ## The words of the commands (R90 to R92) -/

/-- Every command's word is a valid one (R91), and its OPC field is the opcode. -/
theorem encode_rsv (i : Instr) : Laws.Rsv.Statement i := by
  cases i with
  | brInit => exact Laws.Rsv.brInit
  | brReadBit => exact Laws.Rsv.brReadBit
  | brReadByte => exact Laws.Rsv.brReadByte
  | htLoad => exact Laws.Rsv.htLoad
  | htDecode => exact Laws.Rsv.htDecode
  | htDecodeN => exact Laws.Rsv.htDecodeN
  | htDiscard => exact Laws.Rsv.htDiscard
  | htBlock => exact Laws.Rsv.htBlock
  | vxDecode => exact Laws.Rsv.vxDecode
  | vxChunks => exact Laws.Rsv.vxChunks
  | rxFixed => exact Laws.Rsv.rxFixed
  | rxChecksum => exact Laws.Rsv.rxChecksum

theorem decode_encode (i : Instr) : decode (encode i) = .ok i := by cases i <;> rfl

/-- R92: in every row the mask is the full word and the pattern is the word of its command. -/
theorem opcodeTable_row : ∀ r ∈ opcodeTable, r.mask = BitVec.allOnes 32 ∧ r.pattern = encode r.instr := by decide

/-- A word decodes to a command only if the table matches it. -/
theorem find_of_decode {w : Word} {i : Instr} (h : decode w = .ok i) :
    ∃ r, opcodeTable.find? (fun r => (w &&& r.mask) == r.pattern) = some r ∧ r.instr = i := by
  unfold decode at h
  split at h
  · next r hr => exact ⟨r, hr, Except.ok.inj h⟩
  · split at h <;> cases h

/-- R91, R92: each command has exactly one word. -/
theorem decode_eq_ok_iff {w : Word} {i : Instr} : decode w = .ok i ↔ w = encode i := by
  refine ⟨fun h => ?_, fun h => h ▸ decode_encode i⟩
  obtain ⟨r, hr, rfl⟩ := find_of_decode h
  obtain ⟨hmask, hpattern⟩ := opcodeTable_row r (List.mem_of_find?_eq_some hr)
  have hmatch : w &&& r.mask = r.pattern := by simpa using List.find?_some hr
  rwa [hmask, hpattern, BitVec.and_allOnes] at hmatch

/-- R90: a word whose reserved bits are 0 is its OPC field, zero-extended. -/
theorem eq_zeroExtend_of_reserved_zero {w : Word} (h : w.extractLsb' 8 24 = 0) : w = (w.extractLsb' 0 8).zeroExtend 32 := by
  apply BitVec.eq_of_toNat_eq
  have hhigh : w.toNat >>> 8 % 2 ^ 24 = 0 := by rw [← BitVec.extractLsb'_toNat, h]; rfl
  have hw := w.isLt
  rw [BitVec.toNat_setWidth, BitVec.extractLsb'_toNat, Nat.shiftRight_zero]
  rw [Nat.shiftRight_eq_div_pow] at hhigh
  omega

/-- R92: the twelve opcodes are those of the commands. -/
theorem mem_validOpcodes_iff {b : Byte} : b ∈ validOpcodes ↔ ∃ i : Instr, i.opcode = b := by
  constructor
  · intro h
    have htable : validOpcodes = opcodeTable.map (fun r => r.instr.opcode) := by decide
    rw [htable] at h
    obtain ⟨r, -, hr⟩ := List.mem_map.mp h
    exact ⟨r.instr, hr⟩
  · rintro ⟨i, rfl⟩
    cases i <;> decide

/-- R91: a word is some command's exactly if its reserved bits are 0 and its OPC field is one of the twelve opcodes. -/
theorem exists_eq_encode_iff {w : Word} :
    (∃ i, w = encode i) ↔ w.extractLsb' 8 24 = 0 ∧ w.extractLsb' 0 8 ∈ validOpcodes := by
  constructor
  · rintro ⟨i, rfl⟩
    obtain ⟨hrsv, hopc, -, -⟩ := encode_rsv i
    exact ⟨hrsv, mem_validOpcodes_iff.mpr ⟨i, hopc.symm⟩⟩
  · rintro ⟨hrsv, hopc⟩
    obtain ⟨i, hi⟩ := mem_validOpcodes_iff.mp hopc
    exact ⟨i, (eq_zeroExtend_of_reserved_zero hrsv).trans (congrArg _ hi.symm)⟩

/-- A CMD write of an invalid word to a ready block records it (R202). -/
theorem hostAct_wr_cmd_invalid {s : State} {w : Word} (hb : s.status.busy = false) (he : s.status.err = false)
    (hd : ∀ i, decode w ≠ .ok i) : s.hostAct (wr .cmd w) = s.badCmd w := by
  rw [hostAct_wr, hb, if_neg Bool.false_ne_true]
  show s.cmdWrite w = s.badCmd w
  rw [State.cmdWrite, hb, he, if_neg Bool.false_ne_true, if_neg Bool.false_ne_true]
  split
  · next i hi => exact absurd hi (hd i)
  · rfl

/-- Settles O2: a word decodes exactly if it is some command's (`decode_eq_ok_iff`, `exists_eq_encode_iff`), and any other
is recorded as BAD_CMD. -/
theorem wordsDecodeIffValid : Obligations.WordsDecodeIffValid := by
  unfold Obligations.WordsDecodeIffValid
  refine ⟨fun w => ?_, fun _ _ => decode_eq_ok_iff, fun s w hb he hd => ?_⟩
  · simp only [decode_eq_ok_iff]
    exact exists_eq_encode_iff
  · rw [hostAct_wr_cmd_invalid hb he hd]
    exact ⟨rfl, rfl, rfl⟩

/-! ## What each command may write (R93, R204, R205) -/

/-- STATUS as `t` has it, but for the fields of `s` that neither completion nor fault entry writes: HAZ, TREE_VALID and
RX_STOP. -/
def endedStatus (s t : State) : Status :=
  { t.status with haz := s.status.haz, treeValid := s.status.treeValid, rxStop := s.status.rxStop }

/-- Completion (R204) and fault entry (R205) write BUSY, DONE, ERR, CAUSE and FAULT_INFO alone. -/
theorem Eng.Post.finish_frame {α : Type} {x : Eng α} {Q : State → Prop} {R : Cause → Word → State → Prop} {t : State}
    (hx : x.Post Q R) (h : x.finish = .next t) :
    ∃ u, Q u ∧ t = { u with status := endedStatus u t, faultInfo := t.faultInfo } := by
  rcases hx.finish h with ⟨u, hu, rfl⟩ | ⟨c, v, u, hu, -, rfl⟩ <;> exact ⟨u, hu, rfl⟩

/-! One lemma per class of rules: its part of R93's written column, with what the end of the command adds. -/

section Finish
variable {α : Type} {x : Eng α} {R : Cause → Word → State → Prop} {s t : State} (h : x.finish = .next t)
include h

theorem Takes.finish_frame (hx : x.Post (Takes s) R) :
    t = { s with
      status := endedStatus s t, faultInfo := t.faultInfo, cursor := t.cursor, inPos := t.inPos, result := t.result } := by
  obtain ⟨u, hu, ht⟩ := hx.finish_frame h
  rw [ht, hu.frame]; rfl

theorem Emits.finish_frame {i n : Nat} (hx : x.Post (Emits i n s) R) :
    t = { s with
      status := endedStatus s t, faultInfo := t.faultInfo, cursor := t.cursor, inPos := t.inPos, bufMem := t.bufMem
      progress := t.progress } := by
  obtain ⟨u, hu, ht⟩ := hx.finish_frame h
  rw [ht, hu.frame]; rfl

theorem BlockEnds.finish_frame (hx : x.Post (BlockEnds s) R) :
    t = { s with
      status := { endedStatus s t with treeValid := t.status.treeValid }, faultInfo := t.faultInfo, cursor := t.cursor
      inPos := t.inPos, arena := t.arena, treeNodes := t.treeNodes, bufMem := t.bufMem, progress := t.progress } := by
  obtain ⟨u, hu, ht⟩ := hx.finish_frame h
  rw [ht, hu.frame]; rfl

theorem VxEnds.finish_frame {P : Nat → Prop} (hx : x.Post (VxEnds P s) R) :
    t = { s with
      status := endedStatus s t, faultInfo := t.faultInfo, bufMem := t.bufMem, progress := t.progress } := by
  obtain ⟨u, hu, ht⟩ := hx.finish_frame h
  rw [ht, hu.frame]; rfl

theorem RxEnds.finish_frame (hx : x.Post (RxEnds s) R) :
    t = { s with
      status := { endedStatus s t with rxStop := t.status.rxStop }, faultInfo := t.faultInfo, inPos := t.inPos
      seed := t.seed, key := t.key, checksum := t.checksum, chkTarget := t.chkTarget, rxCount := t.rxCount
      bufMem := t.bufMem, progress := t.progress } := by
  obtain ⟨u, hu, ht⟩ := hx.finish_frame h
  rw [ht, hu.frame]; rfl

end Finish

/-- HT_LOAD's row of R93. -/
theorem execHtLoad_frame {s t : State} (h : execHtLoad s = .next t) :
    t = { s with
      status := { endedStatus s t with treeValid := t.status.treeValid }, faultInfo := t.faultInfo, cursor := t.cursor
      inPos := t.inPos, arena := t.arena, treeNodes := t.treeNodes } := by
  obtain ⟨u, ⟨hu, -⟩, ht⟩ := (loadTree_post s).finish_frame h
  rw [ht, hu]; rfl

/-- Settles O29: what the rule of each command writes (`…_post`), and what completion and fault entry add. -/
theorem commandsWriteOnlyTheirOwnState : Obligations.CommandsWriteOnlyTheirOwnState := by
  unfold Obligations.CommandsWriteOnlyTheirOwnState
  intro s t i he
  cases i with
  | brInit => cases he; rfl
  | brReadBit => exact Takes.finish_frame he (brReadBit_post s)
  | brReadByte => exact Takes.finish_frame he (brReadByte_post s)
  | htLoad => exact execHtLoad_frame he
  | htDecode => exact Takes.finish_frame he (htDecode_post s)
  | htDecodeN => exact Emits.finish_frame he (htDecodeN_post s)
  | htDiscard => cases he; rfl
  | htBlock => exact BlockEnds.finish_frame he (htBlock_post s)
  | vxDecode => exact VxEnds.finish_frame he (vxDecode_post s)
  | vxChunks => exact VxEnds.finish_frame he (vxChunks_post s)
  | rxFixed => exact RxEnds.finish_frame he (rx_post .fixed s)
  | rxChecksum => exact RxEnds.finish_frame he (rx_post .checksum s)

/-! ## Commands as bytes (R65, R90, R95) -/

/-- Byte `i` of a word, back in its place, holds the word's bits `8 i` to `8 i + 7` (R64). -/
theorem wordByte_shiftLeft_getLsbD (w : Word) (i : Nat) {j : Nat} (hj : j < 32) :
    ((wordByte w i).zeroExtend 32 <<< (8 * i)).getLsbD j = (decide (j / 8 = i) && w.getLsbD j) := by
  obtain hlow | ⟨k, rfl⟩ : j < 8 * i ∨ ∃ k, j = 8 * i + k := (Nat.lt_or_ge j (8 * i)).imp_right Nat.exists_eq_add_of_le
  · have hne : j / 8 ≠ i := by omega
    simp [hlow, hne]
  · have hiff : (8 * i + k) / 8 = i ↔ k < 8 := by omega
    simp [wordByte, BitVec.getLsbD_extractLsb', hj, hiff]

/-- The four bytes of a word, lowest address first, are the word again (R65). -/
theorem wordOfBytes_wordByte (w : Word) : wordOfBytes (wordByte w 0) (wordByte w 1) (wordByte w 2) (wordByte w 3) = w := by
  apply BitVec.eq_of_getLsbD_eq
  intro j hj
  have h0 := wordByte_shiftLeft_getLsbD w 0 hj
  rw [Nat.mul_zero, BitVec.shiftLeft_zero] at h0
  have hbyte : j / 8 = 0 ∨ j / 8 = 1 ∨ j / 8 = 2 ∨ j / 8 = 3 := by omega
  simp only [wordOfBytes, BitVec.getLsbD_or, h0, wordByte_shiftLeft_getLsbD w 1 hj, wordByte_shiftLeft_getLsbD w 2 hj,
    wordByte_shiftLeft_getLsbD w 3 hj]
  rcases hbyte with h | h | h | h <;> simp [h]

/-- The byte decoder reads the word whose bytes come first, and leaves the rest. -/
theorem decodeBytes_wordBytes (w : Word) (rest : List Byte) :
    decodeBytes (wordByte w 0 :: wordByte w 1 :: wordByte w 2 :: wordByte w 3 :: rest) =
      (decode w).map fun i => (i, rest) := by
  rw [decodeBytes, wordOfBytes_wordByte]
  cases decode w <;> rfl

/-- Settles O1: the four bytes are those of the command's word, which decodes to the command. -/
theorem encodedBytesDecodeBack : Obligations.EncodedBytesDecodeBack := by
  unfold Obligations.EncodedBytesDecodeBack
  refine fun i rest => ⟨rfl, (decodeBytes_wordBytes (encode i) rest).trans ?_⟩
  rw [decode_encode]
  rfl

/-- Settles O3: eight words are those of their commands, and no row of the table matches the other three. -/
theorem opcodeWordsAsTabled : Obligations.OpcodeWordsAsTabled :=
  ⟨decode_encode .brInit, decode_encode .brReadByte, decode_encode .htLoad, decode_encode .htBlock,
    decode_encode .vxDecode, decode_encode .vxChunks, decode_encode .rxFixed, decode_encode .rxChecksum, rfl, rfl, rfl⟩

/-! ## The wait pseudo-operation (R96) -/

/-- R71: while BUSY = 1 bit 0 of STATUS reads 1, whatever the draw is. -/
theorem busyWord_busy (t : Status) (free : Word) : (t.busyWord free).getLsbD 0 = true := by
  rw [busyWord_getLsbD]; rfl

/-- R26: bit 0 of STATUS is BUSY. -/
theorem status_toWord_busy (t : Status) : t.toWord.getLsbD 0 = t.busy := by
  simp only [Status.toWord, BitVec.getLsbD_or, flagAt_getLsbD_eq, Nat.reduceLT]
  simp

/-- Settles O22: BUSY decides between the two forms of the act, and bit 0 of what the read of STATUS answers shows it. -/
theorem waitEndsOnlyWhenIdle : Obligations.WaitEndsOnlyWhenIdle := by
  unfold Obligations.WaitEndsOnlyWhenIdle
  refine fun s => ⟨fun hb => ?_, fun hb => ?_⟩
  · have hwait : s.hostAct .waitIdle = { s.hostAct (rd .status) with hostQ := .waitIdle :: s.hostQ } := by
      rw [hostAct_rd]; exact if_pos hb
    refine ⟨hwait, ?_⟩
    rw [hwait, hostAct_rd_status_busy hb]
    exact busyWord_busy s.status _
  · have hwait : s.hostAct .waitIdle = s.hostAct (rd .status) := by
      rw [hostAct_rd]; exact if_neg (ne_true_of_eq_false hb)
    refine ⟨hwait, ?_⟩
    rw [hwait, hostAct_rd_value (.inl hb)]
    exact (status_toWord_busy s.status).trans hb

end Sys2Proof.Machine
end

-- Proofs of family 40_bitreader.md: the bit reader's commands, runs of bit reads, and the RX commands at the end of the input
section

namespace Sys2Proof.Machine

/-! ## The bit reader's commands (R114 to R116) -/

theorem exec_brReadBit (s : State) :
    exec .brReadBit s = ((readBit s).bind fun b t => .ok () (t.setResult (if b then 1 else 0))).finish := rfl

theorem exec_brReadByte (s : State) : exec .brReadByte s = ((readByte s).bind fun v t => .ok () (t.setResult v)).finish :=
  rfl

/-- Settles O32: BR_INIT's rule is one cursor write (R114). -/
theorem brInitClearsCursor : Obligations.BrInitClearsCursor := ⟨decode_encode .brInit, fun _ => rfl⟩

/-- Settles O33: the three ways a ReadBit ends, each followed by completion or fault entry. -/
theorem brReadBitTakesNextBit : Obligations.BrReadBitTakesNextBit := by
  unfold Obligations.BrReadBitTakesNextBit
  refine ⟨decode_encode .brReadBit, fun s => ⟨fun hm => ?_, fun hm hp => ?_, fun hm hp => ?_⟩⟩
  · rw [exec_brReadBit, readBit_held hm, Eng.ok_bind, Eng.finish_ok]
    by_cases hbit : s.cursor.byte &&& s.cursor.mask = 0
    · simp only [hbit, bne_self_eq_false, Bool.false_eq_true, if_false, if_true]; rfl
    · simp only [hbit, bne_iff_ne, ne_eq, not_false_eq_true, if_false, if_true]; rfl
  · rw [exec_brReadBit, readBit_refill hm hp]; rfl
  · rw [exec_brReadBit, readBit_eos hm hp]; rfl

/-! ## Eight bits as a byte (R66, R113) -/

theorem shiftIn_getLsbD_zero (v : Byte) (b : Bool) : (shiftIn v b).getLsbD 0 = b := by cases b <;> simp [shiftIn]

theorem shiftIn_getLsbD_succ (v : Byte) (b : Bool) {i : Nat} (hi : i + 1 < 8) :
    (shiftIn v b).getLsbD (i + 1) = v.getLsbD i := by
  have hb : (if b then 1 else 0 : Byte).getLsbD (i + 1) = false := by cases b <;> simp
  rw [shiftIn, BitVec.getLsbD_or, hb, Bool.or_false, BitVec.getLsbD_shiftLeft]
  simp [hi]

/-- Bits shifted in stand in reverse order, the last as bit 0, and the value's own bits above them. -/
theorem foldl_shiftIn_getLsbD (v : Byte) (bs : List Bool) {i : Nat} (hi : i < 8) :
    (bs.foldl shiftIn v).getLsbD i = bs.reverse[i]?.getD (v.getLsbD (i - bs.length)) := by
  induction bs using List.reverseRecOn generalizing i with
  | nil => rfl
  | append_singleton bs b ih =>
    rw [List.foldl_append, List.reverse_append, List.length_append]
    cases i with
    | zero => exact shiftIn_getLsbD_zero _ b
    | succ i =>
      refine (shiftIn_getLsbD_succ _ b hi).trans ((ih (Nat.lt_of_succ_lt hi)).trans ?_)
      rw [List.length_singleton, Nat.add_sub_add_right]; rfl

/-- Bit `i` of eight bits' byte is bit 7 − i of the list (R113). -/
theorem byteOfBits_getLsbD {bs : List Bool} (hl : bs.length = 8) {i : Nat} (hi : i < 8) :
    some ((byteOfBits bs).getLsbD i) = bs[7 - i]? := by
  rw [byteOfBits, foldl_shiftIn_getLsbD 0 bs hi, List.getElem?_reverse (by omega), hl,
    List.getElem?_eq_getElem (by omega)]
  rfl

/-- The last `k` bits of a byte, then the first 8 − k of the next (R116). -/
theorem byteOfBits_spanning {k : Nat} (hk : k ≤ 8) (c b : Byte) :
    byteOfBits ((byteBits c).drop (8 - k) ++ (byteBits b).take (8 - k)) = (c <<< (8 - k)) ||| (b >>> k) := by
  have hc : ((byteBits c).drop (8 - k)).length = k := by rw [List.length_drop, byteBits_length]; omega
  have hb : ((byteBits b).take (8 - k)).length = 8 - k := by rw [List.length_take, byteBits_length]; omega
  refine BitVec.eq_of_getLsbD_eq fun i hi => Option.some.inj ?_
  rw [byteOfBits_getLsbD (by rw [List.length_append, hc, hb]; omega) hi, BitVec.getLsbD_or, BitVec.getLsbD_shiftLeft,
    BitVec.getLsbD_ushiftRight]
  by_cases hik : 7 - i < k
  · have hhigh : b.getLsbD (k + i) = false := BitVec.getLsbD_of_ge _ _ (by omega)
    have hnot : ¬i < 8 - k := by omega
    rw [List.getElem?_append_left (by omega), List.getElem?_drop, byteBits_getElem? c _ (by omega),
      show 7 - (8 - k + (7 - i)) = i - (8 - k) by omega, hhigh]
    simp [hi, hnot]
  · have hlow : i < 8 - k := by omega
    rw [List.getElem?_append_right (by omega), hc, List.getElem?_take_of_lt (by omega),
      byteBits_getElem? b _ (by omega), show 7 - (7 - i - k) = k + i by omega]
    simp [hlow]

/-! ## ReadByte from every cursor (R116) -/

/-- The mask of `k` bits left, 0 for none (R33). -/
theorem maskOfLeft {k : Nat} (hk : k ≤ 8) :
    (0x80 : Byte) >>> (8 - k) ∈ legalMasks ∧ maskLeft ((0x80 : Byte) >>> (8 - k)) = k := by
  revert k; decide

/-- Taking the first 8 − k bits of a byte leaves the mask of its last `k`. -/
theorem maskOfLeft_fetched {k : Nat} (hk : k < 8) :
    (if (8 - k) % 8 = 0 then 0 else (0x80 : Byte) >>> ((8 - k) % 8)) = (0x80 : Byte) >>> (8 - k) := by revert k; decide

theorem maskLeft_lt {m : Byte} (h : m ∈ legalMasks) (hm : m ≠ 0x80) : maskLeft m < 8 := by revert m; decide

/-- A whole byte in the cursor is the byte read, with no fetch. -/
theorem readByte_whole {s : State} (hm : s.cursor.mask = 0x80) :
    readByte s = .ok s.cursor.byte (s.setCursor ⟨s.cursor.byte, 0⟩) := by
  have hbits : s.pendingBits = byteBits s.cursor.byte ++ (s.streamBytes s.inPos.toNat).flatMap byteBits := by
    rw [State.pendingBits, cursorBits, hm]; rfl
  have hafter : s.afterBits 8 = s.setCursor ⟨s.cursor.byte, 0⟩ := by
    rw [State.afterBits, hm]; rfl
  rw [readByte_pending (by rw [hm]; decide) (byteBits_length _) hbits, byteOfBits_byteBits, hafter]

/-- With `k` bits left, fewer than eight, one byte is fetched and its first 8 − k bits complete the byte read. -/
theorem readByte_spanning {s : State} {k : Nat} (hk : k < 8) (hm : s.cursor.mask = (0x80 : Byte) >>> (8 - k))
    (hp : s.inPos.toNat < s.eosLimit) :
    readByte s = .ok ((s.cursor.byte <<< (8 - k)) ||| (s.readIn s.inPos.toNat >>> k))
      (s.advanceIn.setCursor ⟨s.readIn s.inPos.toNat, (0x80 : Byte) >>> (8 - k)⟩) := by
  obtain ⟨hlegal, hleft⟩ := maskOfLeft (Nat.le_of_lt hk)
  rw [← hm] at hlegal hleft
  have hbits : s.pendingBits =
      ((byteBits s.cursor.byte).drop (8 - k) ++ (byteBits (s.readIn s.inPos.toNat)).take (8 - k)) ++
        ((byteBits (s.readIn s.inPos.toNat)).drop (8 - k) ++ (s.streamBytes (s.inPos.toNat + 1)).flatMap byteBits) := by
    rw [State.pendingBits, cursorBits, hleft, streamBytes_cons hp, List.flatMap_cons, List.append_assoc,
      ← List.append_assoc (List.take _ _), List.take_append_drop]
  have hlen : ((byteBits s.cursor.byte).drop (8 - k) ++
      (byteBits (s.readIn s.inPos.toNat)).take (8 - k)).length = 8 := by
    rw [List.length_append, List.length_drop, List.length_take, byteBits_length, byteBits_length]; omega
  have hafter : s.afterBits 8 = s.advanceIn.setCursor ⟨s.readIn s.inPos.toNat, (0x80 : Byte) >>> (8 - k)⟩ := by
    have hbytes : (8 - k + 7) / 8 = 1 := by omega
    simp only [State.afterBits, hleft]
    rw [if_neg (by omega), maskOfLeft_fetched hk, hbytes, Nat.add_sub_cancel]; rfl
  rw [readByte_pending hlegal hlen hbits, byteOfBits_spanning (Nat.le_of_lt hk), hafter]

/-- At the end of the input the bits left are taken, and EOS is raised. -/
theorem readByte_eos {s : State} (h : s.cursor.mask ∈ legalMasks) (hm : s.cursor.mask ≠ 0x80)
    (hp : s.eosLimit ≤ s.inPos.toNat) : readByte s = .raise .eos s.inPos (s.setCursor ⟨s.cursor.byte, 0⟩) := by
  have hlen : s.pendingBits.length = maskLeft s.cursor.mask := by
    rw [pendingBits_length h, Nat.sub_eq_zero_of_le hp]; rfl
  have hafter : s.afterBits (maskLeft s.cursor.mask) = s.setCursor ⟨s.cursor.byte, 0⟩ := by
    simp only [State.afterBits, Nat.le_refl, if_true, legalMask_shift_left h]
  rw [readByte, readBits_short h (by rw [hlen]; exact maskLeft_lt h hm), hlen, hafter]
  rfl

/-- Settles O34: ReadByte from a whole, an exhausted and a partly consumed cursor byte, and at the end of the input. -/
theorem brReadByteAssemblesEightBits : Obligations.BrReadByteAssemblesEightBits := by
  unfold Obligations.BrReadByteAssemblesEightBits
  refine ⟨decode_encode .brReadByte, fun s => ⟨fun hm => ?_, fun hm hp => ?_, fun k _ hk hm hp => ?_, fun h hm hp => ?_⟩⟩
  · rw [exec_brReadByte, readByte_whole hm]; rfl
  · have hspan := readByte_spanning (k := 0) (by decide) hm hp
    have hbyte : (s.cursor.byte <<< 8) ||| (s.readIn s.inPos.toNat >>> 0) = s.readIn s.inPos.toNat := by
      rw [BitVec.shiftLeft_eq_zero (Nat.le_refl 8), BitVec.ushiftRight_zero, BitVec.zero_or]
    rw [exec_brReadByte, hspan, Nat.sub_zero, hbyte]; rfl
  · rw [exec_brReadByte, readByte_spanning (by omega) hm hp]; rfl
  · rw [exec_brReadByte, readByte_eos h hm hp]; rfl

/-! ## Runs of bit reads (R117) -/

theorem exec_brReadBit_pending {s : State} (h : s.cursor.mask ∈ legalMasks) {b : Bool} {rest : List Bool}
    (hb : s.pendingBits = b :: rest) :
    exec .brReadBit s = .next ((s.afterBits 1).setResult (if b then 1 else 0)).complete := by
  rw [exec_brReadBit, (readBit_pending h hb).1]; rfl

/-- RESULT and STATUS do not matter to the bits taken. -/
theorem afterBits_setResult_complete (s : State) (v : Byte) (n : Nat) :
    (s.setResult v).complete.afterBits n = ((s.afterBits n).setResult v).complete := by
  simp only [State.afterBits, setResult_cursor, complete_cursor]
  by_cases hn : n ≤ maskLeft s.cursor.mask
  · simp only [hn, if_true]; rfl
  · simp only [hn, if_false]; rfl

/-- A run of BR_READ_BITs over pending bits returns them one by one and leaves the cursor and IN_POS of the closed form. -/
theorem brReadBit_run {bs rest : List Bool} {σ : Nat → State} (h : (σ 0).cursor.mask ∈ legalMasks)
    (hb : (σ 0).pendingBits = bs ++ rest) (hrun : ∀ k, k < bs.length → exec .brReadBit (σ k) = .next (σ (k + 1))) :
    (∀ k b, bs[k]? = some b → (σ (k + 1)).result = if b then 1 else 0) ∧
    (σ bs.length).inPos = ((σ 0).afterBits bs.length).inPos ∧
    (σ bs.length).cursor = ((σ 0).afterBits bs.length).cursor := by
  induction bs generalizing σ with
  | nil => rw [List.length_nil, afterBits_zero]; exact ⟨nofun, rfl, rfl⟩
  | cons b bs ih =>
    have hfirst : (((σ 0).afterBits 1).setResult (if b then 1 else 0)).complete = σ 1 :=
      Host.Outcome.next.inj ((exec_brReadBit_pending h hb).symm.trans (hrun 0 (Nat.succ_pos _)))
    have hrest : (σ 1).pendingBits = bs ++ rest := by
      rw [← hfirst]; exact (readBit_pending h hb).2
    obtain ⟨hres, hpos, hcur⟩ := ih (σ := fun k => σ (k + 1)) (by rw [← hfirst]; exact afterBits_mask_legal h 1) hrest
      fun k hk => hrun (k + 1) (Nat.succ_lt_succ hk)
    have hafter : (σ 1).afterBits bs.length =
        (((σ 0).afterBits (bs.length + 1)).setResult (if b then 1 else 0)).complete := by
      rw [← hfirst, afterBits_setResult_complete, afterBits_one_add h (by rw [hb]; exact List.cons_ne_nil _ _)]
    rw [hafter] at hpos hcur
    refine ⟨fun k b' hk => ?_, hpos, hcur⟩
    cases k with
    | zero => cases hk; rw [← hfirst]; rfl
    | succ k => exact hres k b' hk

/-- From an exhausted cursor `n` bits take ⌈n/8⌉ bytes (R117). -/
theorem afterBits_of_exhausted {s : State} (h : s.cursor.mask = 0) (n : Nat) :
    (s.afterBits n).inPos = s.inPos + Word.ofNat ((n + 7) / 8) ∧
    (s.afterBits n).cursor.mask = if n % 8 = 0 then 0 else (0x80 : Byte) >>> (n % 8) := by
  cases n with
  | zero => rw [afterBits_zero]; exact ⟨(addWord_zero _).symm, h⟩
  | succ n =>
    simp only [State.afterBits, maskLeft_eq_zero.mpr h]
    exact ⟨rfl, rfl⟩

/-- Settles O35: the first `n` pending bits of an exhausted cursor are those of the bytes at IN_POS. -/
theorem bitReadsConsumeBytesMsbFirst : Obligations.BitReadsConsumeBytesMsbFirst := by
  unfold Obligations.BitReadsConsumeBytesMsbFirst
  intro n σ hrun hm hfit p
  have hlegal : (σ 0).cursor.mask ∈ legalMasks := by rw [hm]; decide
  have hbits : (σ 0).pendingBits = ((σ 0).streamBytes p).flatMap byteBits := by
    rw [State.pendingBits, cursorBits_zero hm, List.nil_append]
  have hlen : ((σ 0).pendingBits.take n).length = n := by
    rw [List.length_take, pendingBits_length hlegal]; omega
  obtain ⟨hres, hpos, hcur⟩ := brReadBit_run hlegal (List.take_append_drop n _).symm fun k hk => hrun k (by omega)
  obtain ⟨hpos', hmask'⟩ := afterBits_of_exhausted hm n
  rw [hlen] at hpos hcur
  refine ⟨fun k hk => hres k _ ?_, ?_, hcur ▸ hmask'⟩
  · rw [List.getElem?_take_of_lt hk, hbits]
    exact streamBits_getElem? (σ 0) k p (by omega)
  · rw [hpos, hpos']
    exact add_ofNat_toNat (Nat.lt_of_le_of_lt hfit (eosLimit_lt _))

/-! ## The RX commands at the end of the input (R180 to R182) -/

/-- The command of each termination mode (R181, R182). -/
def RxMode.command : RxMode → Instr
  | .fixed => .rxFixed
  | .checksum => .rxChecksum

theorem exec_rx (mode : RxMode) (s : State) :
    exec mode.command s = ((checkOut s).bind fun _ t => rxCore mode t).finish := by cases mode <;> rfl

theorem exec_rx_fits (mode : RxMode) {s : State} (h : s.outFits) : exec mode.command s = (rxCore mode s).finish := by
  rw [exec_rx, checkOut, if_pos h]; rfl

/-- RxCore without both seed bytes raises EOS at the effective end, or where IN_POS stood beyond it. -/
theorem rxCore_noSeeds_eos (mode : RxMode) {s : State} (h : s.eosLimit < s.inPos.toNat + 2) :
    ∃ v : Word, v.toNat = max s.inPos.toNat s.eosLimit ∧ rxCore mode s = .raise .eos v { s.rxStart with inPos := v } := by
  rw [rxCore_noSeeds mode h]
  split
  · exact ⟨s.inPos, by omega, rfl⟩
  · have hpos : s.inPos.toNat < s.eosLimit := by omega
    exact ⟨s.inPos + 1, (advanceIn_inPos_toNat hpos).trans (by omega), rfl⟩

/-- RxCore with `m` data bytes, too few, outputs them and raises EOS; how many it deciphers is determined. -/
theorem rxCore_data_eos {mode : RxMode} {s : State} {m k : Nat} {stop : Bool} (hm : s.inPos.toNat + 2 + m = s.eosLimit)
    (hlt : m < s.outSize.toNat) (hd : RxDecodes mode s (min s.rxLimit m) k stop) :
    rxCore mode s = .raise .eos (s.inPos + 2 + Word.ofNat m)
      { s.rxResult k m with status := { s.status with rxStop := stop } } := by
  obtain ⟨k', stop', hd', -, heos⟩ := rxCore_total mode (s := s) (by omega)
  rw [show s.eosLimit - (s.inPos.toNat + 2) = m by omega] at hd'
  obtain ⟨rfl, rfl⟩ := hd.unique hd'
  exact heos m hm hlt

/-- The three ways the cipher phase of an RX command ends, each the one its mode allows (R180, R184). -/
theorem rxDecodes_of_cases {s : State} {i : Instr} {most k : Nat} {stop : Bool}
    (h : (i = .rxFixed ∧ k = most ∧ stop = false) ∨
      (i = .rxChecksum ∧ k = most ∧ stop = false ∧ ∀ j, 1 ≤ j → j ≤ k → ¬s.rxMatches j) ∨
      (i = .rxChecksum ∧ 1 ≤ k ∧ k ≤ most ∧ stop = true ∧ s.rxMatches k ∧ ∀ j, 1 ≤ j → j < k → ¬s.rxMatches j)) :
    ∃ mode : RxMode, i = mode.command ∧ RxDecodes mode s most k stop := by
  obtain ⟨rfl, rfl, rfl⟩ | ⟨rfl, rfl, rfl, hno⟩ | ⟨rfl, h1, hk, rfl, hmatch, hno⟩ := h
  · exact ⟨.fixed, rfl, Nat.le_refl _, nofun, fun _ => rfl, nofun⟩
  · exact ⟨.checksum, rfl, Nat.le_refl _, nofun, fun _ => rfl, fun _ j hj hjk => hno j hj (by omega)⟩
  · exact ⟨.checksum, rfl, hk, fun _ => ⟨rfl, h1, hmatch⟩, nofun, fun _ j hj hjk => hno j hj (hjk.resolve_right nofun)⟩

/-- With no byte to decipher the cipher does not stop. -/
theorem RxDecodes.not_stopped {mode : RxMode} {s : State} {k : Nat} {stop : Bool} (h : RxDecodes mode s 0 k stop) :
    stop = false := by
  cases stop with
  | false => rfl
  | true =>
    obtain ⟨-, h1, -⟩ := h.stopped rfl
    exact absurd h1 (by have := h.le; omega)

/-- Settles O53: RxCore raises EOS before the seeds are read, or after the data bytes there are. -/
theorem rxRaisesEosAtTheEnd : Obligations.RxRaisesEosAtTheEnd := by
  unfold Obligations.RxRaisesEosAtTheEnd
  intro s i k stop hout hend p k0 m most hcases
  obtain ⟨mode, rfl, hd⟩ := rxDecodes_of_cases hcases
  by_cases hseeds : p + 2 ≤ s.eosLimit
  · have hm : p + 2 + m = s.eosLimit := by omega
    have hkm : k ≤ m := hd.le.trans (Nat.min_le_right _ _)
    have hpos : (s.inPos + 2 + Word.ofNat m).toNat = p + 2 + m := by
      have h2 : (s.inPos + 2).toNat = p + 2 := rxSeeded_inPos_toNat hseeds
      have hlt := eosLimit_lt s
      rw [add_ofNat_toNat (by omega), h2]
    have hmax : p + 2 + m = max p s.eosLimit := by omega
    refine ⟨_, by rw [exec_rx_fits mode hout, rxCore_data_eos hm (by omega) hd]; rfl, hpos.trans hmax, rfl, rfl,
      fun h => absurd h (by omega), fun _ => ⟨rfl, fun j hj => ?_, fun j hj hjm => ?_, fun a ha => ?_⟩⟩
    · exact rxResult_readBuf_plain s hkm hj
    · exact rxResult_readBuf_raw s hj hjm
    · exact rxResult_readBuf_outside s hkm ha
  · obtain ⟨v, hv, hraise⟩ := rxCore_noSeeds_eos mode (s := s) (by omega)
    have hmost : most = 0 := by omega
    obtain rfl : stop = false := (hmost ▸ hd).not_stopped
    exact ⟨_, by rw [exec_rx_fits mode hout, hraise]; rfl, hv, rfl, rfl, fun _ => rfl, fun h => absurd h hseeds⟩

end Sys2Proof.Machine
end

-- Proofs of family 41_huffman.md: loading trees, decoding symbols, and HT_BLOCK as the sequence of the other commands
section

namespace Sys2Proof.Machine

/-! ## The rules of the commands, once their static checks have passed (R141 to R145) -/

theorem checkTree_valid {s : State} (hv : s.status.treeValid = true) : checkTree s = .ok () s := if_pos hv

theorem exec_htLoad (s : State) : exec .htLoad s = (loadTree s).finish := rfl

theorem exec_htDecode_noTree {s : State} (hv : s.status.treeValid = false) :
    exec .htDecode s = .next (s.takeFault .noTree 0) := by
  show ((checkTree s).bind _).finish = _
  rw [checkTree, if_neg (by rw [hv]; decide)]
  rfl

theorem exec_htDecode {s : State} (hv : s.status.treeValid = true) :
    exec .htDecode s = ((decodeSym s).bind fun v t => .ok () (t.setResult v)).finish := by
  show ((checkTree s).bind _).finish = _
  rw [checkTree_valid hv, Eng.ok_bind]

theorem exec_htDecodeN {s : State} (hv : s.status.treeValid = true) (hf : s.outFits) :
    exec .htDecodeN s = (decodeLoop s.outSize.toNat 0 s).finish := by
  show ((checkTree s).bind _).finish = _
  rw [checkTree_valid hv, Eng.ok_bind, checkOut, if_pos hf, Eng.ok_bind]

theorem exec_htDiscard (s : State) : exec .htDiscard s = .next s.dropTree.complete := rfl

theorem exec_htBlock {s : State} (hf : s.outFits) :
    exec .htBlock s = ((loadTree (s.setCursor ⟨0, 0⟩)).bind fun _ t =>
      (decodeLoop t.outSize.toNat 0 t).bind fun _ u => .ok () u.dropTree).finish := by
  show ((checkOut s).bind _).finish = _
  rw [checkOut, if_pos hf, Eng.ok_bind]

/-- Settles O44: HT_DISCARD's rule drops the tree, whatever the arena holds (R144). -/
theorem htDiscardDropsTheTree : Obligations.HtDiscardDropsTheTree :=
  ⟨decode_encode .htDiscard, fun s => ⟨_, exec_htDiscard s, rfl⟩⟩

/-! ## HT_LOAD (R131, R134, R141) -/

/-- Settles O36: the load phase on a serialized tree (`loadTree_serial`), and the counts of R134. -/
theorem htLoadBuildsSerializedTree : Obligations.HtLoadBuildsSerializedTree := by
  unfold Obligations.HtLoadBuildsSerializedTree
  intro s T bs rest hpar hmask hser hbits hdepth hsize
  have hnodes := T.size_eq
  have hlen := hser.length
  refine ⟨by omega, by omega, by omega, ?_, afterBits_pendingBits hmask hbits⟩
  rw [exec_htLoad, loadTree_serial hser hmask hbits hdepth hsize (valid_nodeCap_lt hpar), Eng.finish_ok]
  rfl

/-- Settles O37: the two ends of the load phase on any stream (`loadTree_total`), each followed by completion or fault
entry. -/
theorem htLoadLoadsOrFaults : Obligations.HtLoadLoadsOrFaults := by
  unfold Obligations.HtLoadLoadsOrFaults
  intro s h
  rw [exec_htLoad]
  obtain ⟨T, bs, rest, hser, hbits, hdepth, hsize, hload⟩ | ⟨m, a, k, c, v, hm, hlen, -, hfault, hload⟩ :=
    loadTree_total h.mask h.legal.nodeCap_lt <;> rw [hload]
  · exact ⟨_, rfl, .inl ⟨rfl, rfl, rfl, T, bs, hser,
      hbits.trans (congrArg (bs ++ ·) (afterBits_pendingBits h.mask hbits).symm), rfl, hdepth, hsize⟩⟩
  · refine ⟨_, rfl, .inr ⟨rfl, rfl, rfl, hlen, m, hm, rfl, rfl, ?_⟩⟩
    obtain ⟨rfl, hv, -, hall⟩ | ⟨rfl, hv, hfull⟩ | ⟨rfl, hv⟩ := hfault
    · exact .inl ⟨rfl, hall, hv⟩
    · exact .inr (.inl ⟨rfl, hfull, hv⟩)
    · exact .inr (.inr ⟨rfl, hv⟩)

/-- A fault that Deser takes `k` zero bits later, `k` levels deeper and with `k` more entries Pending, is its fault: each
zero bit opens an Internal node whose left subtree comes next (R131). -/
theorem deser_zeros_raise {k levels d : Nat} {s t : State} {rest : List Bool} {c : Cause} {v : Word}
    (h : s.cursor.mask ∈ legalMasks) (hbits : s.pendingBits = List.replicate k false ++ rest)
    (hfit : s.treeNodes.toNat + k ≤ s.par.nodeCap) (hbig : s.par.nodeCap < 2 ^ 32)
    (hdeep : deser levels (d + k)
      ((s.afterBits k).withTree (s.arena ++ List.replicate k .pending) (s.treeNodes + Word.ofNat k)) = .raise c v t) :
    deser (levels + k) d s = .raise c v t := by
  induction k generalizing d s with
  | zero => simpa [afterBits_zero, addWord_zero, withTree_self] using hdeep
  | succ k ih =>
    rw [List.replicate_succ, List.cons_append] at hbits
    obtain ⟨hread, hrest⟩ := readBit_pending h hbits
    have hone : (s.treeNodes + 1).toNat = s.treeNodes.toNat + 1 := add_ofNat_toNat (n := 1) (by omega)
    have hnext : deser (levels + k) (d + 1)
        ((s.afterBits 1).withTree (s.arena ++ [.pending]) (s.treeNodes + 1)) = .raise c v t := by
      refine ih (afterBits_mask_legal h 1) hrest ?_ ?_ ?_
      · rw [withTree_treeNodes, hone, withTree_par, afterBits_par]; omega
      · rwa [withTree_par, afterBits_par]
      · rw [afterBits_withTree, afterBits_one_add h (by rw [hbits]; simp), withTree_withTree, withTree_arena,
          withTree_treeNodes, List.append_assoc, List.singleton_append, ← List.replicate_succ, BitVec.add_assoc,
          show (1 : Word) + Word.ofNat k = Word.ofNat (k + 1) by
            rw [Word.ofNat, Word.ofNat, BitVec.ofNat_add, BitVec.add_comm]; rfl,
          show d + 1 + k = d + (k + 1) by omega]
        exact hdeep
    rw [← Nat.add_assoc, deser, hread, Eng.ok_bind]
    simp only [afterBits_treeNodes, afterBits_par, allocNode_eq, afterBits_arena]
    rw [if_neg (by omega), if_neg Bool.false_ne_true, hnext, Eng.raise_bind]
/-- Deser with no entry left takes the bit of the node it has no entry for (R131). -/
theorem deser_full {levels d : Nat} {s : State} {b : Bool} {rest : List Bool} (h : s.cursor.mask ∈ legalMasks)
    (hbits : s.pendingBits = b :: rest) (hfull : s.treeNodes.toNat = s.par.nodeCap) :
    deser (levels + 1) d s = .raise .treeOverflow (Word.ofNat s.par.nodeCap) (s.afterBits 1) := by
  rw [deser, (readBit_pending h hbits).1, Eng.ok_bind]
  simp only [afterBits_treeNodes, afterBits_par]
  rw [if_pos hfull]

/-- The state after `n` bits of a load that has opened `k` nodes and closed none. -/
def State.opened (s : State) (n k : Nat) : State :=
  (s.dropTree.afterBits n).withTree (List.replicate k .pending) (Word.ofNat k)

theorem opened_treeValid (s : State) (n k : Nat) : (s.opened n k).status.treeValid = false :=
  congrArg Status.treeValid (afterBits_status s.dropTree n)

/-- The load phase faults where Deser does, `k` zero bits into the stream. -/
theorem loadTree_zeros_raise {k levels : Nat} {s t : State} {rest : List Bool} {c : Cause} {v : Word}
    (h : s.cursor.mask ∈ legalMasks) (hbits : s.pendingBits = List.replicate k false ++ rest)
    (hlevels : s.par.depthCap + 1 = levels + k) (hfit : k ≤ s.par.nodeCap) (hbig : s.par.nodeCap < 2 ^ 32)
    (hdeep : deser levels k (s.opened k k) = .raise c v t) : loadTree s = .raise c v t := by
  have hroot : deser (levels + k) 0 s.dropTree = .raise c v t := by
    refine deser_zeros_raise h hbits ?_ hbig ?_
    · rw [dropTree_treeNodes]; exact (Nat.zero_add k).symm ▸ hfit
    · rw [dropTree_arena, dropTree_treeNodes, List.nil_append, zero_add, zero_add]
      exact hdeep
  rw [loadTree, deserRoot, dropTree_par, hlevels, hroot, Eng.raise_bind]

/-- DEPTH_CAP + 1 zero bits, each with an entry: the next node would be too deep. -/
theorem loadTree_zeros_tooDeep {s : State} {rest : List Bool} (h : s.cursor.mask ∈ legalMasks)
    (hbits : s.pendingBits = List.replicate (s.par.depthCap + 1) false ++ rest) (hbig : s.par.nodeCap < 2 ^ 32)
    (hlt : s.par.depthCap < s.par.nodeCap) :
    loadTree s = .raise .depthOverflow (Word.ofNat (s.par.depthCap + 1))
      (s.opened (s.par.depthCap + 1) (s.par.depthCap + 1)) :=
  loadTree_zeros_raise h hbits (Nat.zero_add _).symm hlt hbig rfl

/-- The last of DEPTH_CAP + 1 zero bits has no entry when NODE_CAP = DEPTH_CAP. -/
theorem loadTree_zeros_noEntry {s : State} {rest : List Bool} (h : s.cursor.mask ∈ legalMasks)
    (hbits : s.pendingBits = List.replicate (s.par.depthCap + 1) false ++ rest) (hbig : s.par.nodeCap < 2 ^ 32)
    (heq : s.par.depthCap = s.par.nodeCap) :
    loadTree s = .raise .treeOverflow (Word.ofNat s.par.nodeCap) (s.opened (s.par.depthCap + 1) s.par.nodeCap) := by
  rw [heq, List.replicate_succ', List.append_assoc, List.singleton_append] at hbits
  refine loadTree_zeros_raise (levels := 1) h hbits (by omega) (Nat.le_refl _) hbig ?_
  have hrest := afterBits_pendingBits (s := s.dropTree) h hbits
  rw [List.length_replicate] at hrest
  have hadd := afterBits_add (s := s.dropTree) (n := s.par.nodeCap) h
    (by rw [show s.dropTree.pendingBits = s.pendingBits from rfl, hbits]; simp) 1
  rw [deser_full (s := s.opened s.par.nodeCap s.par.nodeCap) (afterBits_mask_legal (s := s.dropTree) h _) hrest, heq,
    State.opened, afterBits_withTree, hadd, withTree_par, afterBits_par]
  · rfl
  · rw [State.opened, withTree_treeNodes, withTree_par, afterBits_par, dropTree_par, ofNat_toNat_of_le (Nat.le_refl _) hbig]

/-- Settles O38: the guard that a run of zero bits meets first depends on which of the two capacities is smaller. -/
theorem zeroRunOverflowsAtTheGuards : Obligations.ZeroRunOverflowsAtTheGuards := by
  unfold Obligations.ZeroRunOverflowsAtTheGuards
  intro s rest hpar hmask hbits
  have hbig := valid_nodeCap_lt hpar
  have hle : s.par.depthCap ≤ s.par.nodeCap := by
    simp only [Params.valid, Bool.and_eq_true, decide_eq_true_eq] at hpar; omega
  have hrest := afterBits_pendingBits (s := s.dropTree) hmask hbits
  rw [List.length_replicate] at hrest
  rw [exec_htLoad]
  rcases Nat.lt_or_eq_of_le hle with hlt | heq
  · rw [loadTree_zeros_tooDeep hmask hbits hbig hlt]
    exact ⟨_, rfl, rfl, opened_treeValid s _ _, hrest, fun _ => ⟨rfl, rfl, rfl⟩, fun heq => absurd heq (Nat.ne_of_lt hlt)⟩
  · rw [loadTree_zeros_noEntry hmask hbits hbig heq]
    exact ⟨_, rfl, rfl, opened_treeValid s _ _, hrest, fun hlt => absurd heq (Nat.ne_of_lt hlt), fun _ => ⟨rfl, rfl, rfl⟩⟩

/-! ## Codes (R133) -/

/-- Two codes of a tree that start the same bits are the same code, of the same leaf. -/
theorem CodeTree.Code.unique {T : CodeTree} {c c' : List Bool} {v v' : Byte} (h : CodeTree.Code T c v)
    (h' : CodeTree.Code T c' v') {bs : List Bool} (hc : c <+: bs) (hc' : c' <+: bs) : c' = c ∧ v' = v := by
  induction h generalizing c' bs with
  | leaf v => cases h'; exact ⟨rfl, rfl⟩
  | left _ ih =>
    obtain ⟨rest, rfl⟩ := hc
    cases h' with
    | left h' =>
      obtain ⟨rfl, rfl⟩ := ih h' (List.prefix_append _ rest) (List.cons_prefix_cons.mp hc').2
      exact ⟨rfl, rfl⟩
    | right h' => exact absurd (List.cons_prefix_cons.mp hc').1 (by decide)
  | right _ ih =>
    obtain ⟨rest, rfl⟩ := hc
    cases h' with
    | left h' => exact absurd (List.cons_prefix_cons.mp hc').1 (by decide)
    | right h' =>
      obtain ⟨rfl, rfl⟩ := ih h' (List.prefix_append _ rest) (List.cons_prefix_cons.mp hc').2
      exact ⟨rfl, rfl⟩

/-- A list is a prefix of the first `n` values of `f` exactly if it holds the first values of `f`, at most `n`. -/
theorem prefix_range_map_iff {f : Nat → Bool} {c : List Bool} {n : Nat} :
    c <+: (List.range n).map f ↔ c.length ≤ n ∧ c = (List.range c.length).map f := by
  rw [List.prefix_iff_eq_take, ← List.map_take, List.take_range]
  constructor
  · intro h
    have hl := congrArg List.length h
    rw [List.length_map, List.length_range] at hl
    have hle : c.length ≤ n := by omega
    exact ⟨hle, by rwa [Nat.min_eq_left hle] at h⟩
  · rintro ⟨hle, h⟩
    rwa [Nat.min_eq_left hle]

/-- Settles O39: the first bits of the string, as many as the tree is deep, start with a code (`code_total`), and with no
other. -/
theorem codesFormCompletePrefixCode : Obligations.CodesFormCompletePrefixCode := by
  unfold Obligations.CodesFormCompletePrefixCode
  intro T f
  obtain ⟨c, v, rest, hcode, hbits⟩ | ⟨hshort, -⟩ := code_total T ((List.range T.depth).map f)
  · have hpre : c <+: (List.range T.depth).map f := ⟨rest, hbits.symm⟩
    refine ⟨c, v, hcode, (prefix_range_map_iff.mp hpre).2, hcode.length_le_depth, fun c' v' hcode' hc' => ?_⟩
    exact hcode.unique hcode' hpre (prefix_range_map_iff.mpr ⟨hcode'.length_le_depth, hc'⟩)
  · rw [List.length_map, List.length_range] at hshort
    exact absurd hshort (Nat.lt_irrefl _)

/-! ## HT_DECODE (R132, R142) -/

/-- Settles O40: DecodeSym on a code (`decodeSym_code`) and inside one (`decodeSym_short`). -/
theorem htDecodeReturnsTheCodesLeaf : Obligations.HtDecodeReturnsTheCodesLeaf := by
  unfold Obligations.HtDecodeReturnsTheCodesLeaf
  refine ⟨decode_encode .htDecode, fun s => ⟨exec_htDecode_noTree, fun T hvalid harena hnodes hmask => ?_⟩⟩
  have hT : Loaded s T := ⟨harena, hnodes⟩
  rw [exec_htDecode hvalid]
  refine ⟨fun c v rest hcode hbits => ⟨?_, afterBits_pendingBits hmask hbits⟩, fun c v b ext hcode hbits => ?_⟩
  · rw [decodeSym_code hmask hT hcode hbits, Eng.ok_bind, Eng.finish_ok, ← afterBits_status s c.length]
    rfl
  · rw [decodeSym_short hmask hT hcode (List.cons_ne_nil b ext) hbits, ← afterBits_status s s.pendingBits.length]
    exact ⟨_, rfl, rfl, afterBits_all_eos hmask⟩

/-- Settles O41: a walk cannot run out of bits, since a tree is less deep than it has nodes. -/
theorem htDecodeCompletesOnEnoughBits : Obligations.HtDecodeCompletesOnEnoughBits := by
  unfold Obligations.HtDecodeCompletesOnEnoughBits
  intro s h hvalid henough
  obtain ⟨T, hT, -⟩ := Loaded.of_treeLegal h.tree hvalid
  rw [exec_htDecode hvalid]
  obtain ⟨c, v, rest, -, -, hsym⟩ | ⟨hshort, -⟩ := decodeSym_total h.mask hT
  · rw [hsym, ← afterBits_status s c.length]
    exact ⟨_, rfl, rfl⟩
  · have hdepth := T.depth_lt_size
    have hnodes := hT.nodes
    omega
/-! ## HT_DECODE_N (R143) -/

theorem afterBits_readBuf (s : State) (n a : Nat) : (s.afterBits n).readBuf a = s.readBuf a := by
  rw [afterBits_frame]; rfl

theorem stored_progress (s : State) (vs : List Byte) :
    (s.stored 0 vs).progress = if vs = [] then s.progress else Word.ofNat vs.length := by
  rw [State.stored, Nat.zero_add]

/-- PROGRESS once the whole output range is stored. -/
theorem stored_progress_full {s : State} {vs : List Byte} (h : vs.length = s.outSize.toNat) :
    (s.stored 0 vs).progress = if s.outSize = 0 then s.progress else s.outSize := by
  have hempty : vs = [] ↔ s.outSize = 0 := by
    rw [← List.length_eq_zero_iff, h, BitVec.toNat_eq]
    rfl
  rw [stored_progress, if_congr hempty rfl rfl, h, Word.ofNat, BitVec.ofNat_toNat, BitVec.setWidth_eq]

/-- BUF after bits are taken and symbols stored from the start of the output range. -/
theorem afterBits_stored_readBuf (s : State) (n : Nat) (vs : List Byte) (a : Nat) :
    ((s.afterBits n).stored 0 vs).readBuf a =
      if s.outBase.toNat ≤ a then vs.getD (a - s.outBase.toNat) (s.readBuf a) else s.readBuf a := by
  rw [stored_readBuf, afterBits_outBase, afterBits_readBuf]

/-- Settles O42: the data phase on the codes of all symbols (`decodeLoop_codes`). -/
theorem htDecodeNStoresTheSymbols : Obligations.HtDecodeNStoresTheSymbols := by
  unfold Obligations.HtDecodeNStoresTheSymbols
  intro s T bs rest vs hvalid harena hnodes hmask hfit hcodes hlen hbits
  have hprogress := stored_progress_full (s := s.afterBits bs.length) (vs := vs) (by rw [hlen, afterBits_outSize])
  rw [afterBits_outSize, afterBits_progress] at hprogress
  rw [exec_htDecodeN hvalid hfit, ← hlen, decodeLoop_codes hcodes hmask ⟨harena, hnodes⟩ hbits 0, ← hprogress,
    ← afterBits_status s bs.length]
  exact ⟨_, rfl, rfl, afterBits_stored_readBuf s _ vs, afterBits_pendingBits hmask hbits⟩

/-- Settles O43: the data phase when the bits end inside a code (`decodeLoop_short`). -/
theorem htDecodeNStoresSymbolsBeforeEos : Obligations.HtDecodeNStoresSymbolsBeforeEos := by
  unfold Obligations.HtDecodeNStoresSymbolsBeforeEos
  rintro s T bs tail vs hvalid harena hnodes hmask hfit hcodes hlen hbits ⟨c, v, b, ext, hcode, hc⟩
  have hprogress := stored_progress (s.afterBits s.pendingBits.length) vs
  rw [afterBits_progress] at hprogress
  rw [exec_htDecodeN hvalid hfit, decodeLoop_short hcodes hmask ⟨harena, hnodes⟩ hbits hcode (List.cons_ne_nil b ext) hc 0 _
    hlen, ← hprogress, ← afterBits_status s s.pendingBits.length]
  exact ⟨_, rfl, rfl, afterBits_stored_readBuf s _ vs⟩

/-! ## HT_BLOCK on a packed stream (R145 to R147) -/

/-- TREE_VALID = 1, with the arena and TREE_NODES of a tree. -/
def State.withLoaded (s : State) (T : CodeTree) : State := (s.withTree (T.layout 0) (Word.ofNat T.size)).validateTree

@[simp] theorem withLoaded_outSize (s : State) (T : CodeTree) : (s.withLoaded T).outSize = s.outSize := rfl

theorem loaded_withLoaded (s : State) {T : CodeTree} (h : T.size < 2 ^ 32) : Loaded (s.withLoaded T) T :=
  ⟨rfl, ofNat_toNat_of_le (Nat.le_refl _) h⟩

/-- TREE_VALID and the tree registers do not matter to the bits taken. -/
theorem afterBits_withLoaded (s : State) (T : CodeTree) (n : Nat) :
    (s.withLoaded T).afterBits n = (s.afterBits n).withLoaded T := by
  by_cases h : n ≤ maskLeft s.cursor.mask <;>
    simp only [State.withLoaded, State.afterBits, validateTree_cursor, withTree_cursor, h, if_true, if_false] <;> rfl

/-- The load phase on bits that start with a serialized tree which fits. -/
theorem loadTree_serial_withLoaded {s : State} {T : CodeTree} {bs rest : List Bool} (hser : CodeTree.Serial T bs)
    (h : s.cursor.mask ∈ legalMasks) (hbits : s.pendingBits = bs ++ rest) (hdepth : T.depth ≤ s.par.depthCap)
    (hsize : T.size ≤ s.par.nodeCap) (hbig : s.par.nodeCap < 2 ^ 32) :
    loadTree s = .ok () ((s.afterBits bs.length).withLoaded T) := by
  rw [loadTree_serial hser h hbits hdepth hsize hbig, ← afterBits_status s bs.length]
  rfl

/-- HT_BLOCK on bits that start with a serialized tree which fits and the codes of OUT_SIZE symbols. -/
theorem exec_htBlock_stream {s : State} {T : CodeTree} {ts cs rest : List Bool} {vs : List Byte}
    (hfit : s.outFits) (hbig : s.par.nodeCap < 2 ^ 32) (hdepth : T.depth ≤ s.par.depthCap) (hsize : T.size ≤ s.par.nodeCap)
    (hser : CodeTree.Serial T ts) (hcodes : CodeTree.Codes T cs vs) (hlen : vs.length = s.outSize.toNat)
    (hbits : (s.setCursor ⟨0, 0⟩).pendingBits = ts ++ (cs ++ rest)) :
    exec .htBlock s =
      .next (((s.setCursor ⟨0, 0⟩).afterBits (ts ++ cs).length).stored 0 vs).dropTree.complete := by
  have hmask : (s.setCursor ⟨0, 0⟩).cursor.mask ∈ legalMasks := zero_mem_legalMasks
  rw [exec_htBlock hfit, loadTree_serial_withLoaded hser hmask hbits hdepth hsize hbig, Eng.ok_bind, withLoaded_outSize,
    afterBits_outSize, setCursor_outSize, ← hlen,
    decodeLoop_codes (rest := rest) hcodes (s := ((s.setCursor ⟨0, 0⟩).afterBits ts.length).withLoaded T)
      (afterBits_mask_legal hmask _) (loaded_withLoaded _ (Nat.lt_of_le_of_lt hsize hbig))
      (afterBits_pendingBits hmask hbits),
    Eng.ok_bind, Eng.finish_ok, afterBits_withLoaded, afterBits_add hmask (by rw [hbits]; simp), List.length_append]
  rfl

/-- From an exhausted cursor, bits taken leave the cursor in the last byte they reach into (R117). -/
theorem afterBits_exhausted_pos {s : State} (h : s.cursor.mask = 0) {n : Nat} (hn : 0 < n) :
    s.afterBits n = { s with
      inPos := s.inPos + Word.ofNat ((n + 7) / 8)
      cursor := ⟨s.readIn (s.inPos.toNat + (n + 7) / 8 - 1), if n % 8 = 0 then 0 else (0x80 : Byte) >>> (n % 8)⟩ } := by
  simp only [State.afterBits, maskLeft_eq_zero.mpr h, Nat.sub_zero, if_neg (Nat.not_le_of_lt hn)]

/-- Settles O45: the packed bits are the bits to come once the cursor is exhausted, and they start with the tree and the
codes. -/
theorem htBlockDecodesThePackedStream : Obligations.HtBlockDecodesThePackedStream := by
  unfold Obligations.HtBlockDecodesThePackedStream
  intro s T ts cs vs hpar hfit hdepth hsize hser hcodes hlen hholds bits
  have hserLength := hser.length
  have hleaves := T.size_eq
  have hcount : (ts ++ cs).length = bits := by rw [List.length_append]; omega
  have hpos : 0 < bits := by omega
  obtain ⟨rest, hrest⟩ := streamHolds_prefix hholds
  have hbits : (s.setCursor ⟨0, 0⟩).pendingBits = ts ++ (cs ++ rest) := by
    rw [State.pendingBits, cursorBits_zero rfl, List.nil_append, ← List.append_assoc]
    exact hrest
  have hprogress := stored_progress_full (s := (s.setCursor ⟨0, 0⟩).afterBits bits) (vs := vs)
    (by rw [hlen, afterBits_outSize]; rfl)
  rw [afterBits_outSize, afterBits_progress, setCursor_outSize, setCursor_progress] at hprogress
  have hbuf := afterBits_stored_readBuf (s.setCursor ⟨0, 0⟩) bits vs
  rw [exec_htBlock_stream hfit (valid_nodeCap_lt hpar) hdepth hsize hser hcodes hlen hbits, hcount, ← hprogress]
  rw [afterBits_exhausted_pos (s := s.setCursor ⟨0, 0⟩) rfl hpos] at hbuf ⊢
  exact ⟨_, rfl, rfl, add_ofNat_toNat (hcount ▸ Nat.lt_of_le_of_lt hholds.1 (eosLimit_lt s)), hbuf⟩

/-! ## HT_BLOCK as the sequence of the other commands (R49, R145) -/

/-- The load phase does the same after another command's completion. -/
theorem loadTree_complete (s : State) : loadTree s.complete = (loadTree s).mapStatus Status.completed := by
  show (deser (s.par.depthCap + 1) 0 (s.dropTree.mapStatus Status.completed)).bind _ = _
  rw [deser_mapStatus]
  exact Eng.mapStatus_bind _ _ _ _ fun _ _ => rfl

/-- The end of a command hides whether BUSY and DONE stood as at a completion before it. -/
theorem Eng.finish_mapStatus_completed {α : Type} (x : Eng α) : (x.mapStatus Status.completed).finish = x.finish := by
  cases x <;> rfl

theorem exec_htLoad_complete (s : State) : exec .htLoad s.complete = (loadTree s).finish := by
  rw [exec_htLoad, loadTree_complete, Eng.finish_mapStatus_completed]

theorem exec_htDecodeN_complete {s : State} (hv : s.status.treeValid = true) (hf : s.outFits) :
    exec .htDecodeN s.complete = (decodeLoop s.outSize.toNat 0 s).finish := by
  rw [exec_htDecodeN (s := s.complete) hv hf]
  exact (congrArg Eng.finish (decodeLoop_mapStatus Status.completed _ 0 s)).trans (Eng.finish_mapStatus_completed _)

/-- Settles O46: each phase of HT_BLOCK ends as the command that is this phase alone does, and the first fault ends both. -/
theorem htBlockIsThePrimitiveSequence : Obligations.HtBlockIsThePrimitiveSequence := by
  unfold Obligations.HtBlockIsThePrimitiveSequence
  intro s s1 s2 herr hfit hinit hload
  obtain rfl : (s.setCursor ⟨0, 0⟩).complete = s1 := Host.Outcome.next.inj hinit
  rw [exec_htLoad_complete] at hload
  have hpost := loadTree_post (s.setCursor ⟨0, 0⟩)
  rw [exec_htBlock hfit]
  obtain ⟨_, u, hok, rfl⟩ | ⟨c, v, u, hraise, rfl⟩ := Eng.finish_eq_next hload
  · rw [hok] at hpost
    obtain ⟨hframe, -⟩ := hpost
    have herru : u.status.err = false := by rw [hframe]; exact herr
    have hfitu : u.outFits := by rw [State.outFits, hframe]; exact hfit
    have hvalid := loadTree_ok_valid hok
    rw [hok, Eng.ok_bind]
    refine ⟨fun h => absurd h (by rw [complete_status, herru]; decide), fun s3 _ hdecode => ?_⟩
    rw [exec_htDecodeN_complete hvalid hfitu] at hdecode
    have hloop := decodeLoop_post u.outSize.toNat 0 u
    obtain ⟨_, w, hok, rfl⟩ | ⟨c, v, w, hraise, rfl⟩ := Eng.finish_eq_next hdecode
    · rw [hok] at hloop ⊢
      have herrw : w.status.err = false := by rw [hloop.frame]; exact herru
      exact ⟨fun h => absurd h (by rw [complete_status, herrw]; decide), fun s4 _ hdiscard => hdiscard⟩
    · rw [hraise] at hloop ⊢
      exact ⟨fun _ => ⟨by rw [takeFault_status, hloop.1.frame]; exact hvalid, rfl⟩, fun s4 h => nomatch h⟩
  · rw [hraise]
    exact ⟨fun _ => rfl, fun s3 h => nomatch h⟩

end Sys2Proof.Machine
end

-- Proofs of family 42_vertical_xor.md: VX_DECODE as the running XOR and its encoder, and VX_CHUNKS chunk by chunk
section

namespace Sys2Proof.Machine

/-! ## VX_DECODE (R160, R161) -/

theorem exec_vxDecode_fits {s : State} (h : s.gridFits) :
    exec .vxDecode s =
      .next ((vxorGrid s.vxBase.toNat s.vxWidth.toNat s.vxHeight.toNat s).setProgress s.gridSize).complete :=
  congrArg Eng.finish (if_pos h)

theorem exec_vxDecode_range {s : State} (h : ¬s.gridFits) : exec .vxDecode s = .next (s.takeFault .bufRange 0) :=
  congrArg Eng.finish (if_neg h)

/-- The running XOR as a fold over the rows. -/
theorem columnXor_eq_foldl (g : Nat → Nat → Byte) (x y : Nat) :
    columnXor g x y = ((List.range (y + 1)).map fun j => g j x).foldl (· ^^^ ·) 0 := by
  induction y with
  | zero => exact BitVec.zero_xor.symm
  | succ y ih => rw [columnXor, ih, List.range_succ (n := y + 1), List.map_append, List.foldl_append]; rfl

/-- Settles O47: VxorGrid's closed form (`vxorGrid_read`) and what it leaves (`vxorGrid_bufOnly`). -/
theorem vxDecodeIsRunningXor : Obligations.VxDecodeIsRunningXor := by
  unfold Obligations.VxDecodeIsRunningXor
  refine ⟨decode_encode .vxDecode, fun s => ⟨fun hout => exec_vxDecode_range (Nat.not_le_of_lt hout), fun hfit => ?_⟩⟩
  have hgrid := vxorGrid_bufOnly s.vxBase.toNat s.vxWidth.toNat s.vxHeight.toNat s
  refine ⟨_, exec_vxDecode_fits hfit, ?_, fun y x hy hx => ?_, fun a ha => hgrid.readBuf ha⟩
  · rw [hgrid.frame]; rfl
  · exact (vxorGrid_read hy hx).trans (columnXor_eq_foldl _ x y)

/-! ## The encoder (R163) -/

/-- A completed VX_DECODE leaves the running XOR in the grid. -/
theorem vxDecode_gridAt {s t : State} (hfit : s.gridFits) (he : exec .vxDecode s = .next t) {y x : Nat}
    (hy : y < s.vxHeight.toNat) (hx : x < s.vxWidth.toNat) :
    t.gridAt s.vxBase.toNat s.vxWidth.toNat y x = columnXor (s.gridAt s.vxBase.toNat s.vxWidth.toNat) x y := by
  obtain rfl := Host.Outcome.next.inj ((exec_vxDecode_fits hfit).symm.trans he)
  exact vxorGrid_read hy hx

theorem gridEnc_congr {g g' : Nat → Nat → Byte} {x y : Nat} (h : ∀ j ≤ y, g j x = g' j x) :
    gridEnc g y x = gridEnc g' y x := by
  rw [gridEnc, gridEnc, h 0 (Nat.zero_le y), h y (Nat.le_refl y), h (y - 1) (Nat.sub_le y 1)]

/-- VX_DECODE on one column of three bytes. -/
theorem vxDecode_column {s t : State} {b : Nat} {v0 v1 v2 : Byte} (hb : s.vxBase.toNat = b) (hw : s.vxWidth = 1)
    (hh : s.vxHeight = 3) (hfit : s.vxBase.toNat + 3 ≤ s.par.bufCap) (h0 : s.readBuf b = v0) (h1 : s.readBuf (b + 1) = v1)
    (h2 : s.readBuf (b + 2) = v2) (he : exec .vxDecode s = .next t) :
    t.readBuf b = v0 ∧ t.readBuf (b + 1) = v0 ^^^ v1 ∧ t.readBuf (b + 2) = v0 ^^^ v1 ^^^ v2 := by
  subst hb h0 h1 h2
  have hgrid : s.gridFits := by rw [State.gridFits, State.gridSize, hw, hh]; exact hfit
  have row : ∀ y < 3, t.gridAt s.vxBase.toNat 1 y 0 = columnXor (s.gridAt s.vxBase.toNat 1) 0 y := fun y hy => by
    have h := vxDecode_gridAt hgrid he (y := y) (x := 0) (by rw [hh]; exact hy) (by rw [hw]; decide)
    rwa [hw] at h
  exact ⟨row 0 (by decide), row 1 (by decide), row 2 (by decide)⟩

/-- Settles O48: the running XOR and the encoder cancel in both orders (`columnXor_gridEnc`, `gridEnc_columnXor`), and
01 00 00 is decoded twice. -/
theorem vxDecodeInvertsTheEncoder : Obligations.VxDecodeInvertsTheEncoder := by
  unfold Obligations.VxDecodeInvertsTheEncoder
  constructor
  · intro s t g b w h hfit he
    refine ⟨fun henc y x hy hx => ?_, fun y x hy hx => ?_⟩
    · rw [vxDecode_gridAt hfit he hy hx, columnXor_congr fun j hj => henc j x (Nat.lt_of_le_of_lt hj hy) hx,
        columnXor_gridEnc]
    · calc
        gridEnc (t.gridAt b w) y x = gridEnc (fun y x => columnXor (s.gridAt b w) x y) y x :=
          gridEnc_congr fun j hj => vxDecode_gridAt hfit he (Nat.lt_of_le_of_lt hj hy) hx
        _ = s.gridAt b w y x := gridEnc_columnXor _ y x
  · intro s t u hw hh hfit h0 h1 h2 het heu
    obtain ⟨t0, t1, t2⟩ := vxDecode_column rfl hw hh hfit h0 h1 h2 het
    have hframe := VxEnds.finish_frame het (vxDecode_post s)
    have hu := vxDecode_column (s := t) (by rw [hframe]) (by rw [hframe]; exact hw) (by rw [hframe]; exact hh)
      (by rw [hframe]; exact hfit) t0 t1 t2 heu
    exact ⟨⟨t0, t1, t2⟩, hu⟩

/-! ## VX_CHUNKS (R162) -/

/-- The number of chunks of VX_CHUNKS's operands. -/
def State.chunks (s : State) : Nat := chunkCount s.vxLen.toNat s.gridSize s.vxStride.toNat

/-- The state after the first `k` chunks. -/
def State.afterChunks (s : State) (k : Nat) : State :=
  chunkRun s.vxBase.toNat s.vxWidth.toNat s.vxHeight.toNat s.vxStride.toNat k 0 s

theorem exec_vxChunks_range {s : State} (h : ¬s.regionFits) : exec .vxChunks s = .next (s.takeFault .bufRange 0) :=
  congrArg Eng.finish (if_neg h)

theorem exec_vxChunks_param {s : State} (h : s.regionFits) (hs : ¬s.strideOk) :
    exec .vxChunks s = .next (s.takeFault .badParam s.vxStride) :=
  congrArg Eng.finish ((if_pos h).trans (if_neg hs))

/-- With the checks passed VX_CHUNKS runs every chunk that lies wholly inside the region. -/
theorem exec_vxChunks_fits {s : State} (h : s.regionFits) (hs : s.strideOk) :
    exec .vxChunks s = .next (s.afterChunks s.chunks).complete := by
  have hpos : 0 < s.vxStride.toNat := Nat.pos_of_ne_zero fun h0 => hs.1 (BitVec.eq_of_toNat_eq h0)
  refine (congrArg Eng.finish ((if_pos h).trans (if_pos hs))).trans ?_
  rw [chunkLoop_eq_run hpos s (by rw [Nat.zero_add]; exact chunkCount_le _ _)]
  rfl

theorem afterChunks_frame (s : State) (k : Nat) :
    s.afterChunks k = { s with
      bufMem := (s.afterChunks k).bufMem, progress := if k = 0 then s.progress else Word.ofNat k } := by
  have h := chunkRun_frame s.vxBase.toNat s.vxWidth.toNat s.vxHeight.toNat s.vxStride.toNat k 0 s
  rwa [Nat.zero_add] at h

/-- A completed VX_CHUNKS leaves the running XOR in each of its chunks. -/
theorem vxChunks_gridAt {s t : State} (h : s.regionFits) (hs : s.strideOk) (he : exec .vxChunks s = .next t) {k y x : Nat}
    (hk : k < s.chunks) (hy : y < s.vxHeight.toNat) (hx : x < s.vxWidth.toNat) :
    t.gridAt (s.vxBase.toNat + k * s.vxStride.toNat) s.vxWidth.toNat y x =
      columnXor (s.gridAt (s.vxBase.toNat + k * s.vxStride.toNat) s.vxWidth.toNat) x y := by
  obtain rfl := Host.Outcome.next.inj ((exec_vxChunks_fits h hs).symm.trans he)
  exact chunkRun_read hs.2 (Nat.zero_le k) (by rwa [Nat.zero_add]) hy hx

/-- Settles O49: the two checks, and the run of the chunks in closed form. -/
theorem vxChunksDecodesEveryWholeChunk : Obligations.VxChunksDecodesEveryWholeChunk := by
  unfold Obligations.VxChunksDecodesEveryWholeChunk
  refine ⟨decode_encode .vxChunks, fun s => ⟨fun hout => exec_vxChunks_range (Nat.not_le_of_lt hout),
    fun hfit hbad => exec_vxChunks_param hfit ?_, fun hfit h0 hlen => ?_⟩⟩
  · rintro ⟨h0, hlen⟩
    exact hbad.elim h0 (Nat.not_lt_of_le hlen)
  · have he := exec_vxChunks_fits hfit ⟨h0, hlen⟩
    refine ⟨_, he, ?_, fun k y x hk hy hx => ?_, fun a ha => ?_⟩
    · rw [afterChunks_frame]; rfl
    · exact (vxChunks_gridAt hfit ⟨h0, hlen⟩ he hk hy hx).trans (columnXor_eq_foldl _ x y)
    · exact VxEnds.readBuf_of_post (vxChunks_post s) he fun ⟨k, hk, hin⟩ => ha k hk hin

/-! ## VX_CHUNKS as VX_DECODE of each chunk (R164) -/

/-- The state with another VX_BASE, PROGRESS and STATUS: what a sequence of VX_DECODE commands sets besides BUF. -/
def State.withRun (s : State) (b p : Word) (st : Status) : State := { s with vxBase := b, progress := p, status := st }

theorem vxCells_withRun (base w y n x : Nat) (s : State) (b p : Word) (st : Status) :
    vxCells base w y n x (s.withRun b p st) = (vxCells base w y n x s).withRun b p st := by
  induction n generalizing x s with
  | zero => rfl
  | succ n ih => exact ih (x + 1) (s.storeBuf _ _)

theorem vxRows_withRun (base w n y : Nat) (s : State) (b p : Word) (st : Status) :
    vxRows base w n y (s.withRun b p st) = (vxRows base w n y s).withRun b p st := by
  induction n generalizing y s with
  | zero => rfl
  | succ n ih => rw [vxRows, vxCells_withRun, ih, vxRows]

theorem vxorGrid_withRun (base w h : Nat) (s : State) (b p : Word) (st : Status) :
    vxorGrid base w h (s.withRun b p st) = (vxorGrid base w h s).withRun b p st := by
  unfold vxorGrid
  split
  · rfl
  · exact vxRows_withRun base w (h - 1) 1 s b p st

/-- The last chunk of a run, taken off. -/
theorem chunkRun_succ (base w h stride n k : Nat) (s : State) :
    chunkRun base w h stride (n + 1) k s =
      (vxorGrid (base + (k + n) * stride) w h (chunkRun base w h stride n k s)).setProgress (k + n + 1) := by
  induction n generalizing k s with
  | zero => rfl
  | succ n ih => rw [chunkRun, ih, chunkRun, Nat.add_right_comm k 1 n, Nat.add_assoc k n 1]

theorem afterChunks_succ (s : State) (k : Nat) :
    s.afterChunks (k + 1) = (vxorGrid (s.vxBase.toNat + k * s.vxStride.toNat) s.vxWidth.toNat s.vxHeight.toNat
      (s.afterChunks k)).setProgress (k + 1) := by
  have h := chunkRun_succ s.vxBase.toNat s.vxWidth.toNat s.vxHeight.toNat s.vxStride.toNat k 0 s
  rwa [Nat.zero_add] at h

theorem valid_bufCap_lt {p : Params} (h : p.valid = true) : p.bufCap < 2 ^ 32 := by
  simp only [Params.valid, Bool.and_eq_true, decide_eq_true_eq] at h; omega

/-- VX_DECODE of chunk `k`, after those before it. -/
theorem exec_vxDecode_chunk {s : State} (hbig : s.par.bufCap < 2 ^ 32) (h : s.regionFits) {k : Nat} (hk : k < s.chunks)
    (p : Word) (st : Status) :
    ∃ p' st', exec .vxDecode ((s.afterChunks k).withRun (s.vxBase + Word.ofNat (k * s.vxStride.toNat)) p st) =
      .next ((s.afterChunks (k + 1)).withRun (s.vxBase + Word.ofNat (k * s.vxStride.toNat)) p' st') := by
  have hend : k * s.vxStride.toNat + s.gridSize ≤ s.vxLen.toNat := chunk_end_le hk
  have hbase : (s.vxBase + Word.ofNat (k * s.vxStride.toNat)).toNat = s.vxBase.toNat + k * s.vxStride.toNat := by
    unfold State.regionFits at h
    exact add_ofNat_toNat (by omega)
  have hframe := afterChunks_frame s k
  have hw : (s.afterChunks k).vxWidth = s.vxWidth := by rw [hframe]
  have hh : (s.afterChunks k).vxHeight = s.vxHeight := by rw [hframe]
  have hpar : (s.afterChunks k).par = s.par := by rw [hframe]
  have hfit : ((s.afterChunks k).withRun (s.vxBase + Word.ofNat (k * s.vxStride.toNat)) p st).gridFits := by
    show (s.vxBase + Word.ofNat (k * s.vxStride.toNat)).toNat +
      (s.afterChunks k).vxWidth.toNat * (s.afterChunks k).vxHeight.toNat ≤ (s.afterChunks k).par.bufCap
    unfold State.regionFits at h
    unfold State.gridSize at hend
    rw [hbase, hw, hh, hpar]
    omega
  refine ⟨Word.ofNat (s.afterChunks k).gridSize, st.completed, (exec_vxDecode_fits hfit).trans ?_⟩
  rw [vxorGrid_withRun, afterChunks_succ, ← hbase, ← hw, ← hh]
  rfl

/-- A sequence of VX_DECODE commands, one for each chunk, goes through the states of VX_CHUNKS's loop. -/
theorem decodeSequence_eq_afterChunks {s : State} (hbig : s.par.bufCap < 2 ^ 32) (h : s.regionFits) {σ : Nat → State}
    (h0 : σ 0 = s) (hσ : ∀ k, k < s.chunks →
      exec .vxDecode { σ k with vxBase := s.vxBase + Word.ofNat (k * s.vxStride.toNat) } = .next (σ (k + 1)))
    {k : Nat} (hk : k ≤ s.chunks) : ∃ b p st, σ k = (s.afterChunks k).withRun b p st := by
  induction k with
  | zero => exact ⟨s.vxBase, s.progress, s.status, h0⟩
  | succ k ih =>
    obtain ⟨b, p, st, hstate⟩ := ih (Nat.le_of_succ_le hk)
    obtain ⟨p', st', hnext⟩ := exec_vxDecode_chunk hbig h hk p st
    have hstep := hσ k hk
    rw [hstate] at hstep
    exact ⟨_, p', st', Host.Outcome.next.inj (hstep.symm.trans hnext)⟩

/-- Every offset of a grid is that of a cell. -/
theorem exists_cell_of_inGrid {base w h a : Nat} (ha : inGrid base w h a) :
    ∃ y x, y < h ∧ x < w ∧ a = base + y * w + x := by
  obtain ⟨hlow, hhigh⟩ := ha
  have hin : a - base < h * w := by rw [Nat.mul_comm h w]; omega
  have hw : 0 < w := Nat.pos_of_ne_zero fun h0 => by subst h0; omega
  refine ⟨(a - base) / w, (a - base) % w, (Nat.div_lt_iff_lt_mul hw).mpr hin, Nat.mod_lt _ hw, ?_⟩
  rw [Nat.add_assoc, Nat.div_add_mod']
  omega

/-- Two runs of VX_CHUNKS with the same operands leave the same bytes in a chunk that held the same bytes. -/
theorem vxChunks_chunk_congr {s s' t t' : State} (h : s.regionFits) (hs : s.strideOk) (hpar : s'.par = s.par)
    (hb : s'.vxBase = s.vxBase) (hl : s'.vxLen = s.vxLen) (hw : s'.vxWidth = s.vxWidth) (hh : s'.vxHeight = s.vxHeight)
    (hS : s'.vxStride = s.vxStride) (he : exec .vxChunks s = .next t) (he' : exec .vxChunks s' = .next t') {k : Nat}
    (hk : k < s.chunks)
    (hsame : ∀ a, inGrid (s.vxBase.toNat + k * s.vxStride.toNat) s.vxWidth.toNat s.vxHeight.toNat a →
      s'.readBuf a = s.readBuf a) {a : Nat}
    (ha : inGrid (s.vxBase.toNat + k * s.vxStride.toNat) s.vxWidth.toNat s.vxHeight.toNat a) :
    t'.readBuf a = t.readBuf a := by
  obtain ⟨y, x, hy, hx, rfl⟩ := exists_cell_of_inGrid ha
  have hcell' := vxChunks_gridAt (s := s') (by rwa [State.regionFits, hb, hl, hpar])
    (by rwa [State.strideOk, State.gridSize, hw, hh, hS]) he' (k := k) (y := y) (x := x)
    (by rwa [State.chunks, State.gridSize, hl, hw, hh, hS]) (by rwa [hh]) (by rwa [hw])
  rw [hb, hw, hS] at hcell'
  calc _ = columnXor (s'.gridAt (s.vxBase.toNat + k * s.vxStride.toNat) s.vxWidth.toNat) x y := hcell'
    _ = columnXor (s.gridAt (s.vxBase.toNat + k * s.vxStride.toNat) s.vxWidth.toNat) x y :=
      columnXor_congr fun j hj => hsame _ (inGrid_cell (Nat.lt_of_le_of_lt hj hy) hx)
    _ = _ := (vxChunks_gridAt h hs he hk hy hx).symm

/-- Settles O50: the sequence of VX_DECODE commands follows VX_CHUNKS's loop (`decodeSequence_eq_afterChunks`), and a chunk
depends on its own bytes (`vxChunks_chunk_congr`). -/
theorem vxChunksIsVxDecodePerChunk : Obligations.VxChunksIsVxDecodePerChunk := by
  unfold Obligations.VxChunksIsVxDecodePerChunk
  intro s t b w h S n hpar hfit h0 hlen he
  refine ⟨fun σ hσ0 hσ => ?_, fun s' t' k hp hb hl hw hh hS he' hk hsame a ha => ?_⟩
  · obtain ⟨_, _, _, hlast⟩ := decodeSequence_eq_afterChunks (valid_bufCap_lt hpar) hfit hσ0 hσ (Nat.le_refl n)
    obtain rfl := Host.Outcome.next.inj ((exec_vxChunks_fits hfit ⟨h0, hlen⟩).symm.trans he)
    rw [hlast]; rfl
  · exact vxChunks_chunk_congr hfit ⟨h0, hlen⟩ hp hb hl hw hh hS he he' hk hsame ha

end Sys2Proof.Machine
end

-- Proofs of family 43_rolling_xor.md: the RX commands on enough input, in closed form, and what their result depends on
section

namespace Sys2Proof.Machine

/-! ## The RX commands on enough input (R180 to R182, R184) -/

/-- In fixed mode the cipher phase decodes all it may. -/
theorem RxDecodes.fixed (s : State) (most : Nat) : RxDecodes .fixed s most most false :=
  ⟨Nat.le_refl _, nofun, fun _ => rfl, nofun⟩

/-- In checksum mode the cipher phase stops at the first match. -/
theorem RxDecodes.checksum_match {s : State} {most k : Nat} (h1 : 1 ≤ k) (hk : k ≤ most) (hmatch : s.rxMatches k)
    (hfirst : ∀ j, 1 ≤ j → j < k → ¬s.rxMatches j) : RxDecodes .checksum s most k true :=
  ⟨hk, fun _ => ⟨rfl, h1, hmatch⟩, nofun, fun _ j hj hjk => hfirst j hj (hjk.resolve_right nofun)⟩

/-- In checksum mode without a match the cipher phase decodes all it may. -/
theorem RxDecodes.checksum_noMatch {s : State} {most : Nat} (hno : ∀ j, 1 ≤ j → j ≤ most → ¬s.rxMatches j) :
    RxDecodes .checksum s most most false :=
  ⟨Nat.le_refl _, nofun, fun _ => rfl, fun _ j hj hjk => hno j hj (by omega)⟩

/-- An RX command with its output range in BUF and its bytes in the input completes, for the count that its cipher phase
decodes. -/
theorem exec_rx_total (mode : RxMode) {s : State} (hout : s.outFits)
    (hin : s.inPos.toNat + 2 + s.outSize.toNat ≤ s.eosLimit) :
    ∃ k stop, RxDecodes mode s s.rxLimit k stop ∧ exec mode.command s =
      .next { s.rxResult k s.outSize.toNat with status := { s.status.completed with rxStop := stop } } := by
  obtain ⟨k, stop, hd, hok, -⟩ := rxCore_total mode (s := s) (by omega)
  have hlim : s.rxLimit ≤ s.outSize.toNat := Nat.min_le_right _ _
  rw [Nat.min_eq_left (by omega)] at hd
  exact ⟨k, stop, hd, by rw [exec_rx_fits mode hout, hok hin]; rfl⟩

/-- The whole next state of an RX command on enough input, and BUF byte by byte, once the count is known. -/
theorem exec_rx_of_decodes {mode : RxMode} {s : State} {k : Nat} {stop : Bool} (hout : s.outFits)
    (hin : s.inPos.toNat + 2 + s.outSize.toNat ≤ s.eosLimit) (hd : RxDecodes mode s s.rxLimit k stop) :
    ∃ t, exec mode.command s = .next t ∧
      t = { s.rxResult k s.outSize.toNat with status := { s.status.completed with rxStop := stop } } ∧
      (∀ i, i < k → t.readBuf (s.outBase.toNat + i) = s.readIn (s.inPos.toNat + 2 + i) ^^^
        ((s.readIn s.inPos.toNat ^^^ s.readIn (s.inPos.toNat + 1)) + BitVec.ofNat 8 i * s.par.keyStep)) ∧
      (∀ i, k ≤ i → i < s.outSize.toNat → t.readBuf (s.outBase.toNat + i) = s.readIn (s.inPos.toNat + 2 + i)) ∧
      (∀ a, a < s.outBase.toNat ∨ s.outBase.toNat + s.outSize.toNat ≤ a → t.readBuf a = s.readBuf a) := by
  obtain ⟨k', stop', hd', he⟩ := exec_rx_total mode hout hin
  obtain ⟨rfl, rfl⟩ := hd.unique hd'
  have hk : k ≤ s.outSize.toNat := hd.le.trans (Nat.min_le_right _ _)
  exact ⟨_, he, rfl, fun i hi => rxResult_readBuf_plain s hk hi, fun i hi hn => rxResult_readBuf_raw s hi hn,
    fun a ha => rxResult_readBuf_outside s hk ha⟩

/-- Settles O51: the cipher phase of RX_FIXED decodes the limit. -/
theorem rxFixedDecodesTheLimit : Obligations.RxFixedDecodesTheLimit := by
  unfold Obligations.RxFixedDecodesTheLimit
  intro s hout hin
  exact exec_rx_of_decodes hout hin (RxDecodes.fixed s s.rxLimit)

/-- Settles O52: the cipher phase of RX_CHECKSUM decodes up to the first match, or the limit. -/
theorem rxChecksumStopsAtFirstMatch : Obligations.RxChecksumStopsAtFirstMatch := by
  unfold Obligations.RxChecksumStopsAtFirstMatch
  intro s hout hin
  exact ⟨fun K h1 hK hmatch hfirst => exec_rx_of_decodes hout hin (.checksum_match h1 hK hmatch hfirst),
    fun hno => exec_rx_of_decodes hout hin (.checksum_noMatch hno)⟩

/-! ## What an RX command depends on (R184, R253) -/

/-- `s'` has the parameters, the RX operands and the seed and ciphertext bytes of `s`. -/
structure SameRxInput (s s' : State) : Prop where
  par : s'.par = s.par
  inPos : s'.inPos = s.inPos
  outBase : s'.outBase = s.outBase
  outSize : s'.outSize = s.outSize
  encLimit : s'.encLimit = s.encLimit
  bytes : ∀ a, s.inPos.toNat ≤ a → a < s.inPos.toNat + 2 + s.outSize.toNat → s'.readIn a = s.readIn a

section SameInput

variable {s s' : State} (h : SameRxInput s s')
include h

theorem SameRxInput.seeds :
    s'.readIn s'.inPos.toNat = s.readIn s.inPos.toNat ∧ s'.readIn (s'.inPos.toNat + 1) = s.readIn (s.inPos.toNat + 1) := by
  rw [h.inPos]
  exact ⟨h.bytes _ (by omega) (by omega), h.bytes _ (by omega) (by omega)⟩

theorem SameRxInput.rxPlains (k0 : Byte) {n : Nat} (hn : n ≤ s.outSize.toNat) :
    s'.rxPlains k0 (s'.inPos.toNat + 2) n = s.rxPlains k0 (s.inPos.toNat + 2) n := by
  refine List.map_congr_left fun i hi => ?_
  have hi : i < n := List.mem_range.mp hi
  rw [State.rxPlainAt, State.rxPlainAt, h.par, h.inPos, h.bytes _ (by omega) (by omega)]

theorem SameRxInput.rawBytes {k n : Nat} (hn : k + n ≤ s.outSize.toNat) :
    s'.rawBytes (s'.inPos.toNat + 2 + k) n = s.rawBytes (s.inPos.toNat + 2 + k) n := by
  rw [h.inPos]
  refine List.map_congr_left fun a ha => ?_
  obtain ⟨hlow, hhigh⟩ := List.mem_range'_1.mp ha
  exact h.bytes a (by omega) (by omega)

theorem SameRxInput.rxOutput {k n : Nat} (hk : k ≤ n) (hn : n ≤ s.outSize.toNat) :
    s'.rxOutput k n = s.rxOutput k n := by
  obtain ⟨h1, h2⟩ := h.seeds
  rw [State.rxOutput, State.rxOutput, h1, h2, h.rxPlains _ (hk.trans hn), h.rawBytes (by omega)]

theorem SameRxInput.rxMatches_iff {k : Nat} (hk : k ≤ s.outSize.toNat) : s'.rxMatches k ↔ s.rxMatches k := by
  obtain ⟨h1, h2⟩ := h.seeds
  rw [State.rxMatches, State.rxMatches, h1, h2, h.rxPlains _ hk, h.par]

theorem SameRxInput.rxDecodes {mode : RxMode} {most k : Nat} {stop : Bool} (hmost : most ≤ s.outSize.toNat)
    (hd : RxDecodes mode s most k stop) : RxDecodes mode s' most k stop := by
  have hk := hd.le
  refine ⟨hk, fun hs => ?_, hd.ran, fun hm j hj hjk => ?_⟩
  · obtain ⟨hm, h1, hmatch⟩ := hd.stopped hs
    exact ⟨hm, h1, (h.rxMatches_iff (by omega)).mpr hmatch⟩
  · exact mt (h.rxMatches_iff (by omega)).mp (hd.first hm j hj hjk)

/-- The registers that an RX command computes. -/
theorem SameRxInput.rxResult_registers {k n : Nat} (hk : k ≤ s.outSize.toNat) :
    (s'.rxResult k n).inPos = (s.rxResult k n).inPos ∧ (s'.rxResult k n).seed = (s.rxResult k n).seed ∧
    (s'.rxResult k n).key = (s.rxResult k n).key ∧ (s'.rxResult k n).checksum = (s.rxResult k n).checksum ∧
    (s'.rxResult k n).chkTarget = (s.rxResult k n).chkTarget := by
  obtain ⟨h1, h2⟩ := h.seeds
  simp only [State.rxResult, h1, h2, h.rxPlains _ hk, h.par, and_true]
  rw [h.inPos]

theorem SameRxInput.rxResult_readBuf {k n j : Nat} (hk : k ≤ n) (hn : n ≤ s.outSize.toNat) (hj : j < n) :
    (s'.rxResult k n).readBuf (s.outBase.toNat + j) = (s.rxResult k n).readBuf (s.outBase.toNat + j) := by
  have hrange : s.outBase.toNat ≤ s.outBase.toNat + j ∧ s.outBase.toNat + j < s.outBase.toNat + n := by omega
  rw [Machine.rxResult_readBuf s' hk, Machine.rxResult_readBuf s hk, h.outBase, if_pos hrange, if_pos hrange,
    h.rxOutput hk hn]

end SameInput

/-- Settles O54: with the same input both runs decode the same count, and the closed form reads nothing else. -/
theorem rxDependsOnlyOnItsBytes : Obligations.RxDependsOnlyOnItsBytes := by
  unfold Obligations.RxDependsOnlyOnItsBytes
  intro i s s' t t' hi hpar hpos hend hbase hsize henc hout hin hbytes he he'
  have same : SameRxInput s s' := ⟨hpar, hpos, hbase, hsize, henc, hbytes⟩
  obtain ⟨mode, rfl⟩ : ∃ mode : RxMode, i = mode.command := hi.elim (fun h => ⟨.fixed, h⟩) fun h => ⟨.checksum, h⟩
  have hout' : s'.outFits := by rwa [State.outFits, hbase, hsize, hpar]
  have hin' : s'.inPos.toNat + 2 + s'.outSize.toNat ≤ s'.eosLimit := by rwa [hpos, hsize, eosLimit_congr hend hpar]
  have hlim : s.rxLimit ≤ s.outSize.toNat := Nat.min_le_right _ _
  have hlim' : s'.rxLimit = s.rxLimit := by rw [State.rxLimit, State.rxLimit, henc, hsize]
  obtain ⟨k, stop, hd, hrun⟩ := exec_rx_total mode hout hin
  obtain ⟨k', stop', hd', hrun'⟩ := exec_rx_total mode hout' hin'
  obtain ⟨rfl, rfl⟩ := (same.rxDecodes hlim hd).unique (hlim' ▸ hd')
  obtain rfl := Host.Outcome.next.inj (hrun.symm.trans he)
  obtain rfl := Host.Outcome.next.inj (hrun'.symm.trans he')
  have hk : k ≤ s.outSize.toNat := hd.le.trans hlim
  obtain ⟨h1, h2, h3, h4, h5⟩ := same.rxResult_registers (n := s.outSize.toNat) hk
  rw [hsize]
  exact ⟨h1, h2, h3, h4, h5, rfl, rfl, fun j hj => same.rxResult_readBuf hk (Nat.le_refl _) hj⟩

end Sys2Proof.Machine
end

-- Proofs of family 60_exceptions.md: every step of a legal state goes on, how a command ends and faults, the CMD and STATUS writes, and the interrupt line
section

namespace Sys2Proof.Machine

/-! ## Progress (R201, R203, R210) -/

/-- In a legal state no command stops the machine: it ends, completed (R204) or faulted (R205). -/
theorem exec_total {s : State} (h : Inv s) (i : Instr) : ∃ t, exec i s = .next t := by
  obtain ⟨u, -, he | ⟨c, v, -, he⟩⟩ := exec_ends h.legal i
  · exact ⟨_, he⟩
  · exact ⟨_, he⟩

/-- A step of a legal state answers a next state: only the engine's step could stop, and in a legal state none does. -/
theorem step_total {s : State} (h : Inv s) : ∃ t, step s = .next t := by
  rcases step_cases s with ⟨-, -, e⟩ | ⟨-, l, e⟩ | ⟨a, rest, l, -, e⟩
  · exact ⟨_, e⟩
  · rw [e]
    have hl : Inv { s with sched := l } := h.congr rfl rfl rfl rfl rfl rfl rfl rfl
    exact exec_total hl s.latch
  · exact ⟨_, e⟩

/-- Settles O27: progress is `step_total`, preservation is O26. -/
theorem noLegalStateStops : Obligations.NoLegalStateStops := by
  unfold Obligations.NoLegalStateStops
  intro s h
  obtain ⟨t, ht⟩ := step_total h
  exact ⟨t, ht, everyStepKeepsLegality s t h ht⟩

/-! ## The end of a command (R204, R205) -/

/-- Settles O8: the command ends with BUSY = 0 and DONE the opposite of ERR (`exec_ended`); what CAUSE and FAULT_INFO are
then follows from the legality of the state it ends in (`Inv.exec`). -/
theorem acceptedCommandEndsInDoneOrErr : Obligations.AcceptedCommandEndsInDoneOrErr := by
  unfold Obligations.AcceptedCommandEndsInDoneOrErr
  intro s i h hb
  obtain ⟨t, he⟩ := exec_total h i
  have hlegal := (h.exec hb he).status
  have hend := exec_ended he
  refine ⟨t, he, hend.busy, ?_⟩
  obtain ⟨hdone, -⟩ | ⟨hdone, herr⟩ := hend.ended
  · have herr : t.status.err = false := Bool.eq_false_iff.mpr fun herr => hlegal.doneErr ⟨hdone, herr⟩
    exact .inl ⟨hdone, herr, hlegal.noFault herr⟩
  · exact .inr ⟨hdone, herr, hlegal.fault herr⟩

/-! ## The faults of the commands (R203) -/

/-- A command that ends with ERR = 1, which was 0 before it, has not completed. -/
theorem exec_done_of_err {s t : State} {i : Instr} (he : exec i s = .next t) (hs : s.status.err = false)
    (ht : t.status.err = true) : t.status.done = false := by
  obtain ⟨-, herr, -⟩ | ⟨hdone, -⟩ := (exec_ended he).ended
  · exact nomatch hs.symm.trans (herr.symm.trans ht)
  · exact hdone

/-- What a rule promises of its raises holds of the state after fault entry, with CAUSE and FAULT_INFO as fault entry
wrote them, if the promise looks at neither STATUS nor FAULT_INFO of the state at the raise. -/
theorem Eng.Post.fault {α : Type} {x : Eng α} {Q : State → Prop} {R : Cause → Word → State → Prop} {t : State}
    (hx : x.Post Q R) (h : x.finish = .next t) (hd : t.status.done = false)
    (hR : ∀ c v u, R c v u → R c v (u.takeFault c v)) : R t.status.cause t.faultInfo t := by
  rcases hx.finish h with ⟨u, -, rfl⟩ | ⟨c, v, u, -, hr, rfl⟩
  · exact nomatch hd
  · exact hR c v u hr

/-- A host act that raises ERR is a CMD write of an invalid word, recorded as R202 says. -/
theorem hostAct_raises_badCmd {s : State} {a : HostAct} (hs : s.status.err = false)
    (ht : (s.hostAct a).status.err = true) :
    ∃ w, a = wr .cmd w ∧ (∀ i, decode w ≠ .ok i) ∧ s.hostAct a = s.badCmd w := by
  obtain ⟨w, rfl, hb, hd⟩ := (hostAct_keeps s a).errSet hs ht
  exact ⟨w, rfl, hd, hostAct_wr_cmd_invalid hb hs hd⟩

/-- Settles O9: the raises of each command's rule (`…_post`), carried over fault entry by `Eng.Post.fault`; BR_INIT and
HT_DISCARD complete. -/
theorem faultCausesAsTabled : Obligations.FaultCausesAsTabled := by
  unfold Obligations.FaultCausesAsTabled
  refine ⟨fun s t i hs he ht => ?_, fun s a hs ht => ?_, rfl, rfl, rfl, rfl, rfl, rfl, rfl, rfl⟩
  · have hd := exec_done_of_err he hs ht
    cases i with
    | brInit => cases he; exact nomatch hd
    | brReadBit => exact (brReadBit_post s).fault he hd fun _ _ _ h => h
    | brReadByte => exact (brReadByte_post s).fault he hd fun _ _ _ h => h
    | htLoad => exact (loadTree_post s).fault he hd fun _ _ _ h => h
    | htDecode => exact (htDecode_post s).fault he hd fun _ _ _ h => h
    | htDecodeN => exact (htDecodeN_post s).fault he hd fun _ _ _ h => h
    | htDiscard => cases he; exact nomatch hd
    | htBlock => exact (htBlock_post s).fault he hd fun _ _ _ h => h
    | vxDecode => exact (vxDecode_post s).fault he hd fun _ _ _ h => h
    | vxChunks => exact (vxChunks_post s).fault he hd fun _ _ _ h => h
    | rxFixed => exact (rx_post .fixed s).fault he hd fun _ _ _ h => h
    | rxChecksum => exact (rx_post .checksum s).fault he hd fun _ _ _ h => h
  · obtain ⟨w, ha, hd, hbad⟩ := hostAct_raises_badCmd hs ht
    rw [hbad]
    exact ⟨w, ha, hd, rfl, rfl⟩

/-! ## The static checks (R206, R207) -/

/-- A rule that begins with the check for a tree faults without one, whatever follows. -/
theorem finish_checkTree_noTree {α : Type} {s : State} (hv : s.status.treeValid = false) (f : Unit → State → Eng α) :
    ((checkTree s).bind f).finish = .next (s.takeFault .noTree 0) := by
  rw [checkTree, if_neg (ne_true_of_eq_false hv), Eng.raise_bind, Eng.finish_raise]

/-- A rule that begins with CheckOut faults if the output range is not inside BUF, whatever follows. -/
theorem finish_checkOut_range {α : Type} {s : State} (h : ¬s.outFits) (f : Unit → State → Eng α) :
    ((checkOut s).bind f).finish = .next (s.takeFault .bufRange 0) := by
  rw [checkOut, if_neg h, Eng.raise_bind, Eng.finish_raise]

theorem exec_noTree {s : State} (hv : s.status.treeValid = false) :
    ∀ i ∈ [Instr.htDecode, .htDecodeN], exec i s = .next (s.takeFault .noTree 0) := by
  simp only [List.forall_mem_cons]
  exact ⟨exec_htDecode_noTree hv, finish_checkTree_noTree hv _, List.forall_mem_nil _⟩

theorem exec_htDecodeN_range {s : State} (hv : s.status.treeValid = true) (h : ¬s.outFits) :
    exec .htDecodeN s = .next (s.takeFault .bufRange 0) := by
  show ((checkTree s).bind _).finish = _
  rw [checkTree_valid hv]
  exact finish_checkOut_range h _

theorem exec_outRange {s : State} (h : ¬s.outFits) :
    ∀ i ∈ [Instr.htBlock, .rxFixed, .rxChecksum], exec i s = .next (s.takeFault .bufRange 0) := by
  simp only [List.forall_mem_cons]
  exact ⟨finish_checkOut_range h _, finish_checkOut_range h _, finish_checkOut_range h _, List.forall_mem_nil _⟩

/-- Settles O10: each check that fails is the whole of the command, which then only enters the fault. -/
theorem staticChecksPrecedeEveryEffect : Obligations.StaticChecksPrecedeEveryEffect := by
  unfold Obligations.StaticChecksPrecedeEveryEffect
  intro s
  refine ⟨fun i hi hv => exec_noTree hv i hi, fun hv h => exec_htDecodeN_range hv (Nat.not_le_of_lt h),
    fun i hi h => exec_outRange (Nat.not_le_of_lt h) i hi, fun h => exec_vxDecode_range (Nat.not_le_of_lt h),
    fun h => exec_vxChunks_range (Nat.not_le_of_lt h), fun hfit hbad => exec_vxChunks_param hfit ?_⟩
  rintro ⟨h0, hlen⟩
  exact hbad.elim h0 (Nat.not_lt_of_le hlen)

/-! ## Acceptance and rejection of a CMD write (R200 to R202) -/

/-- With the engine put first in the schedule, the next step is the engine's, and the schedule is then as before. -/
theorem step_engineFirst {s : State} (hb : s.status.busy = true) : step s.engineFirst = exec s.latch s := by
  cases hq : s.hostQ with
  | nil =>
    have hfirst : s.engineFirst = s := by simp only [State.engineFirst, hq]
    rw [hfirst]
    exact step_engine_unscheduled hb (.inl hq)
  | cons a rest =>
    have hfirst : s.engineFirst = { s with sched := .engine :: s.sched } := by simp only [State.engineFirst, hq]
    rw [hfirst]
    exact step_engine_scheduled hb hq rfl

/-- Settles O6: the word is placed as the accepted command, with the engine first to move. -/
theorem placedWordRunsNext : Obligations.PlacedWordRunsNext := by
  unfold Obligations.PlacedWordRunsNext
  intro s nbits w i hd
  have hplace : s.withFetchWord nbits w = (s.clearErr.accept i).engineFirst := by
    simp only [State.withFetchWord, State.placeWord, hd, State.latchCommand]
  rw [hplace]
  exact step_engineFirst rfl

/-- A CMD write while a fault is pending is dropped and sets HAZ (R202). -/
theorem hostAct_wr_cmd_pending {s : State} {w : Word} (hb : s.status.busy = false) (he : s.status.err = true) :
    s.hostAct (wr .cmd w) = s.setHaz := by
  simp [hostAct_wr, State.cmdWrite, hb, he]

/-- Settles O7, one lemma for each of the four ways. -/
theorem cmdWriteHandledOneOfFourWays : Obligations.CmdWriteHandledOneOfFourWays := fun _ _ =>
  ⟨fun hb => hostAct_regWrite_busy hb _ _ _, hostAct_wr_cmd_pending, hostAct_wr_cmd_invalid,
    fun _ => hostAct_wr_cmd_accepted⟩

/-! ## The return from a fault (R209) -/

/-- Settles O11: the write is `writeStatus`, by cases on the bit that clears ERR. -/
theorem statusWriteClearsFault : Obligations.StatusWriteClearsFault := by
  unfold Obligations.StatusWriteClearsFault
  intro s v hb
  rw [hostAct_wr_ready hb (by decide)]
  show s.writeStatus v = _
  unfold State.writeStatus
  cases v.getLsbD 2 with
  | true => simp [State.clearErr]
  | false => simp

/-! ## The interrupt line (R212) -/

/-- R26: the bits of STATUS below CAUSE. -/
theorem status_toWord_getLsbD (t : Status) {j : Nat} (hj : j < 8) :
    t.toWord.getLsbD j = (t.busy && decide (j = 0) || t.done && decide (j = 1) || t.err && decide (j = 2) ||
      t.haz && decide (j = 3) || t.treeValid && decide (j = 4) || t.rxStop && decide (j = 5)) := by
  have hcause : (t.cause.code.zeroExtend 32 <<< 8).getLsbD j = false := by simp [hj]
  simp only [Status.toWord, BitVec.getLsbD_or, flagAt_getLsbD_eq, Nat.reduceLT, hcause, Bool.or_false]

/-- R25: the bits of CTRL. -/
theorem ctrl_toWord_getLsbD (c : Ctrl) (j : Nat) :
    c.toWord.getLsbD j = (c.ieDone && decide (j = 0) || c.ieErr && decide (j = 1) || c.ieHaz && decide (j = 2)) := by
  simp only [Ctrl.toWord, BitVec.getLsbD_or, flagAt_getLsbD_eq, Nat.reduceLT]

/-- Settles O13: bits 1 to 3 of STATUS are DONE, ERR and HAZ, and bits 0 to 2 of CTRL are their enables. -/
theorem interruptLineFollowsStatusAndCtrl : Obligations.InterruptLineFollowsStatusAndCtrl := by
  unfold Obligations.InterruptLineFollowsStatusAndCtrl
  refine ⟨fun s => ?_, rfl⟩
  simp only [State.irq, State.readReg, status_toWord_getLsbD, ctrl_toWord_getLsbD, Nat.reduceLT]
  simp

end Sys2Proof.Machine
end

-- Proofs of family 70_reset_and_hazards.md: the registers after reset
section

namespace Sys2Proof.Machine

/-! ## The registers after reset (R240) -/

/-- R240: the readable registers whose reset value is 0. -/
def zeroAtResetRegs : List Reg :=
  [.ctrl, .status, .inPos, .inEnd, .outBase, .outSize, .encLimit, .vxBase, .vxWidth, .vxHeight, .vxStride, .vxLen, .result,
    .progress, .rxCount, .treeNodes, .faultInfo, .cursor, .key, .checksum, .chkTarget, .seed]

theorem readReg_reset_eq_zero : ∀ r ∈ zeroAtResetRegs, State.reset.readReg r = 0 := by decide

/-- After RST in any state, every register that is no constant of the block reads as in the model's reset state: only the
constants read the parameters, which RST keeps. -/
theorem readReg_assertReset (s : State) {r : Reg} (hr : r ∉ constantRegs) :
    s.assertReset.readReg r = State.reset.readReg r := by
  cases r with
  | bufCapR | inCapR | nodeCapR | depthCapR => exact absurd (by decide) hr
  | _ => rfl

theorem not_mem_constantRegs_of_zeroAtReset : ∀ r ∈ zeroAtResetRegs, r ∉ constantRegs := by decide

/-- Settles O23: RST keeps the parameters, so the capability registers keep their values (`readReg_constant`), and every
other register reads as in the reset state (`readReg_assertReset`). -/
theorem resetLeavesTabledValues : Obligations.ResetLeavesTabledValues := by
  unfold Obligations.ResetLeavesTabledValues
  refine ⟨fun s => ⟨rfl, fun r hr => ?_, fun r hr => ?_, rfl, rfl⟩, readReg_reset_eq_zero⟩
  · have hpar : s.assertReset.par = s.par := rfl
    exact readReg_constant hpar r (List.mem_cons_of_mem _ hr)
  · calc s.assertReset.readReg r
        = State.reset.readReg r := readReg_assertReset s (not_mem_constantRegs_of_zeroAtReset r hr)
      _ = 0 := readReg_reset_eq_zero r hr

end Sys2Proof.Machine
end
